-- ==== Sys2Proof/Word.lean ====
section
/-! DEFINITION. The three word types of the block: a register, a byte of a buffer or of the channel, and a
32-bit word (a command word or a control register). -/

namespace Sys2Proof

/-- A general register: 256 bits (10_state.md R20). -/
abbrev Word := BitVec 256

/-- The addressable unit of the buffers and the unit of the channel (20_memory.md R61, R72). -/
abbrev Byte := BitVec 8

/-- A command word (30_encoding.md R90) or a control register (10_state.md R32). -/
abbrev Word32 := BitVec 32

end Sys2Proof
end

