-- ==== Sys2Proof/Syntax.lean ====
section
/-! DEFINITION. The twenty commands (30_encoding.md R92, R94), one constructor for each row of the opcode table,
operands in the order of the assembler syntax of R97. -/

namespace Sys2Proof

/-- A register number, 4 bits (R93). -/
abbrev RegNum := Fin 16

/-- A point number, 3 bits: `Q[q] = (x[2q], x[2q+1])` (R93, 10_state.md R21). -/
abbrev PointNum := Fin 8

/-- A slot number, 2 bits (R93). -/
abbrev Slot := Fin 4

/-- A command. Bit indices, byte offsets and widths are natural numbers whose range is checked by
`Instr.wellFormed`. -/
inductive Instr where
  /-- `FADD xd, xa, xb` -/
  | fadd (rd ra rb : RegNum)
  /-- `FSUB xd, xa, xb` -/
  | fsub (rd ra rb : RegNum)
  /-- `FMUL xd, xa, xb` -/
  | fmul (rd ra rb : RegNum)
  /-- `FRED xd, xa` -/
  | fred (rd ra : RegNum)
  /-- `FINV xd, xa` -/
  | finv (rd ra : RegNum)
  /-- `BTST xa, idx` -/
  | btst (ra : RegNum) (idx : Nat)
  /-- `PADD Qd, Qa, Qb` -/
  | padd (qd qa qb : PointNum)
  /-- `PMUL Qd, xk, Qa` -/
  | pmul (qd : PointNum) (rk : RegNum) (qa : PointNum)
  /-- `PEQ Qa, Qb` -/
  | peq (qa qb : PointNum)
  /-- `LDB xd, Bs[off], w` -/
  | ldb (rd : RegNum) (b : Slot) (off w : Nat)
  /-- `STB xa, Bs[off], w` -/
  | stb (ra : RegNum) (b : Slot) (off w : Nat)
  /-- `TXF Bs` -/
  | txf (b : Slot)
  /-- `TXID` -/
  | txid
  /-- `RXF Bs` -/
  | rxf (b : Slot)
  /-- `RXID` -/
  | rxid
  /-- `TXACK` -/
  | txack
  /-- `RXACK` -/
  | rxack
  /-- `SENDCALL` -/
  | sendcall
  /-- `RECVCALL` -/
  | recvcall
  /-- `SINIT` -/
  | sinit
  deriving DecidableEq, Repr

end Sys2Proof
end

