-- ==== Sys2Proof/WellFormed.lean ====
section
/-! DEFINITION. Which command terms stand for a command word: the ranges of 30_encoding.md R93. -/

namespace Sys2Proof

/-- The operand ranges of R93: a bit index is 0..4095, a width 1..32, a byte offset 0..255; every register, point
and slot number fits its field by its type. -/
def Instr.wellFormed : Instr → Bool
  | .fadd _ _ _ => true
  | .fsub _ _ _ => true
  | .fmul _ _ _ => true
  | .fred _ _ => true
  | .finv _ _ => true
  | .btst _ idx => decide (idx ≤ 4095)
  | .padd _ _ _ => true
  | .pmul _ _ _ => true
  | .peq _ _ => true
  | .ldb _ _ off w => decide (off ≤ 255) && decide (1 ≤ w) && decide (w ≤ 32)
  | .stb _ _ off w => decide (off ≤ 255) && decide (1 ≤ w) && decide (w ≤ 32)
  | .txf _ => true
  | .txid => true
  | .rxf _ => true
  | .rxid => true
  | .txack => true
  | .rxack => true
  | .sendcall => true
  | .recvcall => true
  | .sinit => true

end Sys2Proof
end

