-- ==== Sys2Proof/Decode.lean ====
section
/-! DEFINITION. The command encoding (30_encoding.md Part A): the fields of a word, the decoder, the encoder, and
the table of R94 with its masks, which is a transcription of its own and not used by the decoder. -/

namespace Sys2Proof

/-- The `width` bits of a command word from bit `lo` up, unsigned (R91, R93). -/
def field (c : Word32) (lo width : Nat) : Nat := c.toNat / 2 ^ lo % 2 ^ width

/-- The register number in the 4-bit field at `lo` (R93). -/
def regAt (c : Word32) (lo : Nat) : RegNum := Fin.ofNat 16 (field c lo 4)

/-- The point number in the low 3 bits of the 4-bit field at `lo` (R93). -/
def pointAt (c : Word32) (lo : Nat) : PointNum := Fin.ofNat 8 (field c lo 3)

/-- The slot number in the 2-bit field at `lo` (R93). -/
def slotAt (c : Word32) (lo : Nat) : Slot := Fin.ofNat 4 (field c lo 2)

/-- Why a word is illegal, in the three cases R95 names. -/
inductive Illegal where
  /-- The opcode value is not in the table. -/
  | opcode
  /-- A point-number field has its top bit set. -/
  | pointField
  /-- A field the format does not use is not zero. -/
  | unusedBits
  deriving DecidableEq, Repr

/-- An unused field must be zero (R91, R95). -/
def needZero (v : Nat) (i : Instr) : Except Illegal Instr :=
  if v = 0 then .ok i else .error .unusedBits

/-- The top bit of every point-number field must be zero (R92, R95). -/
def needPoint (topBits : Nat) (r : Except Illegal Instr) : Except Illegal Instr :=
  if topBits = 0 then r else .error .pointField

/-- The decoder: the opcode selects the format of R92, whose must-be-zero bits are then checked. -/
def decode (c : Word32) : Except Illegal Instr :=
  match field c 24 8 with
  | 0x10 => needZero (field c 0 12) (.fadd (regAt c 20) (regAt c 16) (regAt c 12))
  | 0x11 => needZero (field c 0 12) (.fsub (regAt c 20) (regAt c 16) (regAt c 12))
  | 0x12 => needZero (field c 0 12) (.fmul (regAt c 20) (regAt c 16) (regAt c 12))
  | 0x13 => needZero (field c 0 16) (.fred (regAt c 20) (regAt c 16))
  | 0x14 => needZero (field c 0 16) (.finv (regAt c 20) (regAt c 16))
  | 0x18 => needZero (field c 20 4 + field c 12 4) (.btst (regAt c 16) (field c 0 12))
  | 0x20 => needPoint (field c 23 1 + field c 19 1 + field c 15 1)
      (needZero (field c 0 12) (.padd (pointAt c 20) (pointAt c 16) (pointAt c 12)))
  | 0x21 => needPoint (field c 23 1 + field c 15 1)
      (needZero (field c 0 12) (.pmul (pointAt c 20) (regAt c 16) (pointAt c 12)))
  | 0x22 => needPoint (field c 19 1 + field c 15 1)
      (needZero (field c 20 4 + field c 0 12) (.peq (pointAt c 16) (pointAt c 12)))
  | 0x30 => needZero (field c 16 4 + field c 13 1)
      (.ldb (regAt c 20) (slotAt c 14) (field c 0 8) (field c 8 5 + 1))
  | 0x31 => needZero (field c 20 4 + field c 13 1)
      (.stb (regAt c 16) (slotAt c 14) (field c 0 8) (field c 8 5 + 1))
  | 0x40 => needZero (field c 2 22) (.txf (slotAt c 0))
  | 0x41 => needZero (field c 0 24) .txid
  | 0x42 => needZero (field c 2 22) (.rxf (slotAt c 0))
  | 0x43 => needZero (field c 0 24) .rxid
  | 0x48 => needZero (field c 0 24) .txack
  | 0x49 => needZero (field c 0 24) .rxack
  | 0x50 => needZero (field c 0 24) .sendcall
  | 0x51 => needZero (field c 0 24) .recvcall
  | 0x7F => needZero (field c 0 24) .sinit
  | _ => .error .opcode

/-- The five fields of R91 side by side: `op`, `A`, `B`, `C`, `imm`. -/
def pack (op a b c imm : Nat) : Nat := op * 2 ^ 24 + a * 2 ^ 20 + b * 2 ^ 16 + c * 2 ^ 12 + imm

/-- Bits 15:0 of format `LS` (R92): slot, width minus one, offset. -/
def packLS (b : Slot) (off w : Nat) : Nat := b.val * 2 ^ 14 + (w - 1) * 2 ^ 8 + off

/-- The encoder: the word each command rule writes out (R121 to R126, R143, R145, R146, R161, R162, R171, R172,
R175, R177, R191, R193 to R195, R210). -/
def encodeNat : Instr → Nat
  | .fadd rd ra rb => pack 0x10 rd ra rb 0
  | .fsub rd ra rb => pack 0x11 rd ra rb 0
  | .fmul rd ra rb => pack 0x12 rd ra rb 0
  | .fred rd ra => pack 0x13 rd ra 0 0
  | .finv rd ra => pack 0x14 rd ra 0 0
  | .btst ra idx => pack 0x18 0 ra 0 idx
  | .padd qd qa qb => pack 0x20 qd qa qb 0
  | .pmul qd rk qa => pack 0x21 qd rk qa 0
  | .peq qa qb => pack 0x22 0 qa qb 0
  | .ldb rd b off w => pack 0x30 rd 0 0 (packLS b off w)
  | .stb ra b off w => pack 0x31 0 ra 0 (packLS b off w)
  | .txf b => pack 0x40 0 0 0 b
  | .txid => pack 0x41 0 0 0 0
  | .rxf b => pack 0x42 0 0 0 b
  | .rxid => pack 0x43 0 0 0 0
  | .txack => pack 0x48 0 0 0 0
  | .rxack => pack 0x49 0 0 0 0
  | .sendcall => pack 0x50 0 0 0 0
  | .recvcall => pack 0x51 0 0 0 0
  | .sinit => pack 0x7F 0 0 0 0

/-- The command word of a well-formed command. -/
def encode (i : Instr) : Word32 := BitVec.ofNat 32 (encodeNat i)

/-- A row of the opcode table (R94): a word `c` is the command iff `(c &&& mask) = pattern`. -/
structure Row where
  mnemonic : String
  pattern : Word32
  mask : Word32
  deriving DecidableEq, Repr

/-- The row of R94 for each command. -/
def rowOf : Instr → Row
  | .fadd _ _ _ => ⟨"FADD", 0x10000000, 0xFF000FFF⟩
  | .fsub _ _ _ => ⟨"FSUB", 0x11000000, 0xFF000FFF⟩
  | .fmul _ _ _ => ⟨"FMUL", 0x12000000, 0xFF000FFF⟩
  | .fred _ _ => ⟨"FRED", 0x13000000, 0xFF00FFFF⟩
  | .finv _ _ => ⟨"FINV", 0x14000000, 0xFF00FFFF⟩
  | .btst _ _ => ⟨"BTST", 0x18000000, 0xFFF0F000⟩
  | .padd _ _ _ => ⟨"PADD", 0x20000000, 0xFF888FFF⟩
  | .pmul _ _ _ => ⟨"PMUL", 0x21000000, 0xFF808FFF⟩
  | .peq _ _ => ⟨"PEQ", 0x22000000, 0xFFF88FFF⟩
  | .ldb _ _ _ _ => ⟨"LDB", 0x30000000, 0xFF0F2000⟩
  | .stb _ _ _ _ => ⟨"STB", 0x31000000, 0xFFF02000⟩
  | .txf _ => ⟨"TXF", 0x40000000, 0xFFFFFFFC⟩
  | .txid => ⟨"TXID", 0x41000000, 0xFFFFFFFF⟩
  | .rxf _ => ⟨"RXF", 0x42000000, 0xFFFFFFFC⟩
  | .rxid => ⟨"RXID", 0x43000000, 0xFFFFFFFF⟩
  | .txack => ⟨"TXACK", 0x48000000, 0xFFFFFFFF⟩
  | .rxack => ⟨"RXACK", 0x49000000, 0xFFFFFFFF⟩
  | .sendcall => ⟨"SENDCALL", 0x50000000, 0xFFFFFFFF⟩
  | .recvcall => ⟨"RECVCALL", 0x51000000, 0xFFFFFFFF⟩
  | .sinit => ⟨"SINIT", 0x7F000000, 0xFFFFFFFF⟩

/-- One command of each row, in the table's order. -/
def rowSamples : List Instr :=
  [.fadd 0 0 0, .fsub 0 0 0, .fmul 0 0 0, .fred 0 0, .finv 0 0, .btst 0 0, .padd 0 0 0, .pmul 0 0 0, .peq 0 0,
   .ldb 0 0 0 1, .stb 0 0 0 1, .txf 0, .txid, .rxf 0, .rxid, .txack, .rxack, .sendcall, .recvcall, .sinit]

/-- The opcode table of R94: twenty rows, in its order. -/
def opcodeTable : List Row := rowSamples.map rowOf

/-- Whether a word is the command of a row (R94). -/
def Row.matches (r : Row) (c : Word32) : Bool := (c &&& r.mask) == r.pattern

/-- The command the decoder reads from a word numbered as the opcode table numbers its bits. A command word is
presented whole and has no byte order (R90), so the number is the word (log 21). -/
def decodeTableWord (nbits w : Nat) : Option Instr :=
  if nbits ≤ 32 ∧ w < 2 ^ 32 then (decode (BitVec.ofNat 32 w)).toOption else none

end Sys2Proof
end

