-- ==== Sys2Proof/Config.lean ====
section
/-! DEFINITION. The parameters of 00_scope.md rule R8, and the values the model names where the spec leaves a
reset value open. -/

namespace Sys2Proof.Config

/-- The field prime (R8, R120). -/
def P : Nat := 2 ^ 256 - 2 ^ 224 + 2 ^ 192 + 2 ^ 96 - 1

/-- The byte repeated in the start marker `55 55 55 55` (R8, R100). -/
def startByte : Byte := 0x55

/-- The byte repeated in the stop marker `FF FF FF FF` (R8, R100). -/
def stopByte : Byte := 0xFF

/-- The number of bytes of either marker (R100). -/
def markerLen : Nat := 4

/-- The acknowledgment token `"ACK"` (R8, R101). -/
def ackToken : List Byte := [0x41, 0x43, 0x4B]

/-- The identifier's bytes on the wire, `IDLEN` (R8, R102). -/
def idLen : Nat := 4

/-- The one OPEN parameter (R8, R196): the length of the pacing delay. It has no body: no rule depends on it
(log 11). -/
opaque paceDelay : Nat

/-- DESIGN CHOICE, unsafe (log 1): what a general register holds at reset, where the spec fixes no value (R24). -/
def resetWord : Word := 0

/-- DESIGN CHOICE, unsafe (log 2): what a buffer byte that nothing has written reads as, where the spec fixes no
value (R40). -/
def resetByte : Byte := 0

end Sys2Proof.Config
end

