-- ==== Sys2Proof/Machine/State.lean ====
section
/-! DEFINITION. The state of the block (10_state.md), the inputs of the two agents it talks to (00_scope.md R15),
and the state after reset (10_state.md R50). -/

namespace Sys2Proof.Machine

open Sys2Proof

/-- A point: the value pair of a point register (10_state.md R21, 41_point.md R140). -/
structure Point where
  x : Word
  y : Word
  deriving DecidableEq, Repr

/-- The point at infinity is the pair `(0, 0)` (41_point.md R141). -/
def Point.infinity : Point := ⟨0, 0⟩

/-- The causes of 60_exceptions.md R251 (code 0, no error, is `none` of `Option Cause`). -/
inductive Cause where
  | transportError
  | framingError
  | protocolError
  | arithmeticError
  | illegalCommand
  | boundsError
  | rangeError
  | linkDown
  deriving DecidableEq, Repr

/-- `STATUS.LINK`: 0 is Open, 1 is Failed (10_state.md R33). -/
inductive Link where
  | opened
  | failed
  deriving DecidableEq, Repr

/-- The item of an envelope that a channel command is moving (10_state.md R45). -/
inductive Item where
  | ident
  | slot (b : Slot)
  deriving DecidableEq, Repr

/-- Where in its pseudocode a command is (10_state.md R45). -/
inductive Phase where
  | idle
  | hunt
  | payload
  | stop
  | txStart
  | txPayload
  | txStop
  | ackTx
  | ackRx
  | pace
  deriving DecidableEq, Repr

/-- The hidden register `FSM`: the phase and the item index (10_state.md R45). -/
structure Fsm where
  phase : Phase
  item : Item
  deriving DecidableEq, Repr

/-- `FSM` idle (10_state.md R45, R50). -/
def Fsm.rest : Fsm := ⟨.idle, .ident⟩

/-- The answers to one read attempt (20_memory.md R67). -/
inductive RxAnswer where
  | byte (b : Byte)
  | wouldBlock
  | closed
  | hardError
  deriving DecidableEq, Repr

/-- The answers to one write attempt (20_memory.md R68). -/
inductive TxAnswer where
  | accepted
  | wouldBlock
  | closed
  | hardError
  deriving DecidableEq, Repr

/-- What the host does in one turn (00_scope.md R15): present a command word (45_system.md R211), make a host-port
transaction (R212 to R215), assert reset (70_reset_and_hazards.md R280), let the block have the turn, or wait until
`BUSY = 0` (10_state.md R30). -/
inductive HostAction where
  | command (c : Word32)
  | readX (i : RegNum)
  | writeX (i : RegNum) (v : Word)
  | readBuf (b : Slot) (o : Byte)
  | writeBuf (b : Slot) (o : Byte) (v : Byte)
  | readCtl (n : Nat)
  | writeCtl (n : Nat) (v : Word32)
  | reset
  | wait
  | awaitIdle
  deriving DecidableEq, Repr

/-- The response to the host's last transaction (45_system.md R211 to R216), a field of the model's own (log 7). -/
inductive HostAnswer where
  /-- Nothing was asked yet. -/
  | none
  /-- A write took effect. -/
  | done
  /-- The error response of a refused transaction (R216). -/
  | refused
  /-- A command word was taken (accepted, or consumed as illegal). -/
  | taken
  /-- A command word was not taken because `BUSY = 1` (R211). -/
  | notTaken
  /-- The value of a register read. -/
  | word (v : Word)
  /-- The value of a buffer read. -/
  | byte (v : Byte)
  /-- The value of a control read. -/
  | ctl (v : Word32)
  deriving DecidableEq, Repr

/-- The portion buffers `BUF` (10_state.md R40): a list of cells in one canonical form, see `Memory.wf`. -/
abbrev Memory := List Host.Cell

/-- The block, and what the host and the channel have in store for it. -/
structure State where
  /-- `x[0..15]` (10_state.md R20). -/
  x : Vector Word 16
  /-- `STATUS.BUSY` (R31). -/
  busy : Bool
  /-- `STATUS.ERR` (R31). -/
  err : Bool
  /-- `STATUS.T` (R31). -/
  flagT : Bool
  /-- `STATUS.EQ` (R31). -/
  flagEq : Bool
  /-- `STATUS.LINK` (R31). -/
  link : Link
  /-- `ECAUSE` (R34). -/
  ecause : Option Cause
  /-- `ESTICKY` (R35). -/
  esticky : Word32
  /-- `FID` (R36). -/
  fid : Word32
  /-- `PLEN` (R37). -/
  plen : Word32
  /-- `BUF` (R40). -/
  buf : Memory
  /-- `WIN`, hidden (R45). -/
  win : Word32
  /-- `FSM`, hidden (R45). -/
  fsm : Fsm
  /-- `CNT`, hidden (R45). -/
  cnt : BitVec 9
  /-- `STG`, hidden (R45). -/
  stg : Word32
  /-- `ACC`, hidden (R45). -/
  acc : Point
  /-- `BITI`, hidden (R45). -/
  biti : BitVec 8
  /-- The command in flight (R50), latched when accepted (20_memory.md R78). -/
  inflight : Option Instr
  /-- What the RX port will answer, oldest first (20_memory.md R67; log 3). -/
  rx : List RxAnswer
  /-- What the TX port will answer, oldest first (20_memory.md R68; log 3). -/
  tx : List TxAnswer
  /-- The TX stream: the bytes accepted so far, oldest first (10_state.md R41). -/
  sent : List Byte
  /-- What the host will do, one entry a turn (00_scope.md R15; log 6). -/
  host : List HostAction
  /-- The response to the host's last transaction (log 7). -/
  answer : HostAnswer
  deriving DecidableEq, Repr

/-- The reasons a step could stop the machine. There is none: every error of the spec ends its command and leaves
the block idle (60_exceptions.md R254), and a wait is a hold (R265), so this type has no constructor (log 22). -/
inductive Fault where
  deriving DecidableEq, Repr

/-- The reasons the model could have no meaning for a command. -/
inductive Refusal where
  /-- Raised by an arm of `exec` whose command has no meaning yet; safe. No arm raises it. -/
  | notModelled (mnemonic : String)
  deriving DecidableEq, Repr

/-- The outcome of a step or of a command. -/
abbrev Result := Host.Outcome State Fault Refusal

/-- The state after reset (10_state.md R50): control and hidden state zero, `LINK` Open, no command in flight.
DESIGN CHOICE: registers and buffer bytes, which the spec leaves unspecified, are zero (logs 1, 2); the other two
agents, which reset does not touch, have nothing in store (logs 3, 6, 7). -/
def State.reset : State where
  x := Vector.replicate 16 Config.resetWord
  busy := false
  err := false
  flagT := false
  flagEq := false
  link := .opened
  ecause := none
  esticky := 0
  fid := 0
  plen := 0
  buf := []
  win := 0
  fsm := .rest
  cnt := 0
  stg := 0
  acc := .infinity
  biti := 0
  inflight := none
  rx := []
  tx := []
  sent := []
  host := []
  answer := .none

end Sys2Proof.Machine
end

