-- ==== Sys2Proof/Machine/Ops.lean ====
section
/-! DEFINITION. The named operations over the state: registers, the portion buffers, byte conversions, the two
channel ports, and the beginning and the two ends of a command, one of which is raising an error. -/

namespace Sys2Proof.Machine

open Sys2Proof

/-! ## Registers (10_state.md R20, R21) -/

/-- Read of register `i` (00_scope.md R12). -/
def State.getX (s : State) (i : RegNum) : Word := s.x[i]

/-- Write of register `i` (00_scope.md R12). -/
def State.setX (s : State) (i : RegNum) (v : Word) : State := { s with x := s.x.set i v }

/-- The even register of point register `q` (10_state.md R21). -/
def evenReg (q : PointNum) : RegNum := ⟨2 * q.val, by omega⟩

/-- The odd register of point register `q` (10_state.md R21). -/
def oddReg (q : PointNum) : RegNum := ⟨2 * q.val + 1, by omega⟩

/-- `Q[q]`, the pair `(x[2q], x[2q+1])` (10_state.md R21). -/
def State.getQ (s : State) (q : PointNum) : Point := ⟨s.getX (evenReg q), s.getX (oddReg q)⟩

/-- `Q[q] <- p` (00_scope.md R12). -/
def State.setQ (s : State) (q : PointNum) (p : Point) : State := (s.setX (evenReg q) p.x).setX (oddReg q) p.y

/-! ## Portion buffers (20_memory.md R61 to R63)

The canonical form: keys strictly rising, no cell equal to what an unlisted address reads as. -/

/-- Every key of the list is above `k`, rising, and no cell holds the unlisted byte. -/
def Memory.above : Nat → Memory → Bool
  | _, [] => true
  | k, (a, b) :: m => decide (k < a) && (b != Config.resetByte) && Memory.above a m

/-- The canonical form holds. -/
def Memory.wf : Memory → Bool
  | [] => true
  | (a, b) :: m => (b != Config.resetByte) && Memory.above a m

/-- The byte at a key; an unlisted one reads as `Config.resetByte` (log 2). -/
def Memory.read : Memory → Nat → Byte
  | [], _ => Config.resetByte
  | (k, b) :: m, a => if a = k then b else Memory.read m a

/-- Put a cell in front, unless it holds the unlisted byte. -/
def Memory.push (m : Memory) (a : Nat) (b : Byte) : Memory :=
  if b = Config.resetByte then m else (a, b) :: m

/-- Write the byte at a key, keeping the canonical form. -/
def Memory.write : Memory → Nat → Byte → Memory
  | [], a, b => Memory.push [] a b
  | (k, c) :: m, a, b =>
    if a < k then Memory.push ((k, c) :: m) a b
    else if a = k then Memory.push m a b
    else (k, c) :: Memory.write m a b

/-- The key of `BUF[b][o]` in the cell list: a numbering of the model's own, since slot `b + 1` does not follow
slot `b` (20_memory.md R61; log 13). -/
def bufKey (b : Slot) (o : Nat) : Nat := 256 * b.val + o

/-- A key stands for a byte that exists: offsets 0 to 254 of the four slots (20_memory.md R61). -/
def keyExists (k : Nat) : Bool := decide (k < 1024) && decide (k % 256 ≤ 254)

/-- `PLEN[b]`, bits `8b+7:8b` of the register `PLEN` (10_state.md R37). -/
def State.plenAt (s : State) (b : Slot) : Nat := (s.plen.extractLsb' (8 * b.val) 8).toNat

/-- Read of `BUF[b][o]` (00_scope.md R12). -/
def State.bufByte (s : State) (b : Slot) (o : Nat) : Byte := Memory.read s.buf (bufKey b o)

/-- `BUF[b][o] <- v`. -/
def State.setBufByte (s : State) (b : Slot) (o : Nat) (v : Byte) : State :=
  { s with buf := Memory.write s.buf (bufKey b o) v }

/-- An access of `w` bytes at `(b, o)` is in range (20_memory.md R62). -/
def State.inRange (s : State) (b : Slot) (o w : Nat) : Bool := decide (o + w ≤ s.plenAt b)

/-- `MemRead(b, o, w)` (20_memory.md R63). -/
def State.memRead (s : State) (b : Slot) (o w : Nat) : List Byte :=
  (List.range w).map fun i => s.bufByte b (o + i)

/-- `MemWrite(b, o, w, bytes)`, `w` the length of `bytes` (20_memory.md R63). -/
def State.memWrite (s : State) (b : Slot) (o : Nat) : List Byte → State
  | [] => s
  | v :: vs => State.memWrite (s.setBufByte b o v) b (o + 1) vs

/-! ## Byte conversions (00_scope.md R11) -/

/-- `be(v, w)`: the `w` bytes of `v`, most significant first (R11). -/
def be (v w : Nat) : List Byte := (List.range w).map fun i => BitVec.ofNat 8 (v / 256 ^ (w - 1 - i))

/-- `int_be(bytes)`: the first byte is the most significant; 0 for the empty sequence (R11). -/
def intBE (bytes : List Byte) : Nat := bytes.foldl (fun v b => 256 * v + b.toNat) 0

/-- Byte `j` of a 32-bit word, byte 0 the most significant: bits `31-8j:24-8j` (10_state.md R36). -/
def byteOf (v : Word32) (j : Nat) : Byte := v.extractLsb' (24 - 8 * j) 8

/-- Replace byte `j` of a 32-bit word, bits `31-8j:24-8j` (43_frame.md R177). -/
def setByteOf (v : Word32) (j : Nat) (b : Byte) : Word32 :=
  (v &&& ~~~((0xFF : Word32) <<< (24 - 8 * j))) ||| (b.setWidth 32 <<< (24 - 8 * j))

/-- Insert a byte into a 32-bit shift register, the newest in bits 7:0 (10_state.md R45, 43_frame.md R173). -/
def shiftIn (v : Word32) (b : Byte) : Word32 := (v <<< 8) ||| b.setWidth 32

/-! ## The channel ports (20_memory.md R67, R68) -/

/-- `ChanRead()`: the next answer of the RX port (R67). A port with no answer in store has nothing to deliver yet:
`WouldBlock` (log 3). -/
def chanRead (s : State) : RxAnswer × State :=
  match s.rx with
  | [] => (.wouldBlock, s)
  | a :: rest => (a, { s with rx := rest })

/-- `ChanWrite(b)`: the next answer of the TX port; on `Accepted` the byte is appended to the TX stream (R68). A
port with no answer in store takes nothing yet: `WouldBlock` (log 3). -/
def chanWrite (b : Byte) (s : State) : TxAnswer × State :=
  match s.tx with
  | [] => (.wouldBlock, s)
  | .accepted :: rest => (.accepted, { s with tx := rest, sent := s.sent ++ [b] })
  | a :: rest => (a, { s with tx := rest })

/-! ## The beginning and the ends of a command -/

/-- The cause code (60_exceptions.md R251). -/
def Cause.code : Cause → Nat
  | .transportError => 1
  | .framingError => 2
  | .protocolError => 3
  | .arithmeticError => 4
  | .illegalCommand => 5
  | .boundsError => 6
  | .rangeError => 7
  | .linkDown => 8

/-- The bit of `ESTICKY` that a cause sets (10_state.md R35). -/
def Cause.bit (c : Cause) : Word32 := 1#32 <<< c.code

/-- The causes that abort the session: Transport, Framing and Protocol errors (60_exceptions.md R254, R260). -/
def Cause.aborts : Cause → Bool
  | .transportError => true
  | .framingError => true
  | .protocolError => true
  | .arithmeticError => false
  | .illegalCommand => false
  | .boundsError => false
  | .rangeError => false
  | .linkDown => false

/-- Acceptance of a command: `BUSY <- 1`, `ERR <- 0`, `ECAUSE <- 0`, and the command is latched (45_system.md R211,
20_memory.md R78). It is also the nearest thing to a return from an error (60_exceptions.md R257). -/
def accept (i : Instr) (s : State) : State :=
  { s with busy := true, err := false, ecause := none, inflight := some i }

/-- What every end of a command does to the hidden state and to `BUSY`: `FSM`, `CNT`, `STG`, `ACC` and `BITI` do
not outlive the command, `WIN` is cleared at the next reception (10_state.md R45, 60_exceptions.md R254; log 8). -/
def endCommand (s : State) : State :=
  { s with busy := false, fsm := .rest, cnt := 0, stg := 0, acc := .infinity, biti := 0, inflight := none }

/-- Completion without error: `BUSY <- 0` (45_system.md R211). -/
def finish (s : State) : State := endCommand s

/-- `raise c`, the entry sequence of an error (60_exceptions.md R254). -/
def raise (c : Cause) (s : State) : State :=
  endCommand { s with
    ecause := some c
    esticky := s.esticky ||| c.bit
    err := true
    link := if c.aborts then .failed else s.link }

/-- An illegal word presented while idle is consumed without being executed (45_system.md R217). -/
def illegalWord (s : State) : State := raise .illegalCommand s

/-- `Pace()`: it has no effect on any state, whatever the length of the delay (44_ack_sequencer.md R196; log 11). -/
def pace (_delay : Nat) (s : State) : State := s

end Sys2Proof.Machine
end

