-- ==== Sys2Proof/Machine/Operands.lean ====
section
/-! DEFINITION. What a command reads and where its result goes: register and point results, the integer a load
gives, the bytes a frame carries and the place a received byte goes. -/

namespace Sys2Proof.Machine

open Sys2Proof

/-- A command that ends with a register result or an arithmetic error (00_scope.md R13): the register is written
only on success. -/
def writeReg (rd : RegNum) (r : Except Cause Word) (s : State) : State :=
  match r with
  | .ok v => finish (s.setX rd v)
  | .error c => raise c s

/-- The same for a point result (00_scope.md R13). -/
def writePoint (qd : PointNum) (r : Except Cause Point) (s : State) : State :=
  match r with
  | .ok p => finish (s.setQ qd p)
  | .error c => raise c s

/-- The value a load of these bytes puts into a register: `zext_256(int_be(bytes))` (42_loadstore.md R161). -/
def loadValue (bytes : List Byte) : Word := BitVec.ofNat 256 (intBE bytes)

/-- `be(FID, 4)`, the payload of an identifier frame (30_encoding.md R102). -/
def State.identBytes (s : State) : List Byte := be s.fid.toNat Config.idLen

/-- The bytes `BUF[b][0..PLEN[b]-1]` of a portion (30_encoding.md R104). -/
def State.portion (s : State) (b : Slot) : List Byte := s.memRead b 0 (s.plenAt b)

/-- A portion is present: its length is above 0 (10_state.md R37). -/
def State.present (s : State) (b : Slot) : Bool := decide (0 < s.plenAt b)

/-- The number of payload bytes of an item: 4 for the identifier (30_encoding.md R102), `PLEN[b]` for a slot
(43_frame.md R171, R175). -/
def State.itemLen (s : State) : Item → Nat
  | .ident => Config.idLen
  | .slot b => s.plenAt b

/-- Payload byte `j` of an item to send (43_frame.md R171, R172). -/
def State.itemByte (s : State) (it : Item) (j : Nat) : Byte :=
  match it with
  | .ident => byteOf s.fid j
  | .slot b => s.bufByte b j

/-- The sink of a reception: byte `j` of the payload goes to `BUF[b][j]`, or to `FID` from the top
(43_frame.md R175, R177). -/
def State.sinkByte (s : State) (it : Item) (j : Nat) (v : Byte) : State :=
  match it with
  | .ident => { s with fid := setByteOf s.fid j v }
  | .slot b => s.setBufByte b j v

/-- The slots after an item in the order of an envelope: identifier, then slots 0, 1, 2, 3
(44_ack_sequencer.md R194). -/
def slotsAfter : Item → List Slot
  | .ident => [0, 1, 2, 3]
  | .slot b => [0, 1, 2, 3].filter fun c => decide (b < c)

/-- The next present portion of the envelope (44_ack_sequencer.md R194, R195). -/
def State.nextPresent (s : State) (it : Item) : Option Slot := (slotsAfter it).find? s.present

end Sys2Proof.Machine
end

