-- ==== Sys2Proof/Machine/Channel.lean ====
section
/-! DEFINITION. The engine of the eight channel commands: `blockEvent` is one channel attempt of the command in
flight, at the place of its pseudocode that the hidden state names (43_frame.md R181, 10_state.md R45); `runBlock`
goes on until the command has ended or the channel answers `WouldBlock`. -/

namespace Sys2Proof.Machine

open Sys2Proof

/-- What one channel attempt came to. -/
inductive Event where
  /-- The command went on (or ended). -/
  | went (s : State)
  /-- The channel answered `WouldBlock`: a hold (20_memory.md R69, R70; 60_exceptions.md R265). -/
  | holds (s : State)
  deriving DecidableEq, Repr

/-! ## Entering a part of the pseudocode -/

/-- Put `FSM` at a phase of the current item, with nothing of it done. -/
def State.toPhase (s : State) (p : Phase) : State := { s with fsm := ⟨p, s.fsm.item⟩, cnt := 0 }

/-- Begin `SendFrame` of an item (43_frame.md R170). -/
def enterSend (it : Item) (s : State) : State := { s with fsm := ⟨.txStart, it⟩, cnt := 0 }

/-- Begin `ReceiveFrame` of an item, with `WIN <- 0` (43_frame.md R173). -/
def enterReceive (it : Item) (s : State) : State := { s with fsm := ⟨.hunt, it⟩, cnt := 0, win := 0 }

/-- Begin `SendAck` (44_ack_sequencer.md R190). -/
def enterAckTx (s : State) : State := s.toPhase .ackTx

/-- Begin `WaitForAck` (44_ack_sequencer.md R192). -/
def enterAckRx (s : State) : State := { s.toPhase .ackRx with stg := 0 }

/-- The start marker is sent: the payload, or the stop marker if it is empty (43_frame.md R170). -/
def enterTxPayload (s : State) : State :=
  if s.itemLen s.fsm.item = 0 then s.toPhase .txStop else s.toPhase .txPayload

/-- The payload is sent: the stop marker (43_frame.md R170). -/
def enterTxStop (s : State) : State := s.toPhase .txStop

/-- The payload has arrived: four bytes for the stop test (43_frame.md R173). -/
def enterStop (s : State) : State := { s.toPhase .stop with stg := 0 }

/-- The start marker was seen: the payload, or the stop test if it is empty (43_frame.md R173). -/
def enterPayload (s : State) : State :=
  if s.itemLen s.fsm.item = 0 then enterStop s else s.toPhase .payload

/-- The next item of an envelope, or the end of the command (44_ack_sequencer.md R194, R195). -/
def nextItem (enter : Item → State → State) (s : State) : State :=
  match s.nextPresent s.fsm.item with
  | some b => enter (.slot b) s
  | none => finish s

/-- A frame is sent: `SENDCALL` goes on with `Pace()` and the acknowledgment, any other command is done
(44_ack_sequencer.md R194, 43_frame.md R171, R172). -/
def afterFrameSent (s : State) : State :=
  if s.inflight = some .sendcall then s.toPhase .pace else finish s

/-- The awaited token came: `SENDCALL` goes on with the next item, `RXACK` is done (44_ack_sequencer.md R193,
R194). -/
def afterTokenReceived (s : State) : State :=
  if s.inflight = some .sendcall then nextItem enterSend s else finish s

/-- A frame is received: `RECVCALL` goes on with the acknowledgment, any other command is done
(44_ack_sequencer.md R195, 43_frame.md R175, R177). -/
def afterFrameReceived (s : State) : State :=
  if s.inflight = some .recvcall then enterAckTx s else finish s

/-- The token is sent: `RECVCALL` goes on with the next item, `TXACK` is done (44_ack_sequencer.md R191, R195). -/
def afterTokenSent (s : State) : State :=
  if s.inflight = some .recvcall then nextItem enterReceive s else finish s

/-! ## One attempt -/

/-- One more byte of a marker, payload or token of `n` bytes is done. -/
def countByte (n : Nat) (next : State → State) (s : State) : State :=
  if n ≤ s.cnt.toNat + 1 then next s else { s with cnt := s.cnt + 1 }

/-- One attempt of `TxByte(b)`, and what follows when the byte is accepted (20_memory.md R70). -/
def sendByte (b : Byte) (k : State → State) (s : State) : Event :=
  match chanWrite b s with
  | (.accepted, t) => .went (k t)
  | (.wouldBlock, t) => .holds t
  | (.closed, t) => .went (raise .transportError t)
  | (.hardError, t) => .went (raise .transportError t)

/-- One attempt of `RxByte()`, and what follows when a byte comes (20_memory.md R69). `ChanError` is always a
TransportError; `ChanClosed` is mapped by the caller (43_frame.md R178, 44_ack_sequencer.md R192). -/
def receiveByte (onClosed : Cause) (k : Byte → State → State) (s : State) : Event :=
  match chanRead s with
  | (.byte b, t) => .went (k b t)
  | (.wouldBlock, t) => .holds t
  | (.closed, t) => .went (raise onClosed t)
  | (.hardError, t) => .went (raise .transportError t)

/-- The hunt: shift the byte into `WIN`; framing begins when it equals the start marker (43_frame.md R173). -/
def huntByte (b : Byte) (s : State) : State :=
  let t := { s with win := shiftIn s.win b }
  if t.win = 0x55555555 then enterPayload t else t

/-- A payload byte is stored at once (43_frame.md R173, R176). -/
def payloadByte (b : Byte) (s : State) : State :=
  countByte (s.itemLen s.fsm.item) enterStop (s.sinkByte s.fsm.item s.cnt.toNat b)

/-- Four bytes are read, then compared with the stop marker (43_frame.md R173). -/
def stopTest (s : State) : State :=
  if s.stg = 0xFFFFFFFF then afterFrameReceived s else raise .framingError s

/-- A byte of the stop marker goes to `STG` (43_frame.md R173). -/
def stopByte (b : Byte) (s : State) : State :=
  countByte Config.markerLen stopTest { s with stg := shiftIn s.stg b }

/-- Three bytes are read, then compared with the token (44_ack_sequencer.md R192). -/
def tokenTest (s : State) : State :=
  if s.stg = 0x0041434B then afterTokenReceived s else raise .protocolError s

/-- A byte of the token goes to `STG` (44_ack_sequencer.md R192). -/
def tokenByte (b : Byte) (s : State) : State :=
  countByte Config.ackToken.length tokenTest { s with stg := shiftIn s.stg b }

/-- One step of the command in flight (43_frame.md R181). `Pace()` is a place the command passes without an
attempt (44_ack_sequencer.md R196). -/
def blockEvent (s : State) : Event :=
  match s.fsm.phase with
  | .idle => .holds s
  | .hunt => receiveByte .framingError huntByte s
  | .payload => receiveByte .framingError payloadByte s
  | .stop => receiveByte .framingError stopByte s
  | .txStart => sendByte Config.startByte (countByte Config.markerLen enterTxPayload) s
  | .txPayload =>
    sendByte (s.itemByte s.fsm.item s.cnt.toNat) (countByte (s.itemLen s.fsm.item) enterTxStop) s
  | .txStop => sendByte Config.stopByte (countByte Config.markerLen afterFrameSent) s
  | .ackTx =>
    sendByte (Config.ackToken.getD s.cnt.toNat 0) (countByte Config.ackToken.length afterTokenSent) s
  | .ackRx => receiveByte .transportError tokenByte s
  | .pace => .went (enterAckRx (pace Config.paceDelay s))

/-- Go on until the command has ended or the channel answers `WouldBlock`; the number bounds the events. -/
def runBlock : Nat → State → State
  | 0, s => s
  | n + 1, s =>
    if s.busy then
      match blockEvent s with
      | .went t => runBlock n t
      | .holds t => t
    else s

/-- More events than the answers in store allow: every event but `Pace()` uses up an answer (log 4). -/
def budget (s : State) : Nat := 2 * (s.rx.length + s.tx.length) + 2

/-- The block's turn: the command in flight goes on; an idle block does nothing (10_state.md R30). -/
def resume (s : State) : State := if s.busy then runBlock (budget s) s else s

/-- A channel command: acceptance, the link gate before anything else (43_frame.md R179), then its events. -/
def channelCommand (i : Instr) (enter : State → State) (s : State) : State :=
  let s' := accept i s
  if s.link = .failed then raise .linkDown s' else resume (enter s')

end Sys2Proof.Machine
end

