-- ==== Sys2Proof/Machine/Ack.lean ====
section
/-! DEFINITION. The acknowledgment handshake sequencer's commands (44_ack_sequencer.md). -/

namespace Sys2Proof.Machine

open Sys2Proof

/-- `TXACK` (44_ack_sequencer.md R191). -/
def execTxack (s : State) : Result := .next (channelCommand .txack enterAckTx s)

/-- `RXACK` (44_ack_sequencer.md R193). -/
def execRxack (s : State) : Result := .next (channelCommand .rxack enterAckRx s)

/-- `SENDCALL` (44_ack_sequencer.md R194). -/
def execSendcall (s : State) : Result := .next (channelCommand .sendcall (enterSend .ident) s)

/-- `RECVCALL` (44_ack_sequencer.md R195). -/
def execRecvcall (s : State) : Result := .next (channelCommand .recvcall (enterReceive .ident) s)

end Sys2Proof.Machine
end

