-- ==== Sys2Proof/Machine/Flags.lean ====
section
/-! DEFINITION. The flags of `STATUS` (10_state.md R31): the two that a command computes, and the words the host
reads from control registers 0 and 1. -/

namespace Sys2Proof.Machine

open Sys2Proof

/-- `testBit`: bit `idx` of a register, 0 for every index of 256 and above (40_field.md R126). -/
def testBit (v : Word) (idx : Nat) : Bool := if 256 ≤ idx then false else v.getLsbD idx

/-- `pointsEqual`: raw comparison of both coordinates (41_point.md R146). -/
def pointsEqual (a b : Point) : Bool := decide (a.x = b.x) && decide (a.y = b.y)

/-- `T <- v`, by `BTST` only (10_state.md R31). -/
def State.setT (s : State) (v : Bool) : State := { s with flagT := v }

/-- `EQ <- v`, by `PEQ` only (10_state.md R31). -/
def State.setEq (s : State) (v : Bool) : State := { s with flagEq := v }

/-- One flag at its bit of `STATUS`. -/
def flagBit (v : Bool) (n : Nat) : Word32 := if v then 1#32 <<< n else 0#32

/-- `STATUS`: `BUSY`, `ERR`, `T`, `EQ`, `LINK` at bits 0 to 4, the rest 0 (10_state.md R33). -/
def State.statusWord (s : State) : Word32 :=
  flagBit s.busy 0 ||| flagBit s.err 1 ||| flagBit s.flagT 2 ||| flagBit s.flagEq 3
    ||| flagBit (decide (s.link = .failed)) 4

/-- `ECAUSE`: the cause code in bits 3:0, 0 for no error, the rest 0 (10_state.md R34). -/
def State.ecauseWord (s : State) : Word32 :=
  match s.ecause with
  | none => 0
  | some c => BitVec.ofNat 32 c.code

end Sys2Proof.Machine
end

