-- ==== Sys2Proof/Machine/Field.lean ====
section
/-! DEFINITION. The field arithmetic unit (40_field.md): exact integer arithmetic, reduced modulo `P` once at the
end (R120, R127), and the bit test. -/

namespace Sys2Proof.Machine

open Sys2Proof

/-- `v mod P`, the representative in `[0, P)`, also for a negative `v` (00_scope.md R10). -/
def modP (v : Int) : Word := BitVec.ofNat 256 (v % (Config.P : Int)).toNat

/-- A register value as an exact integer (00_scope.md R9). -/
def intOf (v : Word) : Int := (v.toNat : Int)

/-- `(a + b) mod P` (40_field.md R121). -/
def fieldAdd (a b : Word) : Word := modP (intOf a + intOf b)

/-- `(a - b) mod P`, floor-mod (40_field.md R122). -/
def fieldSub (a b : Word) : Word := modP (intOf a - intOf b)

/-- `(a * b) mod P`, the full product reduced (40_field.md R123). -/
def fieldMul (a b : Word) : Word := modP (intOf a * intOf b)

/-- `a mod P` (40_field.md R124). -/
def fieldRed (a : Word) : Word := modP (intOf a)

/-- `acc ^ (2 ^ n) * b ^ (e mod 2 ^ n) mod m`: square and multiply over the low `n` bits of `e`, highest first. -/
def powMod (m b e : Nat) : Nat → Nat → Nat
  | 0, acc => acc
  | n + 1, acc =>
    match (if e.testBit n then acc * acc % m * b % m else acc * acc % m) with
    | 0 => 0
    | k + 1 => powMod m b e n (k + 1)

/-- `inv(v)` (00_scope.md R10) as `v ^ (P - 2) mod P`; the method is free (40_field.md R128; log 15). -/
def inv (v : Word) : Word := BitVec.ofNat 256 (powMod Config.P (v.toNat % Config.P) (Config.P - 2) 256 1)

/-- The modular inverse, undefined exactly when `v mod P = 0` (40_field.md R125). -/
def fieldInv (v : Word) : Except Cause Word :=
  if v.toNat % Config.P = 0 then .error .arithmeticError else .ok (inv v)

/-- `FADD` (40_field.md R121). -/
def execFadd (rd ra rb : RegNum) (s : State) : Result :=
  .next (writeReg rd (.ok (fieldAdd (s.getX ra) (s.getX rb))) (accept (.fadd rd ra rb) s))

/-- `FSUB` (40_field.md R122). -/
def execFsub (rd ra rb : RegNum) (s : State) : Result :=
  .next (writeReg rd (.ok (fieldSub (s.getX ra) (s.getX rb))) (accept (.fsub rd ra rb) s))

/-- `FMUL` (40_field.md R123). -/
def execFmul (rd ra rb : RegNum) (s : State) : Result :=
  .next (writeReg rd (.ok (fieldMul (s.getX ra) (s.getX rb))) (accept (.fmul rd ra rb) s))

/-- `FRED` (40_field.md R124). -/
def execFred (rd ra : RegNum) (s : State) : Result :=
  .next (writeReg rd (.ok (fieldRed (s.getX ra))) (accept (.fred rd ra) s))

/-- `FINV` (40_field.md R125). -/
def execFinv (rd ra : RegNum) (s : State) : Result :=
  .next (writeReg rd (fieldInv (s.getX ra)) (accept (.finv rd ra) s))

/-- `BTST` (40_field.md R126). -/
def execBtst (ra : RegNum) (idx : Nat) (s : State) : Result :=
  .next (finish ((accept (.btst ra idx) s).setT (testBit (s.getX ra) idx)))

end Sys2Proof.Machine
end

