-- ==== Sys2Proof/Machine/Frame.lean ====
section
/-! DEFINITION. The frame synchroniser unit's commands (43_frame.md). -/

namespace Sys2Proof.Machine

open Sys2Proof

/-- `TXF` (43_frame.md R171). -/
def execTxf (b : Slot) (s : State) : Result := .next (channelCommand (.txf b) (enterSend (.slot b)) s)

/-- `TXID` (43_frame.md R172). -/
def execTxid (s : State) : Result := .next (channelCommand .txid (enterSend .ident) s)

/-- `RXF` (43_frame.md R175). -/
def execRxf (b : Slot) (s : State) : Result := .next (channelCommand (.rxf b) (enterReceive (.slot b)) s)

/-- `RXID` (43_frame.md R177). -/
def execRxid (s : State) : Result := .next (channelCommand .rxid (enterReceive .ident) s)

end Sys2Proof.Machine
end

