-- ==== Sys2Proof/Machine/LoadStore.lean ====
section
/-! DEFINITION. Buffer loads and stores (42_loadstore.md). -/

namespace Sys2Proof.Machine

open Sys2Proof

/-- `LDB` (42_loadstore.md R160, R161). -/
def execLdb (rd : RegNum) (b : Slot) (off w : Nat) (s : State) : Result :=
  let s' := accept (.ldb rd b off w) s
  if s.inRange b off w then .next (writeReg rd (.ok (loadValue (s.memRead b off w))) s')
  else .next (raise .boundsError s')

/-- `STB` (42_loadstore.md R160, R162): the bounds test comes before the range test. -/
def execStb (ra : RegNum) (b : Slot) (off w : Nat) (s : State) : Result :=
  let s' := accept (.stb ra b off w) s
  if s.inRange b off w then
    if 2 ^ (8 * w) ≤ (s.getX ra).toNat then .next (raise .rangeError s')
    else .next (finish (s'.memWrite b off (be (s.getX ra).toNat w)))
  else .next (raise .boundsError s')

end Sys2Proof.Machine
end

