-- ==== Sys2Proof/Machine/PointUnit.lean ====
section
/-! DEFINITION. The point arithmetic unit (41_point.md): `PointAdd`, `PointScalarMul`, point equality. -/

namespace Sys2Proof.Machine

open Sys2Proof

/-- The numerator of the doubling slope, `3 * xa * xa - 3` (41_point.md R142 step 3). -/
def doubleNum (a : Point) : Word := modP (3 * intOf a.x * intOf a.x - 3)

/-- The denominator of the doubling slope, `2 * ya` (41_point.md R142 step 3). -/
def doubleDen (a : Point) : Word := modP (2 * intOf a.y)

/-- Steps 4 to 8 of `PointAdd` (41_point.md R142): divide, and compute the third point. -/
def chord (num den : Word) (a b : Point) : Except Cause Point :=
  if den = 0 then .error .arithmeticError
  else
    let lam := modP (intOf num * intOf (inv den))
    let xr := modP (intOf lam * intOf lam - intOf a.x - intOf b.x)
    let yr := modP (intOf lam * (intOf a.x - intOf xr) - intOf a.y)
    .ok ⟨xr, yr⟩

/-- `PointAdd(a, b)`, its tests in the order of 41_point.md R142, on raw 256-bit values (R141). -/
def pointAdd (a b : Point) : Except Cause Point :=
  if a = .infinity then .ok b
  else if b = .infinity then .ok a
  else if a.x = b.x then
    if a.y = b.y then chord (doubleNum a) (doubleDen a) a b else .ok .infinity
  else chord (modP (intOf b.y - intOf a.y)) (modP (intOf b.x - intOf a.x)) a b

/-- `bitlen(k)` (00_scope.md R10). -/
def bitlen (k : Word) : Nat := Nat.size k.toNat

/-- The loop body of `PointScalarMul` for bit `i` (41_point.md R144): double unless this is the highest bit, then
add the point if the bit is set. -/
def mulBit (k : Word) (pt : Point) (i : Nat) (acc : Point) : Except Cause Point :=
  match (if i + 1 = bitlen k then .ok acc else pointAdd acc acc) with
  | .error c => .error c
  | .ok a => if k.getLsbD i then pointAdd a pt else .ok a

/-- The loop of `PointScalarMul` over bits `i - 1` down to 0. -/
def mulBits (k : Word) (pt : Point) : Nat → Point → Except Cause Point
  | 0, acc => .ok acc
  | i + 1, acc =>
    match mulBit k pt i acc with
    | .error c => .error c
    | .ok a => mulBits k pt i a

/-- `PointScalarMul(k, pt)` (41_point.md R144); the scalar is used as it stands (R149). -/
def pointScalarMul (k : Word) (pt : Point) : Except Cause Point :=
  if k = 0 then .ok .infinity else mulBits k pt (bitlen k) .infinity

/-- The same loop on the hidden registers: `BITI` names the bit, `ACC` is the accumulator (10_state.md R45). -/
def scanBits (k : Word) (pt : Point) : Nat → State → Except Cause State
  | 0, s => .ok s
  | i + 1, s =>
    let s := { s with biti := BitVec.ofNat 8 i }
    match mulBit k pt i s.acc with
    | .error c => .error c
    | .ok a => scanBits k pt i { s with acc := a }

/-- `PADD` (41_point.md R143). -/
def execPadd (qd qa qb : PointNum) (s : State) : Result :=
  .next (writePoint qd (pointAdd (s.getQ qa) (s.getQ qb)) (accept (.padd qd qa qb) s))

/-- `PMUL` (41_point.md R145): the scan starts with `ACC` at infinity; its end writes `Q[qd]`, its error discards
the accumulator. -/
def execPmul (qd : PointNum) (rk : RegNum) (qa : PointNum) (s : State) : Result :=
  let s' := accept (.pmul qd rk qa) s
  match scanBits (s.getX rk) (s.getQ qa) (bitlen (s.getX rk)) { s' with acc := .infinity } with
  | .error c => .next (raise c s')
  | .ok t => .next (writePoint qd (.ok t.acc) t)

/-- `PEQ` (41_point.md R146). -/
def execPeq (qa qb : PointNum) (s : State) : Result :=
  .next (finish ((accept (.peq qa qb) s).setEq (pointsEqual (s.getQ qa) (s.getQ qb))))

end Sys2Proof.Machine
end

