-- ==== Sys2Proof/Machine/System.lean ====
section
/-! DEFINITION. The system command, the host port, the reset input and the host's turns (45_system.md,
70_reset_and_hazards.md R280). -/

namespace Sys2Proof.Machine

open Sys2Proof

/-- `SINIT` (45_system.md R210). -/
def execSinit (s : State) : Result :=
  .next (finish { accept .sinit s with link := .opened, esticky := 0, win := 0, cnt := 0, stg := 0 })

/-- The host gets a response; nothing else changes. -/
def State.answered (s : State) (a : HostAnswer) : State := { s with answer := a }

/-- A data transaction is refused while `BUSY = 1`, or when it is out of range (45_system.md R212 to R216). -/
def gated (ok : Bool) (effect : State → State) (s : State) : State :=
  if !s.busy && ok then effect s else s.answered .refused

/-- `HostReadX(i)` (45_system.md R212). -/
def hostReadX (i : RegNum) (s : State) : State := gated true (fun t => t.answered (.word (t.getX i))) s

/-- `HostWriteX(i, v)` (45_system.md R213). -/
def hostWriteX (i : RegNum) (v : Word) (s : State) : State := gated true (fun t => (t.setX i v).answered .done) s

/-- `HostReadBuf(b, o)` (45_system.md R214). -/
def hostReadBuf (b : Slot) (o : Byte) (s : State) : State :=
  gated (s.inRange b o.toNat 1) (fun t => t.answered (.byte (t.bufByte b o.toNat))) s

/-- `HostWriteBuf(b, o, v)` (45_system.md R214). -/
def hostWriteBuf (b : Slot) (o v : Byte) (s : State) : State :=
  gated (s.inRange b o.toNat 1) (fun t => (t.setBufByte b o.toNat v).answered .done) s

/-- `HostReadCtl(n)` (45_system.md R215, rights of 10_state.md R38). -/
def hostReadCtl (n : Nat) (s : State) : State :=
  match n with
  | 0 => s.answered (.ctl s.statusWord)
  | 1 => s.answered (.ctl s.ecauseWord)
  | 2 => s.answered (.ctl s.esticky)
  | 3 => gated true (fun t => t.answered (.ctl t.fid)) s
  | 4 => gated true (fun t => t.answered (.ctl t.plen)) s
  | _ => s.answered .refused

/-- `HostWriteCtl(n, v)` (45_system.md R215, rights of 10_state.md R38). -/
def hostWriteCtl (n : Nat) (v : Word32) (s : State) : State :=
  match n with
  | 3 => gated true (fun t => { t with fid := v }.answered .done) s
  | 4 => gated true (fun t => { t with plen := v }.answered .done) s
  | _ => s.answered .refused

/-- The reset input: the reset state, whatever is in flight; the channel and the host are not touched
(70_reset_and_hazards.md R280; log 12). -/
def resetInput (s : State) : State :=
  { State.reset with rx := s.rx, tx := s.tx, sent := s.sent, host := s.host, answer := s.answer }

end Sys2Proof.Machine
end

