-- ==== Sys2Proof/Machine/Dispatch.lean ====
section
/-! DEFINITION. One arm for each command: the meaning of an accepted command word. -/

namespace Sys2Proof.Machine

open Sys2Proof

def exec (i : Instr) (s : State) : Host.Outcome State Fault Refusal :=
  match i with
  | .fadd rd ra rb => Sys2Proof.Machine.execFadd rd ra rb s
  | .fsub rd ra rb => Sys2Proof.Machine.execFsub rd ra rb s
  | .fmul rd ra rb => Sys2Proof.Machine.execFmul rd ra rb s
  | .fred rd ra => Sys2Proof.Machine.execFred rd ra s
  | .finv rd ra => Sys2Proof.Machine.execFinv rd ra s
  | .btst ra idx => Sys2Proof.Machine.execBtst ra idx s
  | .padd qd qa qb => Sys2Proof.Machine.execPadd qd qa qb s
  | .pmul qd rk qa => Sys2Proof.Machine.execPmul qd rk qa s
  | .peq qa qb => Sys2Proof.Machine.execPeq qa qb s
  | .ldb rd b off w => Sys2Proof.Machine.execLdb rd b off w s
  | .stb ra b off w => Sys2Proof.Machine.execStb ra b off w s
  | .txf b => Sys2Proof.Machine.execTxf b s
  | .txid => Sys2Proof.Machine.execTxid s
  | .rxf b => Sys2Proof.Machine.execRxf b s
  | .rxid => Sys2Proof.Machine.execRxid s
  | .txack => Sys2Proof.Machine.execTxack s
  | .rxack => Sys2Proof.Machine.execRxack s
  | .sendcall => Sys2Proof.Machine.execSendcall s
  | .recvcall => Sys2Proof.Machine.execRecvcall s
  | .sinit => Sys2Proof.Machine.execSinit s

end Sys2Proof.Machine
end

