-- ==== Sys2Proof/Machine/Step.lean ====
section
/-! DEFINITION. One step of the machine: the turn of the host, or of the block. -/

namespace Sys2Proof.Machine

open Sys2Proof

/-- A word on the command port (45_system.md R211, R217): not taken while `BUSY = 1`; executed if legal; consumed as
illegal otherwise. -/
def present (c : Word32) (s : State) : Result :=
  if s.busy then .next (s.answered .notTaken)
  else
    match decode c with
    | .error _ => .next (illegalWord (s.answered .taken))
    | .ok i => exec i (s.answered .taken)

/-- One turn of the host; `s` no longer has the action in `host`. -/
def hostTurn (a : HostAction) (s : State) : Result :=
  match a with
  | .command c => present c s
  | .readX i => .next (hostReadX i s)
  | .writeX i v => .next (hostWriteX i v s)
  | .readBuf b o => .next (hostReadBuf b o s)
  | .writeBuf b o v => .next (hostWriteBuf b o v s)
  | .readCtl n => .next (hostReadCtl n s)
  | .writeCtl n v => .next (hostWriteCtl n v s)
  | .reset => .next (resetInput s)
  | .wait => .next (resume s)
  | .awaitIdle => .next s

/-- The step. A host with nothing to do leaves the turn to the block, and so does one that waits for `BUSY = 0`
(10_state.md R30) as long as the block is busy (log 6). -/
def step (s : State) : Host.Outcome State Fault Refusal :=
  match s.host with
  | [] => .next (resume s)
  | .awaitIdle :: rest => if s.busy then .next (resume s) else .next { s with host := rest }
  | a :: rest => hostTurn a { s with host := rest }

/-- The state in which the host's next turn presents the command word `w` (log 6). -/
def State.withFetchWord (s : State) (_nbits w : Nat) : State :=
  { s with host := .command (BitVec.ofNat 32 w) :: s.host }

end Sys2Proof.Machine
end

