-- ==== Sys2Proof/Safety.lean ====
section
/-! DEFINITION. The terms claims are stated in: how a command leaves the block, the bytes of a frame on the wire,
channels that answer in a given way, and the invariant of the machine. -/

namespace Sys2Proof.Machine

open Sys2Proof

/-! ## How a command leaves the block -/

/-- The state without the hidden registers and the latched command (10_state.md R45), which no host can read. -/
def State.shown (s : State) : State :=
  { s with win := 0, fsm := ⟨.idle, .ident⟩, cnt := 0, stg := 0, acc := ⟨0, 0⟩, biti := 0, inflight := none }

/-- The block idle after a command that ended without error (10_state.md R33, R34, 60_exceptions.md R258). -/
def State.done (s : State) : State := { s with busy := false, err := false, ecause := none }

/-- The block idle after a command that ended with the error `c` (60_exceptions.md R254). -/
def State.failed (c : Cause) (s : State) : State :=
  { s with
    busy := false
    err := true
    ecause := some c
    esticky := s.esticky ||| (1#32 <<< c.code)
    link := if c ∈ [.transportError, .framingError, .protocolError] then .failed else s.link }

/-- What every end of a command leaves in the hidden registers, `WIN` apart (10_state.md R45; log 8). -/
def State.settled (s : State) : State :=
  { s with fsm := ⟨.idle, .ident⟩, cnt := 0, stg := 0, acc := ⟨0, 0⟩, biti := 0, inflight := none }

/-- The values 10_state.md R50 gives for reset; of the general registers and the buffers it fixes none. -/
def State.resetValues (s : State) : Prop :=
  s.statusWord = 0 ∧ s.ecauseWord = 0 ∧ s.esticky = 0 ∧ s.fid = 0 ∧ (∀ b, s.plenAt b = 0) ∧ s.win = 0 ∧ s.cnt = 0 ∧
    s.stg = 0 ∧ s.acc = ⟨0, 0⟩ ∧ s.biti = 0 ∧ s.fsm.phase = .idle ∧ s.inflight = none

/-- The eight channel commands (43_frame.md R179). -/
def isChannel : Instr → Bool
  | .txf _ => true
  | .txid => true
  | .rxf _ => true
  | .rxid => true
  | .txack => true
  | .rxack => true
  | .sendcall => true
  | .recvcall => true
  | .fadd _ _ _ => false
  | .fsub _ _ _ => false
  | .fmul _ _ _ => false
  | .fred _ _ => false
  | .finv _ _ => false
  | .btst _ _ => false
  | .padd _ _ _ => false
  | .pmul _ _ _ => false
  | .peq _ _ => false
  | .ldb _ _ _ _ => false
  | .stb _ _ _ _ => false
  | .sinit => false

/-- The general registers a command may write (10_state.md R23). -/
def destRegs : Instr → List RegNum
  | .fadd rd _ _ => [rd]
  | .fsub rd _ _ => [rd]
  | .fmul rd _ _ => [rd]
  | .fred rd _ => [rd]
  | .finv rd _ => [rd]
  | .padd qd _ _ => [evenReg qd, oddReg qd]
  | .pmul qd _ _ => [evenReg qd, oddReg qd]
  | .ldb rd _ _ _ => [rd]
  | .btst _ _ => []
  | .peq _ _ => []
  | .stb _ _ _ _ => []
  | .txf _ => []
  | .txid => []
  | .rxf _ => []
  | .rxid => []
  | .txack => []
  | .rxack => []
  | .sendcall => []
  | .recvcall => []
  | .sinit => []

/-- The keys of the buffer bytes a command may store to from a state: the `w` bytes named by `STB`
(42_loadstore.md R162), the portion of `RXF` (43_frame.md R175), the present portions of `RECVCALL`
(44_ack_sequencer.md R195); no other command stores. -/
def destKeys (s : State) : Instr → List Nat
  | .stb _ b off w => (List.range w).map fun i => bufKey b (off + i)
  | .rxf b => (List.range (s.plenAt b)).map (bufKey b)
  | .recvcall => (([0, 1, 2, 3] : List Slot).map fun b => (List.range (s.plenAt b)).map (bufKey b)).flatten
  | .fadd _ _ _ => []
  | .fsub _ _ _ => []
  | .fmul _ _ _ => []
  | .fred _ _ => []
  | .finv _ _ => []
  | .btst _ _ => []
  | .padd _ _ _ => []
  | .pmul _ _ _ => []
  | .peq _ _ => []
  | .ldb _ _ _ _ => []
  | .txf _ => []
  | .txid => []
  | .rxid => []
  | .txack => []
  | .rxack => []
  | .sendcall => []
  | .sinit => []

/-- The host issuing commands one after another, stopping at the first that ends in error or waits
(44_ack_sequencer.md R197). -/
def issueAll : List Instr → State → State
  | [], s => s
  | i :: is, s =>
    match exec i s with
    | .next t => if t.err || t.busy then t else issueAll is t
    | .fault _ => s
    | .refused _ => s

/-! ## The wire (30_encoding.md Part B) and channels that answer in a given way -/

/-- A frame: `START ‖ payload ‖ STOP` (R100). -/
def frame (payload : List Byte) : List Byte := [0x55, 0x55, 0x55, 0x55] ++ payload ++ [0xFF, 0xFF, 0xFF, 0xFF]

/-- The token on the wire (R101). -/
def token : List Byte := [0x41, 0x43, 0x4B]

/-- The RX port delivers these bytes, each at the first attempt. -/
def arrives (bytes : List Byte) : List RxAnswer := bytes.map .byte

/-- The TX port accepts the next `n` bytes. -/
def accepts (n : Nat) : List TxAnswer := List.replicate n .accepted

/-- Stray bytes that a hunt skips: the last one is not `0x55`, and there are no four `0x55` in a row
(43_frame.md R174(a)). -/
def skippable (g : List Byte) : Prop :=
  g.getLast? ≠ some 0x55 ∧ ¬ ([0x55, 0x55, 0x55, 0x55] : List Byte) <:+: g

/-- The bytes at whose end the hunt stops for the first time (43_frame.md R174): they end in the start marker, and
no shorter beginning of them does. -/
def endsHunt (r : List Byte) : Prop :=
  ([0x55, 0x55, 0x55, 0x55] : List Byte) <:+ r ∧
    ∀ p, p <+: r → ([0x55, 0x55, 0x55, 0x55] : List Byte) <:+ p → p = r

/-- The present portions in array order (30_encoding.md R105). -/
def State.presentSlots (s : State) : List Slot := ([0, 1, 2, 3] : List Slot).filter s.present

/-- The frames of the whole envelope, identifier first (30_encoding.md R105). -/
def State.envelope (s : State) : List Byte :=
  frame s.identBytes ++ (s.presentSlots.map fun b => frame (s.portion b)).flatten

/-- `n` tokens on the wire. -/
def tokens (n : Nat) : List Byte := (List.replicate n token).flatten

/-- `FID` after the first bytes of an identifier's payload: they replace its top bytes (43_frame.md R177). -/
def State.identAfter (s : State) (p : List Byte) : Word32 :=
  BitVec.ofNat 32 (intBE (p ++ s.identBytes.drop p.length))

/-- More answers in store for the two ports. -/
def State.feed (s : State) (r : List RxAnswer) (u : List TxAnswer) : State :=
  { s with rx := s.rx ++ r, tx := s.tx ++ u }

/-- The phases in which the next attempt is a read. -/
def receiving : List Phase := [.hunt, .payload, .stop, .ackRx]

/-- The phases in which the next attempt is a write. -/
def sending : List Phase := [.txStart, .txPayload, .txStop, .ackTx]

/-- The answers that end a wait with an error (20_memory.md R69, R70). -/
def RxAnswer.fails (a : RxAnswer) : Prop := a = .closed ∨ a = .hardError

/-- The answers that end a wait with an error (20_memory.md R70). -/
def TxAnswer.fails (a : TxAnswer) : Prop := a = .closed ∨ a = .hardError

/-- How an answer that ends the reception of a frame is reported (43_frame.md R178). -/
def frameError (a : RxAnswer) : Cause := if a = .closed then .framingError else .transportError

/-- `v` as a residue: `v mod P` in a register (00_scope.md R10). -/
def residue (v : Int) : Word := BitVec.ofInt 256 (v % (Config.P : Int))

/-- A register as an integer. -/
def State.intX (s : State) (i : RegNum) : Int := ((s.getX i).toNat : Int)

/-- The third point on the line of slope `lam` through `a` and `b`, mirrored (41_point.md R142 steps 6 to 8). -/
def thirdPoint (lam : Int) (a b : Point) : Point :=
  let xr := residue (lam * lam - (a.x.toNat : Int) - (b.x.toNat : Int))
  ⟨xr, residue (lam * ((a.x.toNat : Int) - (xr.toNat : Int)) - (a.y.toNat : Int))⟩

/-- A pair satisfies `y² = x³ - 3x + c` modulo `P` (41_point.md R140). -/
def onCurve (c : Int) (a : Point) : Prop :=
  ((a.y.toNat : Int) ^ 2 - ((a.x.toNat : Int) ^ 3 - 3 * (a.x.toNat : Int) + c)) % (Config.P : Int) = 0

/-- `v` in the field of a command word that starts at bit `lo`. -/
def at32 (v lo : Nat) : Word32 := BitVec.ofNat 32 v <<< lo

/-! ## The invariant -/

/-- `ESTICKY` bits 0 and 31:9 read as 0 (10_state.md R35). -/
def State.stickyReserved (s : State) : Bool := s.esticky &&& 0xFFFFFE01 == 0

/-- `ERR` is 1 exactly when `ECAUSE` names an error (10_state.md R33, R34). -/
def State.errAgrees (s : State) : Bool := s.err == s.ecause.isSome

/-- The cause in `ECAUSE` is recorded in `ESTICKY` (10_state.md R35, 60_exceptions.md R254). -/
def State.causeRecorded (s : State) : Bool :=
  match s.ecause with
  | none => true
  | some c => s.esticky.getLsbD c.code

/-- `LINK` is Failed exactly when `ESTICKY` records a Transport, Framing or Protocol error (60_exceptions.md R254,
R257, 45_system.md R210). -/
def State.linkRecorded (s : State) : Bool := decide (s.link = .failed) == (s.esticky &&& 0xE != 0)

/-- The buffers are in canonical form and hold only bytes that exist (20_memory.md R61). -/
def State.bufOk (s : State) : Bool := Memory.wf s.buf && s.buf.all fun c => keyExists c.1

/-- Between commands no hidden state but `WIN` is left (10_state.md R45; log 8). -/
def State.idleClean (s : State) : Bool :=
  s.busy || (s.fsm == ⟨.idle, .ident⟩ && s.cnt == 0 && s.stg == 0 && s.inflight == none)

/-- `ACC` and `BITI` are used inside `PMUL` only (10_state.md R45; log 5). -/
def State.accClean (s : State) : Bool := s.acc == ⟨0, 0⟩ && s.biti == 0

/-- Where a command can be while it waits (10_state.md R45). -/
def phaseOf : Instr → Phase → Item → Bool
  | .txf b, p, it => [.txStart, .txPayload, .txStop].contains p && it == .slot b
  | .txid, p, it => [.txStart, .txPayload, .txStop].contains p && it == .ident
  | .rxf b, p, it => [.hunt, .payload, .stop].contains p && it == .slot b
  | .rxid, p, it => [.hunt, .payload, .stop].contains p && it == .ident
  | .txack, p, _ => p == .ackTx
  | .rxack, p, _ => p == .ackRx
  | .sendcall, p, _ => [.txStart, .txPayload, .txStop, .ackRx].contains p
  | .recvcall, p, _ => [.hunt, .payload, .stop, .ackTx].contains p
  | .fadd _ _ _, _, _ => false
  | .fsub _ _ _, _, _ => false
  | .fmul _ _ _, _, _ => false
  | .fred _ _, _, _ => false
  | .finv _ _, _, _ => false
  | .btst _ _, _, _ => false
  | .padd _ _ _, _, _ => false
  | .pmul _ _ _, _, _ => false
  | .peq _ _, _, _ => false
  | .ldb _ _ _ _, _, _ => false
  | .stb _ _ _ _, _, _ => false
  | .sinit, _, _ => false

/-- How far `CNT` can be in a phase: a marker has 4 bytes, a token 3, a payload the item's length. That it is 0 in the
hunt is the model's choice (log 10). -/
def State.cntBound (s : State) : Nat :=
  match s.fsm.phase with
  | .idle => 0
  | .hunt => 1
  | .pace => 1
  | .txStart => 4
  | .txStop => 4
  | .stop => 4
  | .ackTx => 3
  | .ackRx => 3
  | .payload => s.itemLen s.fsm.item
  | .txPayload => s.itemLen s.fsm.item

/-- A busy block is waiting inside a channel command, on an open link, with no error recorded for it
(60_exceptions.md R265), `CNT` within its bound (log 10). -/
def State.waiting (s : State) : Bool :=
  !s.busy || (!s.err && decide (s.link = .opened) && decide (s.cnt.toNat < s.cntBound) &&
    match s.inflight with
    | none => false
    | some i => phaseOf i s.fsm.phase s.fsm.item)

/-- The invariant of the machine. -/
def State.Inv (s : State) : Bool :=
  s.stickyReserved && s.errAgrees && s.causeRecorded && s.linkRecorded && s.bufOk && s.idleClean && s.accClean
    && s.waiting

end Sys2Proof.Machine
end

