-- ==== Sys2Proof/Certificates/Slice0/Obligations.lean ====
section
/-! DEFINITION. The statements for the provers, each a formal reading of the rule of spec/ its docstring names.

A result is stated as `exec i s` answering a next state `t` whose visible part is written out whole: `t.shown` is
`t` without the hidden registers of 10_state.md R45, so an equation of `shown` states also the frame. What the hidden
registers hold after a command is a statement of its own. -/

section

open Sys2Proof Sys2Proof.Machine

/-! ## Encoding -/

/-- Decoding an encoded well-formed command gives it back: no bit of an encoding is dropped (30_encoding.md R92,
R93). -/
def Obligations.DecodeOfEncode : Prop :=
  ∀ i : Instr, i.wellFormed = true → decode (encode i) = .ok i

/-- A word has one meaning: what the decoder accepts is well formed and encodes to that word (30_encoding.md R92,
R93). -/
def Obligations.EncodeOfDecode : Prop :=
  ∀ (c : Word32) (i : Instr), decode c = .ok i → i.wellFormed = true ∧ encode i = c

/-- 30_encoding.md R94: a word is a command iff it matches the command's row, no word matches two rows, and a word
that matches none is illegal. -/
def Obligations.DecoderAgreesWithOpcodeTable : Prop :=
  (∀ (c : Word32) (r : Row), r ∈ opcodeTable → (r.matches c = true ↔ ∃ i, decode c = .ok i ∧ rowOf i = r)) ∧
  (∀ (c : Word32) (r q : Row), r ∈ opcodeTable → q ∈ opcodeTable → r.matches c = true → q.matches c = true →
    r = q) ∧
  ∀ c : Word32, (∃ e, decode c = .error e) ↔ ∀ r ∈ opcodeTable, r.matches c = false

/-- Words written out from the spec's examples decode to the commands they stand for. -/
def Obligations.SampleWordsDecode : Prop :=
  decode 0x10312000 = .ok (.fadd 3 1 2) ∧ decode 0x14210000 = .ok (.finv 2 1) ∧
  decode 0x18010002 = .ok (.btst 1 2) ∧ decode 0x20100000 = .ok (.padd 1 0 0) ∧
  decode 0x21140000 = .ok (.pmul 1 4 0) ∧ decode 0x22012000 = .ok (.peq 1 2) ∧
  decode 0x30409F00 = .ok (.ldb 4 2 0 32) ∧ decode 0x3050811E = .ok (.ldb 5 2 30 2) ∧
  decode 0x31011F00 = .ok (.stb 1 0 0 32) ∧ decode 0x42000001 = .ok (.rxf 1) ∧
  decode 0x48000000 = .ok .txack ∧ decode 0x50000000 = .ok .sendcall ∧ decode 0x7F000000 = .ok .sinit

/-! ## The step, the ports and reset

The response to the host is carried in the field `answer`, the model's own (log 7); the host's turns are the list
`host` (log 6). -/

/-- A step in which the host presents a legal word while the block is idle runs the decoded command, from the state
in which the word is taken from the host's list; a word presented while a command is in flight is not taken and has
no effect (45_system.md R211; logs 6, 7). -/
def Obligations.StepRunsPresentedCommand : Prop :=
  (∀ (s : State) (rest : List HostAction) (c : Word32) (i : Instr), s.host = .command c :: rest → s.busy = false →
    decode c = .ok i → i.wellFormed = true → step s = exec i ({ s with host := rest }.answered .taken)) ∧
  (∀ (s : State) (rest : List HostAction) (c : Word32), s.host = .command c :: rest → s.busy = true →
    step s = .next ({ s with host := rest }.answered .notTaken)) ∧
  ∀ (s : State) (i : Instr), s.busy = false → decode (encode i) = .ok i →
    step (s.withFetchWord 32 (encode i).toNat) = exec i (s.answered .taken)

/-- 45_system.md R217: an illegal word is consumed: `ERR`, `ECAUSE` and `ESTICKY[5]` record it, nothing else of the
block changes. The host's own `answer` may change. -/
def Obligations.IllegalWordConsumed : Prop :=
  ∀ (s : State) (rest : List HostAction) (c : Word32) (e : Illegal), s.host = .command c :: rest → s.busy = false →
    decode c = .error e →
    ∃ a t, step s = .next t ∧
      t.shown = { s.shown with
        host := rest, answer := a, err := true, ecause := some .illegalCommand, esticky := s.esticky ||| 0x20 }

/-- The register port (45_system.md R212, R213, R216; logs 6, 7). -/
def Obligations.HostRegisterPort : Prop :=
  ∀ (s : State) (rest : List HostAction) (i : RegNum) (v : Word),
    (s.busy = false →
      step { s with host := .readX i :: rest } = .next ({ s with host := rest }.answered (.word (s.getX i))) ∧
      ∃ t, step { s with host := .writeX i v :: rest } = .next t ∧ t.getX i = v ∧
        (∀ j, j ≠ i → t.getX j = s.getX j) ∧ t = { s with host := rest, answer := .done, x := t.x }) ∧
    (s.busy = true →
      step { s with host := .readX i :: rest } = .next ({ s with host := rest }.answered .refused) ∧
      step { s with host := .writeX i v :: rest } = .next ({ s with host := rest }.answered .refused))

/-- The buffer port (45_system.md R214, R216; logs 6, 7). -/
def Obligations.HostBufferPort : Prop :=
  ∀ (s : State) (rest : List HostAction) (b : Slot) (o v : Byte),
    (s.busy = false → o.toNat < s.plenAt b →
      step { s with host := .readBuf b o :: rest }
        = .next ({ s with host := rest }.answered (.byte (s.bufByte b o.toNat))) ∧
      ∃ t, step { s with host := .writeBuf b o v :: rest } = .next t ∧
        t = { s with host := rest, answer := .done, buf := t.buf } ∧
        (Memory.wf s.buf = true → Memory.wf t.buf = true ∧ t.bufByte b o.toNat = v) ∧
        ∀ k, k ≠ bufKey b o.toNat → Memory.read t.buf k = Memory.read s.buf k) ∧
    (s.busy = true ∨ s.plenAt b ≤ o.toNat →
      step { s with host := .readBuf b o :: rest } = .next ({ s with host := rest }.answered .refused) ∧
      step { s with host := .writeBuf b o v :: rest } = .next ({ s with host := rest }.answered .refused))

/-- The control port: the access rights of 10_state.md R38, the layout of `STATUS` (R33) and of `ECAUSE` (R34) with the
numbers of the eight causes (60_exceptions.md R251), and 45_system.md R215 (logs 6, 7, 14). -/
def Obligations.HostControlPort : Prop :=
  ∀ (s : State) (rest : List HostAction) (v : Word32),
    let read (n : Nat) := step { s with host := .readCtl n :: rest }
    let write (n : Nat) := step { s with host := .writeCtl n v :: rest }
    let reply (a : HostAnswer) : Result := .next ({ s with host := rest }.answered a)
    (∃ w : Word32, read 0 = reply (.ctl w) ∧ w.getLsbD 0 = s.busy ∧ w.getLsbD 1 = s.err ∧ w.getLsbD 2 = s.flagT ∧
      w.getLsbD 3 = s.flagEq ∧ (w.getLsbD 4 = true ↔ s.link = .failed) ∧ w.toNat < 32) ∧
    (∃ w : Word32, read 1 = reply (.ctl w) ∧
      (s.ecause = none → w = 0) ∧ (s.ecause = some .transportError → w = 1) ∧
      (s.ecause = some .framingError → w = 2) ∧ (s.ecause = some .protocolError → w = 3) ∧
      (s.ecause = some .arithmeticError → w = 4) ∧ (s.ecause = some .illegalCommand → w = 5) ∧
      (s.ecause = some .boundsError → w = 6) ∧ (s.ecause = some .rangeError → w = 7) ∧
      (s.ecause = some .linkDown → w = 8)) ∧
    read 2 = reply (.ctl s.esticky) ∧
    (s.busy = false → read 3 = reply (.ctl s.fid) ∧ read 4 = reply (.ctl s.plen) ∧
      write 3 = .next { s with host := rest, answer := .done, fid := v } ∧
      write 4 = .next { s with host := rest, answer := .done, plen := v }) ∧
    (s.busy = true → ∀ n, n = 3 ∨ n = 4 → read n = reply .refused ∧ write n = reply .refused) ∧
    (∀ n, n ≤ 2 → write n = reply .refused) ∧
    ∀ n, 5 ≤ n → read n = reply .refused ∧ write n = reply .refused

/-- 10_state.md R50: the values the spec gives for reset; of the registers and the buffers it gives none. -/
def Obligations.ResetState : Prop := State.reset.resetValues

/-- 70_reset_and_hazards.md R280: reset, asserted at any time, gives the values of R50 and does not act on the
channel; a command in flight is abandoned. -/
def Obligations.ResetInput : Prop :=
  ∀ (s : State) (rest : List HostAction), s.host = .reset :: rest →
    ∃ t, step s = .next t ∧ t.resetValues ∧ t.rx = s.rx ∧ t.tx = s.tx ∧ t.sent = s.sent ∧ t.host = rest

/-- Nothing stops the machine: every step and every command answers a next state (60_exceptions.md R254, R265). -/
def Obligations.NothingStopsTheMachine : Prop :=
  (∀ s : State, ∃ t, step s = .next t) ∧ ∀ (i : Instr) (s : State), ∃ t, exec i s = .next t

/-- A `WouldBlock` answer, or a port with nothing in store (log 3), leaves the whole state of the block unchanged:
the step is a hold (43_frame.md R181, 60_exceptions.md R265). -/
def Obligations.HoldChangesNothing : Prop :=
  ∀ s : State, s.host = [] → s.busy = true →
    (s.fsm.phase ∈ receiving → s.rx = [] → step s = .next s) ∧
    (s.fsm.phase ∈ receiving → ∀ r, s.rx = .wouldBlock :: r → step s = .next { s with rx := r }) ∧
    (s.fsm.phase ∈ sending → s.tx = [] → step s = .next s) ∧
    (s.fsm.phase ∈ sending → ∀ r, s.tx = .wouldBlock :: r → step s = .next { s with tx := r })

/-- The entry sequence of an error, 60_exceptions.md R254. That the registers the rule says are discarded (`ACC`,
`BITI`, `STG`, `CNT`) are then zero is the model's reading (log 8, DEDUCED). -/
def Obligations.RaiseEntry : Prop :=
  ∀ (c : Cause) (s : State),
    (raise c s).ecause = some c ∧ (raise c s).esticky = s.esticky ||| (1#32 <<< c.code) ∧
    (raise c s).err = true ∧ (raise c s).busy = false ∧
    (c.code ∈ [1, 2, 3] → (raise c s).link = .failed) ∧ (c.code ∉ [1, 2, 3] → (raise c s).link = s.link) ∧
    (raise c s).acc = ⟨0, 0⟩ ∧ (raise c s).biti = 0 ∧ (raise c s).stg = 0 ∧ (raise c s).cnt = 0 ∧
    (raise c s).x = s.x ∧ (raise c s).flagT = s.flagT ∧ (raise c s).flagEq = s.flagEq ∧ (raise c s).buf = s.buf ∧
    (raise c s).fid = s.fid ∧ (raise c s).plen = s.plen ∧ (raise c s).rx = s.rx ∧ (raise c s).tx = s.tx ∧
    (raise c s).sent = s.sent

/-! ## Field arithmetic -/

/-- 40_field.md R121. -/
def Obligations.FaddWritesTheSum : Prop :=
  ∀ (rd ra rb : RegNum) (s : State),
    encode (.fadd rd ra rb) = 0x10000000 ||| at32 rd 20 ||| at32 ra 16 ||| at32 rb 12 ∧
    ∃ t, exec (.fadd rd ra rb) s = .next t ∧
      t.shown = ((s.setX rd (residue (s.intX ra + s.intX rb))).done).shown

/-- 40_field.md R122. -/
def Obligations.FsubWritesTheDifference : Prop :=
  ∀ (rd ra rb : RegNum) (s : State),
    encode (.fsub rd ra rb) = 0x11000000 ||| at32 rd 20 ||| at32 ra 16 ||| at32 rb 12 ∧
    ∃ t, exec (.fsub rd ra rb) s = .next t ∧
      t.shown = ((s.setX rd (residue (s.intX ra - s.intX rb))).done).shown

/-- 40_field.md R123. -/
def Obligations.FmulWritesTheProduct : Prop :=
  ∀ (rd ra rb : RegNum) (s : State),
    encode (.fmul rd ra rb) = 0x12000000 ||| at32 rd 20 ||| at32 ra 16 ||| at32 rb 12 ∧
    ∃ t, exec (.fmul rd ra rb) s = .next t ∧
      t.shown = ((s.setX rd (residue (s.intX ra * s.intX rb))).done).shown

/-- 40_field.md R124; that the residue is the operand or the operand less `P` is the rule's own inference, marked
`[derived: from P > 2^255]`. -/
def Obligations.FredWritesTheResidue : Prop :=
  ∀ (rd ra : RegNum) (s : State),
    encode (.fred rd ra) = 0x13000000 ||| at32 rd 20 ||| at32 ra 16 ∧
    ∃ t v, exec (.fred rd ra) s = .next t ∧ t.shown = ((s.setX rd v).done).shown ∧
      v.toNat = (if (s.getX ra).toNat < Config.P then (s.getX ra).toNat else (s.getX ra).toNat - Config.P)

/-- 40_field.md R125: for every operand but 0 and `P` the one inverse in `[1, P)` is written; for these two the
command fails and writes no register. -/
def Obligations.FinvWritesTheInverse : Prop :=
  ∀ (rd ra : RegNum) (s : State),
    encode (.finv rd ra) = 0x14000000 ||| at32 rd 20 ||| at32 ra 16 ∧
    ((s.getX ra).toNat = 0 ∨ (s.getX ra).toNat = Config.P →
      ∃ t, exec (.finv rd ra) s = .next t ∧ t.shown = (s.failed .arithmeticError).shown) ∧
    ((s.getX ra).toNat ≠ 0 → (s.getX ra).toNat ≠ Config.P →
      ∃ t z, exec (.finv rd ra) s = .next t ∧ t.shown = ((s.setX rd z).done).shown ∧
        1 ≤ z.toNat ∧ z.toNat < Config.P ∧ (s.getX ra).toNat * z.toNat % Config.P = 1 ∧
        ∀ y, 1 ≤ y → y < Config.P → (s.getX ra).toNat * y % Config.P = 1 → y = z.toNat)

/-- 40_field.md R126: `T` gets `(v >> idx) & 1`, which is 0 from index 256 on. -/
def Obligations.BtstTestsTheBit : Prop :=
  ∀ (ra : RegNum) (idx : Nat) (s : State), idx ≤ 4095 →
    encode (.btst ra idx) = 0x18000000 ||| at32 ra 16 ||| at32 idx 0 ∧
    ∃ t, exec (.btst ra idx) s = .next t ∧
      t.shown = ((s.setT (decide ((s.getX ra).toNat / 2 ^ idx % 2 = 1))).done).shown ∧
      (256 ≤ idx → t.flagT = false)

/-- 40_field.md R120: reducing the operands first gives the same result. -/
def Obligations.ReducingOperandsFirst : Prop :=
  ∀ a b : Word,
    fieldAdd (fieldRed a) (fieldRed b) = fieldAdd a b ∧ fieldSub (fieldRed a) (fieldRed b) = fieldSub a b ∧
    fieldMul (fieldRed a) (fieldRed b) = fieldMul a b ∧ fieldInv (fieldRed a) = fieldInv a

/-! ## Point arithmetic -/

/-- 41_point.md R142 case by case, the slope `lam` characterised by what it is: the quotient of numerator and
denominator modulo `P`. -/
def Obligations.PointAddByTheSlope : Prop :=
  ∀ a b : Point,
    let xa : Int := (a.x.toNat : Int)
    let ya : Int := (a.y.toNat : Int)
    let xb : Int := (b.x.toNat : Int)
    let yb : Int := (b.y.toNat : Int)
    let p : Int := (Config.P : Int)
    (a = ⟨0, 0⟩ → pointAdd a b = .ok b) ∧
    (a ≠ ⟨0, 0⟩ → b = ⟨0, 0⟩ → pointAdd a b = .ok a) ∧
    (a ≠ ⟨0, 0⟩ → b ≠ ⟨0, 0⟩ → a.x = b.x → a.y ≠ b.y → pointAdd a b = .ok ⟨0, 0⟩) ∧
    (a ≠ ⟨0, 0⟩ → a = b → 2 * ya % p = 0 → pointAdd a b = .error .arithmeticError) ∧
    (a ≠ ⟨0, 0⟩ → a = b → 2 * ya % p ≠ 0 →
      ∃ lam : Int, 0 ≤ lam ∧ lam < p ∧ lam * (2 * ya) % p = (3 * xa * xa - 3) % p ∧
        pointAdd a b = .ok (thirdPoint lam a b)) ∧
    (a ≠ ⟨0, 0⟩ → b ≠ ⟨0, 0⟩ → a.x ≠ b.x → (xb - xa) % p = 0 → pointAdd a b = .error .arithmeticError) ∧
    (a ≠ ⟨0, 0⟩ → b ≠ ⟨0, 0⟩ → a.x ≠ b.x → (xb - xa) % p ≠ 0 →
      ∃ lam : Int, 0 ≤ lam ∧ lam < p ∧ lam * (xb - xa) % p = (yb - ya) % p ∧
        pointAdd a b = .ok (thirdPoint lam a b))

/-- When `PointAdd` raises, and what: 41_point.md R148, which the spec marks as its own inference from R142 and
40_field.md R125. -/
def Obligations.PointAddRaisesExactlyThere : Prop :=
  ∀ (a b : Point) (c : Cause),
    pointAdd a b = .error c ↔
      c = .arithmeticError ∧ a ≠ ⟨0, 0⟩ ∧ b ≠ ⟨0, 0⟩ ∧
        ((a = b ∧ (a.y.toNat = 0 ∨ a.y.toNat = Config.P)) ∨
          (a.x ≠ b.x ∧ (a.x.toNat + Config.P = b.x.toNat ∨ b.x.toNat + Config.P = a.x.toNat)))

/-- 41_point.md R143: for finite operands with unequal `x`, `PointAdd` is commutative. -/
def Obligations.PointAddCommutes : Prop :=
  ∀ a b : Point, a ≠ ⟨0, 0⟩ → b ≠ ⟨0, 0⟩ → a.x ≠ b.x → pointAdd a b = pointAdd b a

/-- The point operations stay on a curve `y² = x³ - 3x + c`, whatever `c`: the formulas of 41_point.md R142 and R144
are those of the curve R140 names. -/
def Obligations.PointOperationsKeepTheCurve : Prop :=
  (∀ (c : Int) (a b r : Point), (a = ⟨0, 0⟩ ∨ onCurve c a) → (b = ⟨0, 0⟩ ∨ onCurve c b) → pointAdd a b = .ok r →
    (r = ⟨0, 0⟩ ∨ onCurve c r)) ∧
  ∀ (c : Int) (k : Word) (a r : Point), (a = ⟨0, 0⟩ ∨ onCurve c a) → pointScalarMul k a = .ok r →
    (r = ⟨0, 0⟩ ∨ onCurve c r)

/-- 41_point.md R143. -/
def Obligations.PaddWritesTheSum : Prop :=
  ∀ (qd qa qb : PointNum) (s : State),
    encode (.padd qd qa qb) = 0x20000000 ||| at32 qd 20 ||| at32 qa 16 ||| at32 qb 12 ∧
    (∀ r, pointAdd (s.getQ qa) (s.getQ qb) = .ok r →
      ∃ t, exec (.padd qd qa qb) s = .next t ∧ t.shown = ((s.setQ qd r).done).shown) ∧
    ∀ c, pointAdd (s.getQ qa) (s.getQ qb) = .error c →
      ∃ t, exec (.padd qd qa qb) s = .next t ∧ t.shown = (s.failed c).shown

/-- 41_point.md R144: double and add from the most significant bit down, the first bit without a doubling. -/
def Obligations.ScalarMulIsDoubleAndAdd : Prop :=
  ∀ (k : Word) (pt : Point),
    pointScalarMul k pt =
      if k = 0 then .ok ⟨0, 0⟩
      else (List.range (Nat.log2 k.toNat + 1)).reverse.foldlM (fun (acc : Point) (i : Nat) => do
        let acc ← if i ≠ Nat.log2 k.toNat then pointAdd acc acc else pure acc
        if k.toNat / 2 ^ i % 2 = 1 then pointAdd acc pt else pure acc) ⟨0, 0⟩

/-- The properties the source asks of scalar multiplication (41_point.md R145): multiples 0, 1 and 2, and infinity. -/
def Obligations.ScalarMulSmallMultiples : Prop :=
  ∀ (pt : Point) (k : Word),
    pointScalarMul 0 pt = .ok ⟨0, 0⟩ ∧ pointScalarMul 1 pt = .ok pt ∧
    pointScalarMul 2 pt = pointAdd pt pt ∧ pointScalarMul k ⟨0, 0⟩ = .ok ⟨0, 0⟩ ∧
    ∀ c, pointScalarMul k pt = .error c → c = .arithmeticError

/-- 41_point.md R145. -/
def Obligations.PmulWritesTheMultiple : Prop :=
  ∀ (qd : PointNum) (rk : RegNum) (qa : PointNum) (s : State),
    encode (.pmul qd rk qa) = 0x21000000 ||| at32 qd 20 ||| at32 rk 16 ||| at32 qa 12 ∧
    (∀ r, pointScalarMul (s.getX rk) (s.getQ qa) = .ok r →
      ∃ t, exec (.pmul qd rk qa) s = .next t ∧ t.shown = ((s.setQ qd r).done).shown) ∧
    ∀ c, pointScalarMul (s.getX rk) (s.getQ qa) = .error c →
      ∃ t, exec (.pmul qd rk qa) s = .next t ∧ t.shown = (s.failed c).shown

/-- 41_point.md R146. -/
def Obligations.PeqComparesRawCoordinates : Prop :=
  ∀ (qa qb : PointNum) (s : State),
    encode (.peq qa qb) = 0x22000000 ||| at32 qa 16 ||| at32 qb 12 ∧
    ∃ t, exec (.peq qa qb) s = .next t ∧
      t.shown = ((s.setEq (decide (s.getX (evenReg qa) = s.getX (evenReg qb) ∧
        s.getX (oddReg qa) = s.getX (oddReg qb)))).done).shown

/-! ## Loads and stores -/

/-- 42_loadstore.md R161. -/
def Obligations.LdbLoadsBigEndian : Prop :=
  ∀ (rd : RegNum) (b : Slot) (off w : Nat) (s : State), off ≤ 255 → 1 ≤ w → w ≤ 32 →
    encode (.ldb rd b off w) = 0x30000000 ||| at32 rd 20 ||| at32 b 14 ||| at32 (w - 1) 8 ||| at32 off 0 ∧
    (off + w ≤ s.plenAt b → ∃ t v, exec (.ldb rd b off w) s = .next t ∧ t.shown = ((s.setX rd v).done).shown ∧
      v.toNat = intBE (s.memRead b off w) ∧ v.toNat < 2 ^ (8 * w)) ∧
    (s.plenAt b < off + w → ∃ t, exec (.ldb rd b off w) s = .next t ∧ t.shown = (s.failed .boundsError).shown)

/-- 42_loadstore.md R162, the bounds tested before the range. -/
def Obligations.StbStoresBigEndian : Prop :=
  ∀ (ra : RegNum) (b : Slot) (off w : Nat) (s : State), off ≤ 255 → 1 ≤ w → w ≤ 32 →
    encode (.stb ra b off w) = 0x31000000 ||| at32 ra 16 ||| at32 b 14 ||| at32 (w - 1) 8 ||| at32 off 0 ∧
    (off + w ≤ s.plenAt b → (s.getX ra).toNat < 2 ^ (8 * w) → ∃ t, exec (.stb ra b off w) s = .next t ∧
      t.shown = ((s.memWrite b off (be (s.getX ra).toNat w)).done).shown) ∧
    (off + w ≤ s.plenAt b → 2 ^ (8 * w) ≤ (s.getX ra).toNat → ∃ t, exec (.stb ra b off w) s = .next t ∧
      t.shown = (s.failed .rangeError).shown) ∧
    (s.plenAt b < off + w → ∃ t, exec (.stb ra b off w) s = .next t ∧ t.shown = (s.failed .boundsError).shown)

/-- 20_memory.md R63: a write sets the bytes named, a read returns them, neither touches anything else. The memory is
in canonical form, an invariant of its own (`InvKeptByStep`). -/
def Obligations.MemWriteThenMemRead : Prop :=
  ∀ (s : State) (b : Slot) (o : Nat) (bytes : List Byte), Memory.wf s.buf = true →
    s.inRange b o bytes.length = true →
    (s.memWrite b o bytes).memRead b o bytes.length = bytes ∧
    (∀ c p, p ≤ 254 → (c ≠ b ∨ p < o ∨ o + bytes.length ≤ p) →
      (s.memWrite b o bytes).bufByte c p = s.bufByte c p) ∧
    s.memWrite b o bytes = { s with buf := (s.memWrite b o bytes).buf } ∧
    Memory.wf (s.memWrite b o bytes).buf = true

/-- 42_loadstore.md R162, the round trips: a load after a store gives the register back, a store after a load
rewrites the same bytes. -/
def Obligations.StoreThenLoadAndBack : Prop :=
  ∀ (ra rd : RegNum) (b : Slot) (off w : Nat) (s : State), Memory.wf s.buf = true → 1 ≤ w → w ≤ 32 →
    off + w ≤ s.plenAt b →
    ((s.getX ra).toNat < 2 ^ (8 * w) →
      ∃ t u, exec (.stb ra b off w) s = .next t ∧ exec (.ldb rd b off w) t = .next u ∧
        u.getX rd = s.getX ra ∧ u.err = false) ∧
    ∃ t u, exec (.ldb rd b off w) s = .next t ∧ exec (.stb rd b off w) t = .next u ∧ u.buf = s.buf ∧
      u.err = false

/-! ## The system command and the link -/

/-- 45_system.md R210. -/
def Obligations.SinitBeginsASession : Prop :=
  ∀ s : State, encode .sinit = 0x7F000000 ∧
    ∃ t, exec .sinit s = .next t ∧ t.shown = ({ s with link := .opened, esticky := 0 }.done).shown ∧
      t.win = 0 ∧ t.cnt = 0 ∧ t.stg = 0

/-- 43_frame.md R179: on a failed link a channel command raises LinkDown and does nothing else. -/
def Obligations.LinkGate : Prop :=
  ∀ (i : Instr) (s : State), isChannel i = true → s.link = .failed →
    ∃ t, exec i s = .next t ∧ t.shown = (s.failed .linkDown).shown

/-! ## Frames and tokens

The channel is what the lists `rx` and `tx` say it will answer (log 3); `arrives` and `accepts` are channels that
answer every attempt at once. -/

/-- 43_frame.md R171 (over R170): the frame is sent whole; or cut short at the attempt that fails. -/
def Obligations.TxfSendsThePortion : Prop :=
  ∀ (b : Slot) (s : State), encode (.txf b) = 0x40000000 ||| at32 b 0 ∧
    (s.link = .failed → ∃ t, exec (.txf b) s = .next t ∧ t.shown = (s.failed .linkDown).shown) ∧
    (s.link = .opened → ∀ r, s.tx = accepts (s.plenAt b + 8) ++ r → ∃ t, exec (.txf b) s = .next t ∧
      t.shown = ({ s with tx := r, sent := s.sent ++ frame (s.portion b) }.done).shown) ∧
    (s.link = .opened → ∀ n a r, n < s.plenAt b + 8 → a.fails → s.tx = accepts n ++ a :: r →
      ∃ t, exec (.txf b) s = .next t ∧
        t.shown = ({ s with
          tx := r, sent := s.sent ++ (frame (s.portion b)).take n }.failed .transportError).shown)

/-- 43_frame.md R172 (over R170). -/
def Obligations.TxidSendsTheIdentifier : Prop :=
  ∀ s : State, encode .txid = 0x41000000 ∧
    (s.link = .failed → ∃ t, exec .txid s = .next t ∧ t.shown = (s.failed .linkDown).shown) ∧
    (s.link = .opened → ∀ r, s.tx = accepts 12 ++ r → ∃ t, exec .txid s = .next t ∧
      t.shown = ({ s with tx := r, sent := s.sent ++ frame (be s.fid.toNat 4) }.done).shown) ∧
    (s.link = .opened → ∀ n a r, n < 12 → a.fails → s.tx = accepts n ++ a :: r → ∃ t, exec .txid s = .next t ∧
      t.shown = ({ s with
        tx := r, sent := s.sent ++ (frame (be s.fid.toNat 4)).take n }.failed .transportError).shown)

/-- 44_ack_sequencer.md R191 (over R190). -/
def Obligations.TxackSendsTheToken : Prop :=
  ∀ s : State, encode .txack = 0x48000000 ∧
    (s.link = .failed → ∃ t, exec .txack s = .next t ∧ t.shown = (s.failed .linkDown).shown) ∧
    (s.link = .opened → ∀ r, s.tx = accepts 3 ++ r → ∃ t, exec .txack s = .next t ∧
      t.shown = ({ s with tx := r, sent := s.sent ++ [0x41, 0x43, 0x4B] }.done).shown) ∧
    (s.link = .opened → ∀ n a r, n < 3 → a.fails → s.tx = accepts n ++ a :: r → ∃ t, exec .txack s = .next t ∧
      t.shown = ({ s with
        tx := r, sent := s.sent ++ [0x41, 0x43, 0x4B].take n }.failed .transportError).shown)

/-- 43_frame.md R175 (over R173, R174, R176, R178): the hunt, the payload by count, the stop test; or cut short in one
of the three phases, the payload bytes that came being stored. -/
def Obligations.RxfReceivesIntoThePortion : Prop :=
  ∀ (b : Slot) (s : State), encode (.rxf b) = 0x42000000 ||| at32 b 0 ∧
    (s.link = .failed → ∃ t, exec (.rxf b) s = .next t ∧ t.shown = (s.failed .linkDown).shown) ∧
    (s.link = .opened → ∀ h p r, endsHunt h → p.length = s.plenAt b →
      s.rx = arrives (h ++ p ++ [0xFF, 0xFF, 0xFF, 0xFF]) ++ r →
      ∃ t, exec (.rxf b) s = .next t ∧ t.shown = ({ s.memWrite b 0 p with rx := r }.done).shown) ∧
    (s.link = .opened → ∀ h p q r, endsHunt h → p.length = s.plenAt b → q.length = 4 →
      q ≠ [0xFF, 0xFF, 0xFF, 0xFF] → s.rx = arrives (h ++ p ++ q) ++ r →
      ∃ t, exec (.rxf b) s = .next t ∧
        t.shown = ({ s.memWrite b 0 p with rx := r }.failed .framingError).shown) ∧
    (s.link = .opened → ∀ h p q a r, RxAnswer.fails a →
      (¬ [0x55, 0x55, 0x55, 0x55] <:+: h ∧ p = [] ∧ q = []) ∨
        (endsHunt h ∧ p.length < s.plenAt b ∧ q = []) ∨ (endsHunt h ∧ p.length = s.plenAt b ∧ q.length < 4) →
      s.rx = arrives (h ++ p ++ q) ++ a :: r →
      ∃ t, exec (.rxf b) s = .next t ∧
        t.shown = ({ s.memWrite b 0 p with rx := r }.failed (frameError a)).shown)

/-- 43_frame.md R177 (over R173, R174, R176, R178): the same into `FID`, first byte to the top. -/
def Obligations.RxidReceivesTheIdentifier : Prop :=
  ∀ s : State, encode .rxid = 0x43000000 ∧
    (s.link = .failed → ∃ t, exec .rxid s = .next t ∧ t.shown = (s.failed .linkDown).shown) ∧
    (s.link = .opened → ∀ h p r, endsHunt h → p.length = 4 →
      s.rx = arrives (h ++ p ++ [0xFF, 0xFF, 0xFF, 0xFF]) ++ r →
      ∃ t, exec .rxid s = .next t ∧ t.shown = ({ s with fid := s.identAfter p, rx := r }.done).shown ∧
        be t.fid.toNat 4 = p) ∧
    (s.link = .opened → ∀ h p q r, endsHunt h → p.length = 4 → q.length = 4 →
      q ≠ [0xFF, 0xFF, 0xFF, 0xFF] → s.rx = arrives (h ++ p ++ q) ++ r →
      ∃ t, exec .rxid s = .next t ∧
        t.shown = ({ s with fid := s.identAfter p, rx := r }.failed .framingError).shown) ∧
    (s.link = .opened → ∀ h p q a r, RxAnswer.fails a →
      (¬ [0x55, 0x55, 0x55, 0x55] <:+: h ∧ p = [] ∧ q = []) ∨
        (endsHunt h ∧ p.length < 4 ∧ q = []) ∨ (endsHunt h ∧ p.length = 4 ∧ q.length < 4) →
      s.rx = arrives (h ++ p ++ q) ++ a :: r →
      ∃ t, exec .rxid s = .next t ∧
        t.shown = ({ s with fid := s.identAfter p, rx := r }.failed (frameError a)).shown)

/-- 44_ack_sequencer.md R193 (over R192): three bytes are consumed and compared, without a hunt. -/
def Obligations.RxackAwaitsTheToken : Prop :=
  ∀ s : State, encode .rxack = 0x49000000 ∧
    (s.link = .failed → ∃ t, exec .rxack s = .next t ∧ t.shown = (s.failed .linkDown).shown) ∧
    (s.link = .opened → ∀ r, s.rx = arrives [0x41, 0x43, 0x4B] ++ r →
      ∃ t, exec .rxack s = .next t ∧ t.shown = ({ s with rx := r }.done).shown) ∧
    (s.link = .opened → ∀ q r, q.length = 3 → q ≠ [0x41, 0x43, 0x4B] → s.rx = arrives q ++ r →
      ∃ t, exec .rxack s = .next t ∧ t.shown = ({ s with rx := r }.failed .protocolError).shown) ∧
    (s.link = .opened → ∀ q a r, RxAnswer.fails a → q.length < 3 → s.rx = arrives q ++ a :: r →
      ∃ t, exec .rxack s = .next t ∧ t.shown = ({ s with rx := r }.failed .transportError).shown) ∧
    (s.link = .opened → ∀ q, q.length < 3 → s.rx = arrives q →
      ∃ t, exec .rxack s = .next t ∧ t.shown = { s with rx := [], busy := true, err := false, ecause := none }.shown)

/-- 43_frame.md R174(a) and (b), the spec's own inference from R173. A frame behind stray bytes `g` is received, up to
its last byte and no further, exactly when `g` does not end in `55` and contains no `55 55 55 55`; with one more `55`
before the frame the payload is shifted by one, and the stop test reads the true payload's last byte and three `FF`.
The last clause says the same of the hunt alone. -/
def Obligations.StrayBytesAreSkippedExactlyThen : Prop :=
  (∀ (b : Slot) (s : State) (g p : List Byte) (r : List RxAnswer), s.link = .opened → p.length = s.plenAt b →
    s.rx = arrives (g ++ frame p) ++ r →
    ∃ t, exec (.rxf b) s = .next t ∧
      (t.shown = ({ s.memWrite b 0 p with rx := r }.done).shown ↔ skippable g)) ∧
  (∀ (s : State) (g p : List Byte) (r : List RxAnswer), s.link = .opened → p.length = 4 →
    s.rx = arrives (g ++ frame p) ++ r →
    ∃ t, exec .rxid s = .next t ∧
      (t.shown = ({ s with fid := s.identAfter p, rx := r }.done).shown ↔ skippable g)) ∧
  (∀ (b : Slot) (s : State) (g p : List Byte) (last : Byte) (r : List RxAnswer), s.link = .opened → skippable g →
    p.length + 1 = s.plenAt b → s.rx = arrives (g ++ [0x55] ++ frame (p ++ [last])) ++ r →
    ∃ t, exec (.rxf b) s = .next t ∧
      (last = 0xFF → t.shown = ({ s.memWrite b 0 (0x55 :: p) with rx := .byte 0xFF :: r }.done).shown) ∧
      (last ≠ 0xFF →
        t.shown = ({ s.memWrite b 0 (0x55 :: p) with rx := .byte 0xFF :: r }.failed .framingError).shown)) ∧
  ∀ g : List Byte, endsHunt (g ++ [0x55, 0x55, 0x55, 0x55]) ↔ skippable g

/-! ## The envelope exchange -/

/-- 44_ack_sequencer.md R194 on a channel that accepts every byte and delivers every token: the envelope of
30_encoding.md R105 is sent. -/
def Obligations.SendcallSendsTheEnvelope : Prop :=
  ∀ (s : State) (r : List RxAnswer) (u : List TxAnswer), s.link = .opened →
    s.tx = accepts s.envelope.length ++ u → s.rx = arrives (tokens (s.presentSlots.length + 1)) ++ r →
    encode .sendcall = 0x50000000 ∧
    ∃ t, exec .sendcall s = .next t ∧
      t.shown = ({ s with rx := r, tx := u, sent := s.sent ++ s.envelope }.done).shown

/-- 44_ack_sequencer.md R195 on a channel that delivers the frames, each behind stray bytes that the hunt skips: the
identifier and the present portions are stored, and a token is sent for each. -/
def Obligations.RecvcallReceivesTheEnvelope : Prop :=
  ∀ (s : State) (r : List RxAnswer) (u : List TxAnswer) (g0 ident : List Byte) (g p : Slot → List Byte),
    s.link = .opened → skippable g0 → ident.length = 4 → (∀ b, skippable (g b)) →
    (∀ b, (p b).length = s.plenAt b) →
    s.rx = arrives (g0 ++ frame ident ++ (s.presentSlots.map fun b => g b ++ frame (p b)).flatten) ++ r →
    s.tx = accepts (3 * (s.presentSlots.length + 1)) ++ u →
    encode .recvcall = 0x51000000 ∧
    ∃ t, exec .recvcall s = .next t ∧
      t.shown = ({ s.presentSlots.foldl (fun (v : State) (b : Slot) => v.memWrite b 0 (p b)) s with
        fid := s.identAfter ident, rx := r, tx := u,
        sent := s.sent ++ tokens (s.presentSlots.length + 1) }.done).shown

/-- 44_ack_sequencer.md R197: `SENDCALL` is `TXID`, `RXACK` and, for each present slot in order, `TXF`, `RXACK`,
stopping at the first error (or wait), on every state and whatever the channel answers. -/
def Obligations.SendcallIsItsSteps : Prop :=
  ∀ s : State, ∃ t, exec .sendcall s = .next t ∧
    t.shown = (issueAll (.txid :: .rxack :: (s.presentSlots.map fun b => [.txf b, .rxack]).flatten) s).shown

/-- 44_ack_sequencer.md R197: `RECVCALL` is `RXID`, `TXACK` and, for each present slot in order, `RXF`, `TXACK`. -/
def Obligations.RecvcallIsItsSteps : Prop :=
  ∀ s : State, ∃ t, exec .recvcall s = .next t ∧
    t.shown = (issueAll (.rxid :: .txack :: (s.presentSlots.map fun b => [.rxf b, .txack]).flatten) s).shown

/-- 43_frame.md R180(a): what one block sends with `TXF`, another block, whose RX stream it is, receives with `RXF`,
for every payload. -/
def Obligations.FrameRoundTrip : Prop :=
  ∀ (s u : State) (b c : Slot) (r : List TxAnswer) (q : List RxAnswer), s.link = .opened → u.link = .opened →
    Memory.wf u.buf = true → u.plenAt c = s.plenAt b → s.tx = accepts (s.plenAt b + 8) ++ r →
    ∃ t wire, exec (.txf b) s = .next t ∧ t.busy = false ∧ t.err = false ∧ t.sent = s.sent ++ wire ∧
      (u.rx = arrives wire ++ q →
        ∃ v, exec (.rxf c) u = .next v ∧ v.busy = false ∧ v.err = false ∧ v.rx = q ∧ v.portion c = s.portion b)

/-- 44_ack_sequencer.md R197: two blocks back to back, one in `SENDCALL`, the other in `RECVCALL` with the same
`PLEN`: both end without error, what each sends is what the other has consumed, and the receiver holds the sender's
`FID` and present portions. -/
def Obligations.EnvelopeRoundTrip : Prop :=
  ∀ (s u : State) (toSender toReceiver : List Byte), s.link = .opened → u.link = .opened →
    Memory.wf u.buf = true → u.plen = s.plen →
    s.tx = accepts toReceiver.length → s.rx = arrives toSender →
    u.tx = accepts toSender.length → u.rx = arrives toReceiver →
    toReceiver = s.envelope → toSender = tokens (s.presentSlots.length + 1) →
    ∃ t v, exec .sendcall s = .next t ∧ exec .recvcall u = .next v ∧ t.busy = false ∧ t.err = false ∧
      v.busy = false ∧ v.err = false ∧ t.sent = s.sent ++ toReceiver ∧ v.sent = u.sent ++ toSender ∧
      t.rx = [] ∧ v.rx = [] ∧ v.fid = s.fid ∧ ∀ b ∈ s.presentSlots, v.portion b = s.portion b

/-- How the channel's answers are spread over the turns does not matter: a command that waits and then gets more
answers goes on as if it had had them from the start (20_memory.md R69, R70, 43_frame.md R181; logs 3, 4). -/
def Obligations.AnswersMayComeLater : Prop :=
  ∀ (s : State) (r : List RxAnswer) (u : List TxAnswer), RxAnswer.wouldBlock ∉ s.rx → TxAnswer.wouldBlock ∉ s.tx →
    resume ((resume s).feed r u) = resume (s.feed r u)

/-! ## The whole machine -/

/-- The invariant holds after reset. -/
def Obligations.ResetMeetsTheInvariant : Prop := State.reset.Inv = true

/-- The invariant is kept by every step, whatever the host and the channel do. Three of its parts say how the model
keeps the hidden registers of 10_state.md R45, which the spec does not fix there: `idleClean` (log 8), `accClean`
(log 5), and in `waiting` the bound on `CNT`, by which it is 0 while the hunt waits (log 10). -/
def Obligations.InvKeptByStep : Prop :=
  ∀ s t : State, s.Inv = true → step s = .next t → t.Inv = true

/-- 00_scope.md R13: a command that ends in error writes no general register and no `T` or `EQ` flag. -/
def Obligations.ErrorsWriteNoResult : Prop :=
  ∀ (i : Instr) (s t : State), exec i s = .next t → t.err = true →
    t.x = s.x ∧ t.flagT = s.flagT ∧ t.flagEq = s.flagEq ∧ t.plen = s.plen

/-- 10_state.md R23: a command writes no general register but its destinations. -/
def Obligations.RegistersFrame : Prop :=
  ∀ (i : Instr) (s t : State) (r : RegNum), exec i s = .next t → r ∉ destRegs i → t.getX r = s.getX r

/-- Every byte of the buffers outside the ones a command stores to reads as before; `destKeys` computes these from the
operands and from `PLEN` as the meanings do (42_loadstore.md R162, 43_frame.md R175, 44_ack_sequencer.md R195). -/
def Obligations.MemoryFrame : Prop :=
  ∀ (i : Instr) (s t : State) (k : Nat), exec i s = .next t → k ∉ destKeys s i →
    Memory.read t.buf k = Memory.read s.buf k

/-- What no command but the ones named touches: `PLEN` (10_state.md R37), `FID` (R36), `T` and `EQ` (R31), the two
streams (20_memory.md R71, R73), and the host's side. -/
def Obligations.ControlFrame : Prop :=
  ∀ (i : Instr) (s t : State), exec i s = .next t →
    t.plen = s.plen ∧ t.host = s.host ∧ t.answer = s.answer ∧
    (i ≠ .rxid → i ≠ .recvcall → t.fid = s.fid) ∧
    ((∀ ra idx, i ≠ .btst ra idx) → t.flagT = s.flagT) ∧
    ((∀ qa qb, i ≠ .peq qa qb) → t.flagEq = s.flagEq) ∧
    (isChannel i = false → t.rx = s.rx ∧ t.tx = s.tx ∧ t.sent = s.sent) ∧
    (i = .txid ∨ i = .txack ∨ (∃ b, i = .txf b) → t.rx = s.rx) ∧
    (i = .rxid ∨ i = .rxack ∨ (∃ b, i = .rxf b) → t.tx = s.tx ∧ t.sent = s.sent)

/-- `ESTICKY` and a failed link stay until `SINIT` or reset (10_state.md R35, 60_exceptions.md R257), and the link
fails only with one of the three errors that abort the session (10_state.md R31, R260). -/
def Obligations.StickyUntilSinitOrReset : Prop :=
  ∀ s t : State, step s = .next t →
    ((∀ rest, s.host ≠ .reset :: rest) →
      (∀ c rest, s.busy = false → s.host = .command c :: rest → decode c ≠ .ok .sinit) →
      s.esticky &&& t.esticky = s.esticky ∧ (s.link = .failed → t.link = .failed)) ∧
    (s.link = .opened → t.link = .failed → t.err = true ∧
      (t.ecause = some .transportError ∨ t.ecause = some .framingError ∨ t.ecause = some .protocolError))

/-- The streams are used in order: a step takes answers from the front of the two lists, and appends to the TX stream
one byte for each `Accepted` (20_memory.md R67, R68, R71, R73; log 3). -/
def Obligations.StreamsAreUsedInOrder : Prop :=
  ∀ s t : State, step s = .next t →
    ∃ a b w, s.rx = a ++ t.rx ∧ s.tx = b ++ t.tx ∧ t.sent = s.sent ++ w ∧ w.length = b.count .accepted

/-- Only a channel command can be still in flight when the step ends, and then it waits for the port it needs; where
the channel answers no `WouldBlock`, that port has given all its answers (00_scope.md R16, 60_exceptions.md R265,
70_reset_and_hazards.md R296(c); logs 3, 4). -/
def Obligations.OnlyChannelCommandsWait : Prop :=
  ∀ (i : Instr) (s t : State), exec i s = .next t → t.busy = true →
    isChannel i = true ∧ s.link = .opened ∧ t.inflight = some i ∧ t.err = false ∧ t.ecause = none ∧
    (RxAnswer.wouldBlock ∉ s.rx → TxAnswer.wouldBlock ∉ s.tx →
      (t.fsm.phase ∈ receiving ∧ t.rx = []) ∨ (t.fsm.phase ∈ sending ∧ t.tx = []))

/-- No command's result depends on hidden state left by an earlier one, and none is left at its end but `WIN`
(10_state.md R45; log 8). -/
def Obligations.HiddenStateDoesNotMatter : Prop :=
  ∀ (i : Instr) (s u t v : State), s.shown = u.shown → exec i s = .next t → exec i u = .next v →
    t.shown = v.shown ∧
    (t.busy = false → t.fsm.phase = .idle ∧ t.cnt = 0 ∧ t.stg = 0 ∧ t.acc = ⟨0, 0⟩ ∧ t.biti = 0 ∧
      t.inflight = none)

end
end

