-- ==== Sys2Proof/Laws/State.lean ====
section
/-! SUPPORT. One lemma for each field and each update of the state. -/

namespace Sys2Proof.Machine

open Sys2Proof

variable (s : State)

/-! ### `setX` -/

@[simp] theorem setX_x (i : RegNum) (v : Word) : (s.setX i v).x = s.x.set i v := rfl
@[simp] theorem setX_busy (i : RegNum) (v : Word) : (s.setX i v).busy = s.busy := rfl
@[simp] theorem setX_err (i : RegNum) (v : Word) : (s.setX i v).err = s.err := rfl
@[simp] theorem setX_flagT (i : RegNum) (v : Word) : (s.setX i v).flagT = s.flagT := rfl
@[simp] theorem setX_flagEq (i : RegNum) (v : Word) : (s.setX i v).flagEq = s.flagEq := rfl
@[simp] theorem setX_link (i : RegNum) (v : Word) : (s.setX i v).link = s.link := rfl
@[simp] theorem setX_ecause (i : RegNum) (v : Word) : (s.setX i v).ecause = s.ecause := rfl
@[simp] theorem setX_esticky (i : RegNum) (v : Word) : (s.setX i v).esticky = s.esticky := rfl
@[simp] theorem setX_fid (i : RegNum) (v : Word) : (s.setX i v).fid = s.fid := rfl
@[simp] theorem setX_plen (i : RegNum) (v : Word) : (s.setX i v).plen = s.plen := rfl
@[simp] theorem setX_buf (i : RegNum) (v : Word) : (s.setX i v).buf = s.buf := rfl
@[simp] theorem setX_win (i : RegNum) (v : Word) : (s.setX i v).win = s.win := rfl
@[simp] theorem setX_fsm (i : RegNum) (v : Word) : (s.setX i v).fsm = s.fsm := rfl
@[simp] theorem setX_cnt (i : RegNum) (v : Word) : (s.setX i v).cnt = s.cnt := rfl
@[simp] theorem setX_stg (i : RegNum) (v : Word) : (s.setX i v).stg = s.stg := rfl
@[simp] theorem setX_acc (i : RegNum) (v : Word) : (s.setX i v).acc = s.acc := rfl
@[simp] theorem setX_biti (i : RegNum) (v : Word) : (s.setX i v).biti = s.biti := rfl
@[simp] theorem setX_inflight (i : RegNum) (v : Word) : (s.setX i v).inflight = s.inflight := rfl
@[simp] theorem setX_rx (i : RegNum) (v : Word) : (s.setX i v).rx = s.rx := rfl
@[simp] theorem setX_tx (i : RegNum) (v : Word) : (s.setX i v).tx = s.tx := rfl
@[simp] theorem setX_sent (i : RegNum) (v : Word) : (s.setX i v).sent = s.sent := rfl
@[simp] theorem setX_host (i : RegNum) (v : Word) : (s.setX i v).host = s.host := rfl
@[simp] theorem setX_answer (i : RegNum) (v : Word) : (s.setX i v).answer = s.answer := rfl

/-! ### `setQ` -/

@[simp] theorem setQ_x (q : PointNum) (p : Point) : (s.setQ q p).x = (s.x.set (evenReg q) p.x).set (oddReg q) p.y := rfl
@[simp] theorem setQ_busy (q : PointNum) (p : Point) : (s.setQ q p).busy = s.busy := rfl
@[simp] theorem setQ_err (q : PointNum) (p : Point) : (s.setQ q p).err = s.err := rfl
@[simp] theorem setQ_flagT (q : PointNum) (p : Point) : (s.setQ q p).flagT = s.flagT := rfl
@[simp] theorem setQ_flagEq (q : PointNum) (p : Point) : (s.setQ q p).flagEq = s.flagEq := rfl
@[simp] theorem setQ_link (q : PointNum) (p : Point) : (s.setQ q p).link = s.link := rfl
@[simp] theorem setQ_ecause (q : PointNum) (p : Point) : (s.setQ q p).ecause = s.ecause := rfl
@[simp] theorem setQ_esticky (q : PointNum) (p : Point) : (s.setQ q p).esticky = s.esticky := rfl
@[simp] theorem setQ_fid (q : PointNum) (p : Point) : (s.setQ q p).fid = s.fid := rfl
@[simp] theorem setQ_plen (q : PointNum) (p : Point) : (s.setQ q p).plen = s.plen := rfl
@[simp] theorem setQ_buf (q : PointNum) (p : Point) : (s.setQ q p).buf = s.buf := rfl
@[simp] theorem setQ_win (q : PointNum) (p : Point) : (s.setQ q p).win = s.win := rfl
@[simp] theorem setQ_fsm (q : PointNum) (p : Point) : (s.setQ q p).fsm = s.fsm := rfl
@[simp] theorem setQ_cnt (q : PointNum) (p : Point) : (s.setQ q p).cnt = s.cnt := rfl
@[simp] theorem setQ_stg (q : PointNum) (p : Point) : (s.setQ q p).stg = s.stg := rfl
@[simp] theorem setQ_acc (q : PointNum) (p : Point) : (s.setQ q p).acc = s.acc := rfl
@[simp] theorem setQ_biti (q : PointNum) (p : Point) : (s.setQ q p).biti = s.biti := rfl
@[simp] theorem setQ_inflight (q : PointNum) (p : Point) : (s.setQ q p).inflight = s.inflight := rfl
@[simp] theorem setQ_rx (q : PointNum) (p : Point) : (s.setQ q p).rx = s.rx := rfl
@[simp] theorem setQ_tx (q : PointNum) (p : Point) : (s.setQ q p).tx = s.tx := rfl
@[simp] theorem setQ_sent (q : PointNum) (p : Point) : (s.setQ q p).sent = s.sent := rfl
@[simp] theorem setQ_host (q : PointNum) (p : Point) : (s.setQ q p).host = s.host := rfl
@[simp] theorem setQ_answer (q : PointNum) (p : Point) : (s.setQ q p).answer = s.answer := rfl

/-! ### `setBufByte` -/

@[simp] theorem setBufByte_x (b : Slot) (o : Nat) (v : Byte) : (s.setBufByte b o v).x = s.x := rfl
@[simp] theorem setBufByte_busy (b : Slot) (o : Nat) (v : Byte) : (s.setBufByte b o v).busy = s.busy := rfl
@[simp] theorem setBufByte_err (b : Slot) (o : Nat) (v : Byte) : (s.setBufByte b o v).err = s.err := rfl
@[simp] theorem setBufByte_flagT (b : Slot) (o : Nat) (v : Byte) : (s.setBufByte b o v).flagT = s.flagT := rfl
@[simp] theorem setBufByte_flagEq (b : Slot) (o : Nat) (v : Byte) : (s.setBufByte b o v).flagEq = s.flagEq := rfl
@[simp] theorem setBufByte_link (b : Slot) (o : Nat) (v : Byte) : (s.setBufByte b o v).link = s.link := rfl
@[simp] theorem setBufByte_ecause (b : Slot) (o : Nat) (v : Byte) : (s.setBufByte b o v).ecause = s.ecause := rfl
@[simp] theorem setBufByte_esticky (b : Slot) (o : Nat) (v : Byte) : (s.setBufByte b o v).esticky = s.esticky := rfl
@[simp] theorem setBufByte_fid (b : Slot) (o : Nat) (v : Byte) : (s.setBufByte b o v).fid = s.fid := rfl
@[simp] theorem setBufByte_plen (b : Slot) (o : Nat) (v : Byte) : (s.setBufByte b o v).plen = s.plen := rfl
@[simp] theorem setBufByte_buf (b : Slot) (o : Nat) (v : Byte) : (s.setBufByte b o v).buf = Memory.write s.buf (bufKey b o) v := rfl
@[simp] theorem setBufByte_win (b : Slot) (o : Nat) (v : Byte) : (s.setBufByte b o v).win = s.win := rfl
@[simp] theorem setBufByte_fsm (b : Slot) (o : Nat) (v : Byte) : (s.setBufByte b o v).fsm = s.fsm := rfl
@[simp] theorem setBufByte_cnt (b : Slot) (o : Nat) (v : Byte) : (s.setBufByte b o v).cnt = s.cnt := rfl
@[simp] theorem setBufByte_stg (b : Slot) (o : Nat) (v : Byte) : (s.setBufByte b o v).stg = s.stg := rfl
@[simp] theorem setBufByte_acc (b : Slot) (o : Nat) (v : Byte) : (s.setBufByte b o v).acc = s.acc := rfl
@[simp] theorem setBufByte_biti (b : Slot) (o : Nat) (v : Byte) : (s.setBufByte b o v).biti = s.biti := rfl
@[simp] theorem setBufByte_inflight (b : Slot) (o : Nat) (v : Byte) : (s.setBufByte b o v).inflight = s.inflight := rfl
@[simp] theorem setBufByte_rx (b : Slot) (o : Nat) (v : Byte) : (s.setBufByte b o v).rx = s.rx := rfl
@[simp] theorem setBufByte_tx (b : Slot) (o : Nat) (v : Byte) : (s.setBufByte b o v).tx = s.tx := rfl
@[simp] theorem setBufByte_sent (b : Slot) (o : Nat) (v : Byte) : (s.setBufByte b o v).sent = s.sent := rfl
@[simp] theorem setBufByte_host (b : Slot) (o : Nat) (v : Byte) : (s.setBufByte b o v).host = s.host := rfl
@[simp] theorem setBufByte_answer (b : Slot) (o : Nat) (v : Byte) : (s.setBufByte b o v).answer = s.answer := rfl

/-! ### `setT` -/

@[simp] theorem setT_x (v : Bool) : (s.setT v).x = s.x := rfl
@[simp] theorem setT_busy (v : Bool) : (s.setT v).busy = s.busy := rfl
@[simp] theorem setT_err (v : Bool) : (s.setT v).err = s.err := rfl
@[simp] theorem setT_flagT (v : Bool) : (s.setT v).flagT = v := rfl
@[simp] theorem setT_flagEq (v : Bool) : (s.setT v).flagEq = s.flagEq := rfl
@[simp] theorem setT_link (v : Bool) : (s.setT v).link = s.link := rfl
@[simp] theorem setT_ecause (v : Bool) : (s.setT v).ecause = s.ecause := rfl
@[simp] theorem setT_esticky (v : Bool) : (s.setT v).esticky = s.esticky := rfl
@[simp] theorem setT_fid (v : Bool) : (s.setT v).fid = s.fid := rfl
@[simp] theorem setT_plen (v : Bool) : (s.setT v).plen = s.plen := rfl
@[simp] theorem setT_buf (v : Bool) : (s.setT v).buf = s.buf := rfl
@[simp] theorem setT_win (v : Bool) : (s.setT v).win = s.win := rfl
@[simp] theorem setT_fsm (v : Bool) : (s.setT v).fsm = s.fsm := rfl
@[simp] theorem setT_cnt (v : Bool) : (s.setT v).cnt = s.cnt := rfl
@[simp] theorem setT_stg (v : Bool) : (s.setT v).stg = s.stg := rfl
@[simp] theorem setT_acc (v : Bool) : (s.setT v).acc = s.acc := rfl
@[simp] theorem setT_biti (v : Bool) : (s.setT v).biti = s.biti := rfl
@[simp] theorem setT_inflight (v : Bool) : (s.setT v).inflight = s.inflight := rfl
@[simp] theorem setT_rx (v : Bool) : (s.setT v).rx = s.rx := rfl
@[simp] theorem setT_tx (v : Bool) : (s.setT v).tx = s.tx := rfl
@[simp] theorem setT_sent (v : Bool) : (s.setT v).sent = s.sent := rfl
@[simp] theorem setT_host (v : Bool) : (s.setT v).host = s.host := rfl
@[simp] theorem setT_answer (v : Bool) : (s.setT v).answer = s.answer := rfl

/-! ### `setEq` -/

@[simp] theorem setEq_x (v : Bool) : (s.setEq v).x = s.x := rfl
@[simp] theorem setEq_busy (v : Bool) : (s.setEq v).busy = s.busy := rfl
@[simp] theorem setEq_err (v : Bool) : (s.setEq v).err = s.err := rfl
@[simp] theorem setEq_flagT (v : Bool) : (s.setEq v).flagT = s.flagT := rfl
@[simp] theorem setEq_flagEq (v : Bool) : (s.setEq v).flagEq = v := rfl
@[simp] theorem setEq_link (v : Bool) : (s.setEq v).link = s.link := rfl
@[simp] theorem setEq_ecause (v : Bool) : (s.setEq v).ecause = s.ecause := rfl
@[simp] theorem setEq_esticky (v : Bool) : (s.setEq v).esticky = s.esticky := rfl
@[simp] theorem setEq_fid (v : Bool) : (s.setEq v).fid = s.fid := rfl
@[simp] theorem setEq_plen (v : Bool) : (s.setEq v).plen = s.plen := rfl
@[simp] theorem setEq_buf (v : Bool) : (s.setEq v).buf = s.buf := rfl
@[simp] theorem setEq_win (v : Bool) : (s.setEq v).win = s.win := rfl
@[simp] theorem setEq_fsm (v : Bool) : (s.setEq v).fsm = s.fsm := rfl
@[simp] theorem setEq_cnt (v : Bool) : (s.setEq v).cnt = s.cnt := rfl
@[simp] theorem setEq_stg (v : Bool) : (s.setEq v).stg = s.stg := rfl
@[simp] theorem setEq_acc (v : Bool) : (s.setEq v).acc = s.acc := rfl
@[simp] theorem setEq_biti (v : Bool) : (s.setEq v).biti = s.biti := rfl
@[simp] theorem setEq_inflight (v : Bool) : (s.setEq v).inflight = s.inflight := rfl
@[simp] theorem setEq_rx (v : Bool) : (s.setEq v).rx = s.rx := rfl
@[simp] theorem setEq_tx (v : Bool) : (s.setEq v).tx = s.tx := rfl
@[simp] theorem setEq_sent (v : Bool) : (s.setEq v).sent = s.sent := rfl
@[simp] theorem setEq_host (v : Bool) : (s.setEq v).host = s.host := rfl
@[simp] theorem setEq_answer (v : Bool) : (s.setEq v).answer = s.answer := rfl

/-! ### `answered` -/

@[simp] theorem answered_x (a : HostAnswer) : (s.answered a).x = s.x := rfl
@[simp] theorem answered_busy (a : HostAnswer) : (s.answered a).busy = s.busy := rfl
@[simp] theorem answered_err (a : HostAnswer) : (s.answered a).err = s.err := rfl
@[simp] theorem answered_flagT (a : HostAnswer) : (s.answered a).flagT = s.flagT := rfl
@[simp] theorem answered_flagEq (a : HostAnswer) : (s.answered a).flagEq = s.flagEq := rfl
@[simp] theorem answered_link (a : HostAnswer) : (s.answered a).link = s.link := rfl
@[simp] theorem answered_ecause (a : HostAnswer) : (s.answered a).ecause = s.ecause := rfl
@[simp] theorem answered_esticky (a : HostAnswer) : (s.answered a).esticky = s.esticky := rfl
@[simp] theorem answered_fid (a : HostAnswer) : (s.answered a).fid = s.fid := rfl
@[simp] theorem answered_plen (a : HostAnswer) : (s.answered a).plen = s.plen := rfl
@[simp] theorem answered_buf (a : HostAnswer) : (s.answered a).buf = s.buf := rfl
@[simp] theorem answered_win (a : HostAnswer) : (s.answered a).win = s.win := rfl
@[simp] theorem answered_fsm (a : HostAnswer) : (s.answered a).fsm = s.fsm := rfl
@[simp] theorem answered_cnt (a : HostAnswer) : (s.answered a).cnt = s.cnt := rfl
@[simp] theorem answered_stg (a : HostAnswer) : (s.answered a).stg = s.stg := rfl
@[simp] theorem answered_acc (a : HostAnswer) : (s.answered a).acc = s.acc := rfl
@[simp] theorem answered_biti (a : HostAnswer) : (s.answered a).biti = s.biti := rfl
@[simp] theorem answered_inflight (a : HostAnswer) : (s.answered a).inflight = s.inflight := rfl
@[simp] theorem answered_rx (a : HostAnswer) : (s.answered a).rx = s.rx := rfl
@[simp] theorem answered_tx (a : HostAnswer) : (s.answered a).tx = s.tx := rfl
@[simp] theorem answered_sent (a : HostAnswer) : (s.answered a).sent = s.sent := rfl
@[simp] theorem answered_host (a : HostAnswer) : (s.answered a).host = s.host := rfl
@[simp] theorem answered_answer (a : HostAnswer) : (s.answered a).answer = a := rfl

/-! ### `toPhase` -/

@[simp] theorem toPhase_x (p : Phase) : (s.toPhase p).x = s.x := rfl
@[simp] theorem toPhase_busy (p : Phase) : (s.toPhase p).busy = s.busy := rfl
@[simp] theorem toPhase_err (p : Phase) : (s.toPhase p).err = s.err := rfl
@[simp] theorem toPhase_flagT (p : Phase) : (s.toPhase p).flagT = s.flagT := rfl
@[simp] theorem toPhase_flagEq (p : Phase) : (s.toPhase p).flagEq = s.flagEq := rfl
@[simp] theorem toPhase_link (p : Phase) : (s.toPhase p).link = s.link := rfl
@[simp] theorem toPhase_ecause (p : Phase) : (s.toPhase p).ecause = s.ecause := rfl
@[simp] theorem toPhase_esticky (p : Phase) : (s.toPhase p).esticky = s.esticky := rfl
@[simp] theorem toPhase_fid (p : Phase) : (s.toPhase p).fid = s.fid := rfl
@[simp] theorem toPhase_plen (p : Phase) : (s.toPhase p).plen = s.plen := rfl
@[simp] theorem toPhase_buf (p : Phase) : (s.toPhase p).buf = s.buf := rfl
@[simp] theorem toPhase_win (p : Phase) : (s.toPhase p).win = s.win := rfl
@[simp] theorem toPhase_fsm (p : Phase) : (s.toPhase p).fsm = ⟨p, s.fsm.item⟩ := rfl
@[simp] theorem toPhase_cnt (p : Phase) : (s.toPhase p).cnt = 0 := rfl
@[simp] theorem toPhase_stg (p : Phase) : (s.toPhase p).stg = s.stg := rfl
@[simp] theorem toPhase_acc (p : Phase) : (s.toPhase p).acc = s.acc := rfl
@[simp] theorem toPhase_biti (p : Phase) : (s.toPhase p).biti = s.biti := rfl
@[simp] theorem toPhase_inflight (p : Phase) : (s.toPhase p).inflight = s.inflight := rfl
@[simp] theorem toPhase_rx (p : Phase) : (s.toPhase p).rx = s.rx := rfl
@[simp] theorem toPhase_tx (p : Phase) : (s.toPhase p).tx = s.tx := rfl
@[simp] theorem toPhase_sent (p : Phase) : (s.toPhase p).sent = s.sent := rfl
@[simp] theorem toPhase_host (p : Phase) : (s.toPhase p).host = s.host := rfl
@[simp] theorem toPhase_answer (p : Phase) : (s.toPhase p).answer = s.answer := rfl

/-! ### `accept` -/

@[simp] theorem accept_x (i : Instr) : (accept i s).x = s.x := rfl
@[simp] theorem accept_busy (i : Instr) : (accept i s).busy = true := rfl
@[simp] theorem accept_err (i : Instr) : (accept i s).err = false := rfl
@[simp] theorem accept_flagT (i : Instr) : (accept i s).flagT = s.flagT := rfl
@[simp] theorem accept_flagEq (i : Instr) : (accept i s).flagEq = s.flagEq := rfl
@[simp] theorem accept_link (i : Instr) : (accept i s).link = s.link := rfl
@[simp] theorem accept_ecause (i : Instr) : (accept i s).ecause = none := rfl
@[simp] theorem accept_esticky (i : Instr) : (accept i s).esticky = s.esticky := rfl
@[simp] theorem accept_fid (i : Instr) : (accept i s).fid = s.fid := rfl
@[simp] theorem accept_plen (i : Instr) : (accept i s).plen = s.plen := rfl
@[simp] theorem accept_buf (i : Instr) : (accept i s).buf = s.buf := rfl
@[simp] theorem accept_win (i : Instr) : (accept i s).win = s.win := rfl
@[simp] theorem accept_fsm (i : Instr) : (accept i s).fsm = s.fsm := rfl
@[simp] theorem accept_cnt (i : Instr) : (accept i s).cnt = s.cnt := rfl
@[simp] theorem accept_stg (i : Instr) : (accept i s).stg = s.stg := rfl
@[simp] theorem accept_acc (i : Instr) : (accept i s).acc = s.acc := rfl
@[simp] theorem accept_biti (i : Instr) : (accept i s).biti = s.biti := rfl
@[simp] theorem accept_inflight (i : Instr) : (accept i s).inflight = some i := rfl
@[simp] theorem accept_rx (i : Instr) : (accept i s).rx = s.rx := rfl
@[simp] theorem accept_tx (i : Instr) : (accept i s).tx = s.tx := rfl
@[simp] theorem accept_sent (i : Instr) : (accept i s).sent = s.sent := rfl
@[simp] theorem accept_host (i : Instr) : (accept i s).host = s.host := rfl
@[simp] theorem accept_answer (i : Instr) : (accept i s).answer = s.answer := rfl

/-! ### `endCommand` -/

@[simp] theorem endCommand_x : (endCommand s).x = s.x := rfl
@[simp] theorem endCommand_busy : (endCommand s).busy = false := rfl
@[simp] theorem endCommand_err : (endCommand s).err = s.err := rfl
@[simp] theorem endCommand_flagT : (endCommand s).flagT = s.flagT := rfl
@[simp] theorem endCommand_flagEq : (endCommand s).flagEq = s.flagEq := rfl
@[simp] theorem endCommand_link : (endCommand s).link = s.link := rfl
@[simp] theorem endCommand_ecause : (endCommand s).ecause = s.ecause := rfl
@[simp] theorem endCommand_esticky : (endCommand s).esticky = s.esticky := rfl
@[simp] theorem endCommand_fid : (endCommand s).fid = s.fid := rfl
@[simp] theorem endCommand_plen : (endCommand s).plen = s.plen := rfl
@[simp] theorem endCommand_buf : (endCommand s).buf = s.buf := rfl
@[simp] theorem endCommand_win : (endCommand s).win = s.win := rfl
@[simp] theorem endCommand_fsm : (endCommand s).fsm = .rest := rfl
@[simp] theorem endCommand_cnt : (endCommand s).cnt = 0 := rfl
@[simp] theorem endCommand_stg : (endCommand s).stg = 0 := rfl
@[simp] theorem endCommand_acc : (endCommand s).acc = .infinity := rfl
@[simp] theorem endCommand_biti : (endCommand s).biti = 0 := rfl
@[simp] theorem endCommand_inflight : (endCommand s).inflight = none := rfl
@[simp] theorem endCommand_rx : (endCommand s).rx = s.rx := rfl
@[simp] theorem endCommand_tx : (endCommand s).tx = s.tx := rfl
@[simp] theorem endCommand_sent : (endCommand s).sent = s.sent := rfl
@[simp] theorem endCommand_host : (endCommand s).host = s.host := rfl
@[simp] theorem endCommand_answer : (endCommand s).answer = s.answer := rfl

/-! ### `finish` -/

@[simp] theorem finish_x : (finish s).x = s.x := rfl
@[simp] theorem finish_busy : (finish s).busy = false := rfl
@[simp] theorem finish_err : (finish s).err = s.err := rfl
@[simp] theorem finish_flagT : (finish s).flagT = s.flagT := rfl
@[simp] theorem finish_flagEq : (finish s).flagEq = s.flagEq := rfl
@[simp] theorem finish_link : (finish s).link = s.link := rfl
@[simp] theorem finish_ecause : (finish s).ecause = s.ecause := rfl
@[simp] theorem finish_esticky : (finish s).esticky = s.esticky := rfl
@[simp] theorem finish_fid : (finish s).fid = s.fid := rfl
@[simp] theorem finish_plen : (finish s).plen = s.plen := rfl
@[simp] theorem finish_buf : (finish s).buf = s.buf := rfl
@[simp] theorem finish_win : (finish s).win = s.win := rfl
@[simp] theorem finish_fsm : (finish s).fsm = .rest := rfl
@[simp] theorem finish_cnt : (finish s).cnt = 0 := rfl
@[simp] theorem finish_stg : (finish s).stg = 0 := rfl
@[simp] theorem finish_acc : (finish s).acc = .infinity := rfl
@[simp] theorem finish_biti : (finish s).biti = 0 := rfl
@[simp] theorem finish_inflight : (finish s).inflight = none := rfl
@[simp] theorem finish_rx : (finish s).rx = s.rx := rfl
@[simp] theorem finish_tx : (finish s).tx = s.tx := rfl
@[simp] theorem finish_sent : (finish s).sent = s.sent := rfl
@[simp] theorem finish_host : (finish s).host = s.host := rfl
@[simp] theorem finish_answer : (finish s).answer = s.answer := rfl

/-! ### `raise` -/

@[simp] theorem raise_x (c : Cause) : (raise c s).x = s.x := rfl
@[simp] theorem raise_busy (c : Cause) : (raise c s).busy = false := rfl
@[simp] theorem raise_err (c : Cause) : (raise c s).err = true := rfl
@[simp] theorem raise_flagT (c : Cause) : (raise c s).flagT = s.flagT := rfl
@[simp] theorem raise_flagEq (c : Cause) : (raise c s).flagEq = s.flagEq := rfl
@[simp] theorem raise_link (c : Cause) : (raise c s).link = if c.aborts then .failed else s.link := rfl
@[simp] theorem raise_ecause (c : Cause) : (raise c s).ecause = some c := rfl
@[simp] theorem raise_esticky (c : Cause) : (raise c s).esticky = s.esticky ||| c.bit := rfl
@[simp] theorem raise_fid (c : Cause) : (raise c s).fid = s.fid := rfl
@[simp] theorem raise_plen (c : Cause) : (raise c s).plen = s.plen := rfl
@[simp] theorem raise_buf (c : Cause) : (raise c s).buf = s.buf := rfl
@[simp] theorem raise_win (c : Cause) : (raise c s).win = s.win := rfl
@[simp] theorem raise_fsm (c : Cause) : (raise c s).fsm = .rest := rfl
@[simp] theorem raise_cnt (c : Cause) : (raise c s).cnt = 0 := rfl
@[simp] theorem raise_stg (c : Cause) : (raise c s).stg = 0 := rfl
@[simp] theorem raise_acc (c : Cause) : (raise c s).acc = .infinity := rfl
@[simp] theorem raise_biti (c : Cause) : (raise c s).biti = 0 := rfl
@[simp] theorem raise_inflight (c : Cause) : (raise c s).inflight = none := rfl
@[simp] theorem raise_rx (c : Cause) : (raise c s).rx = s.rx := rfl
@[simp] theorem raise_tx (c : Cause) : (raise c s).tx = s.tx := rfl
@[simp] theorem raise_sent (c : Cause) : (raise c s).sent = s.sent := rfl
@[simp] theorem raise_host (c : Cause) : (raise c s).host = s.host := rfl
@[simp] theorem raise_answer (c : Cause) : (raise c s).answer = s.answer := rfl

end Sys2Proof.Machine
end

