-- ==== Sys2Proof/Laws/Memory.lean ====
section
/-! SUPPORT. Laws of the cell list and of the two memory primitives (20_memory.md R63): a read after a write, and
the canonical form. -/

namespace Sys2Proof.Machine

open Sys2Proof

/-! ## The canonical form -/

theorem Memory.above_mono {j k : Nat} (h : j ≤ k) : ∀ m : Memory, Memory.above k m = true → Memory.above j m = true
  | [], _ => rfl
  | (a, b) :: m, hm => by
    simp only [Memory.above, Bool.and_eq_true, decide_eq_true_eq] at hm ⊢
    exact ⟨⟨by omega, hm.1.2⟩, hm.2⟩

/-- Below the first key of a rising list everything reads as unlisted. -/
theorem Memory.read_of_above {k a : Nat} (h : a ≤ k) :
    ∀ m : Memory, Memory.above k m = true → Memory.read m a = Config.resetByte
  | [], _ => rfl
  | (c, b) :: m, hm => by
    simp only [Memory.above, Bool.and_eq_true, decide_eq_true_eq] at hm
    have hne : a ≠ c := by omega
    simp only [Memory.read, hne, if_false]
    exact Memory.read_of_above (by omega) m hm.2

theorem Memory.above_push {k a : Nat} {m : Memory} (b : Byte) (hk : k < a) (hm : Memory.above a m = true) :
    Memory.above k (Memory.push m a b) = true := by
  unfold Memory.push
  split
  · exact Memory.above_mono (by omega) m hm
  · next hb => simp [Memory.above, hk, hb, hm]

theorem Memory.above_write {k a : Nat} (b : Byte) (hk : k < a) :
    ∀ m : Memory, Memory.above k m = true → Memory.above k (Memory.write m a b) = true
  | [], _ => Memory.above_push b hk rfl
  | (c, d) :: m, hm => by
    have hm' := hm
    simp only [Memory.above, Bool.and_eq_true, decide_eq_true_eq] at hm'
    unfold Memory.write
    split
    · next hlt =>
      exact Memory.above_push b hk (by simp [Memory.above, hlt, hm'.1.2, hm'.2])
    · split
      · next heq => subst heq; exact Memory.above_push b hk hm'.2
      · simp only [Memory.above, Bool.and_eq_true, decide_eq_true_eq]
        exact ⟨hm'.1, Memory.above_write b (by omega) m hm'.2⟩

theorem Memory.wf_of_above {k : Nat} : ∀ m : Memory, Memory.above k m = true → Memory.wf m = true
  | [], _ => rfl
  | (a, b) :: m, hm => by
    simp only [Memory.above, Memory.wf, Bool.and_eq_true, decide_eq_true_eq] at hm ⊢
    exact ⟨hm.1.2, hm.2⟩

theorem Memory.wf_push {a : Nat} {m : Memory} (b : Byte) (hm : Memory.above a m = true) :
    Memory.wf (Memory.push m a b) = true := by
  unfold Memory.push
  split
  · exact Memory.wf_of_above m hm
  · next hb => simp [Memory.wf, hb, hm]

/-- A write keeps the canonical form. -/
theorem Memory.write_wf (m : Memory) (a : Nat) (b : Byte) (hm : Memory.wf m = true) :
    Memory.wf (Memory.write m a b) = true := by
  cases m with
  | nil => exact Memory.wf_push b rfl
  | cons c m =>
    obtain ⟨c, d⟩ := c
    have hm' := hm
    simp only [Memory.wf, Bool.and_eq_true] at hm'
    unfold Memory.write
    split
    · next hlt => exact Memory.wf_push b (by simp [Memory.above, hlt, hm'.1, hm'.2])
    · split
      · next heq => subst heq; exact Memory.wf_push b hm'.2
      · simp only [Memory.wf, Bool.and_eq_true]
        exact ⟨hm'.1, Memory.above_write b (by omega) m hm'.2⟩

/-! ## Read after write -/

theorem Memory.read_push_same (m : Memory) (a : Nat) (b : Byte) (hm : Memory.above a m = true) :
    Memory.read (Memory.push m a b) a = b := by
  unfold Memory.push
  split
  · next hb => rw [Memory.read_of_above (Nat.le_refl a) m hm, hb]
  · simp [Memory.read]

theorem Memory.read_push_other (m : Memory) {a c : Nat} (b : Byte) (h : c ≠ a) :
    Memory.read (Memory.push m a b) c = Memory.read m c := by
  unfold Memory.push
  split
  · rfl
  · simp [Memory.read, h]

theorem Memory.read_write_same_above {k a : Nat} (b : Byte) :
    ∀ m : Memory, Memory.above k m = true → Memory.read (Memory.write m a b) a = b
  | [], _ => Memory.read_push_same [] a b rfl
  | (c, d) :: m, hm => by
    simp only [Memory.above, Bool.and_eq_true, decide_eq_true_eq] at hm
    unfold Memory.write
    split
    · next hlt => exact Memory.read_push_same _ a b (by simp [Memory.above, hlt, hm.1.2, hm.2])
    · split
      · next heq => subst heq; exact Memory.read_push_same _ a b hm.2
      · next hne =>
        simp only [Memory.read, hne, if_false]
        exact Memory.read_write_same_above b m hm.2

/-- A byte read after it was written is the byte written. -/
theorem Memory.read_write_same (m : Memory) (a : Nat) (b : Byte) (hm : Memory.wf m = true) :
    Memory.read (Memory.write m a b) a = b := by
  cases m with
  | nil => exact Memory.read_push_same [] a b rfl
  | cons c m =>
    obtain ⟨c, d⟩ := c
    simp only [Memory.wf, Bool.and_eq_true] at hm
    unfold Memory.write
    split
    · next hlt => exact Memory.read_push_same _ a b (by simp [Memory.above, hlt, hm.1, hm.2])
    · split
      · next heq => subst heq; exact Memory.read_push_same _ a b hm.2
      · next hne =>
        simp only [Memory.read, hne, if_false]
        exact Memory.read_write_same_above b m hm.2

/-- A write leaves every other byte alone, in canonical form or not. -/
theorem Memory.read_write_other {a c : Nat} (b : Byte) (h : c ≠ a) :
    ∀ m : Memory, Memory.read (Memory.write m a b) c = Memory.read m c
  | [] => Memory.read_push_other [] b h
  | (k, d) :: m => by
    unfold Memory.write
    split
    · exact Memory.read_push_other _ b h
    · split
      · next heq =>
        subst heq
        rw [Memory.read_push_other _ b h]
        simp [Memory.read, h]
      · simp only [Memory.read]
        rw [Memory.read_write_other b h m]

/-- A write lists no key but its own and those listed before. -/
theorem Memory.write_keys (p : Nat → Bool) {a : Nat} (b : Byte) (ha : p a = true) :
    ∀ m : Memory, (m.all fun c => p c.1) = true → ((Memory.write m a b).all fun c => p c.1) = true
  | [], _ => by unfold Memory.write Memory.push; split <;> simp [ha]
  | (k, d) :: m, hm => by
    have hm' := hm
    simp only [List.all_cons, Bool.and_eq_true] at hm'
    unfold Memory.write Memory.push
    split
    · split <;> simp [ha, hm'.1, hm'.2]
    · split
      · split <;> simp [ha, hm'.2]
      · simp only [List.all_cons, Bool.and_eq_true]
        exact ⟨hm'.1, Memory.write_keys p b ha m hm'.2⟩

/-! ## Keys -/

/-- Different bytes of the buffers have different keys. -/
theorem bufKey_inj {b c : Slot} {o p : Nat} (ho : o < 256) (hp : p < 256) (h : bufKey b o = bufKey c p) :
    b = c ∧ o = p := by
  unfold bufKey at h
  exact ⟨Fin.ext (by omega), by omega⟩

theorem bufKey_exists (b : Slot) {o : Nat} (ho : o ≤ 254) : keyExists (bufKey b o) = true := by
  have hb := b.isLt
  have h1 : bufKey b o < 1024 := by unfold bufKey; omega
  have h2 : bufKey b o % 256 ≤ 254 := by unfold bufKey; omega
  simp [keyExists, h1, h2]

theorem plenAt_le (s : State) (b : Slot) : s.plenAt b ≤ 255 := by
  have := (s.plen.extractLsb' (8 * b.val) 8).isLt
  unfold State.plenAt
  omega

/-! ## The memory primitives -/

@[simp] theorem memRead_length (s : State) (b : Slot) (o w : Nat) : (s.memRead b o w).length = w := by
  simp [State.memRead]

/-- `MemWrite` changes `BUF` only. -/
theorem memWrite_eq_buf (b : Slot) : ∀ (bytes : List Byte) (o : Nat) (s : State),
    s.memWrite b o bytes = { s with buf := (s.memWrite b o bytes).buf }
  | [], _, _ => rfl
  | v :: vs, o, s => by
    unfold State.memWrite
    rw [memWrite_eq_buf b vs (o + 1) (s.setBufByte b o v)]
    rfl

/-- `MemWrite` keeps the canonical form. -/
theorem memWrite_wf (b : Slot) : ∀ (bytes : List Byte) (o : Nat) (s : State), Memory.wf s.buf = true →
    Memory.wf (s.memWrite b o bytes).buf = true
  | [], _, _, h => h
  | v :: vs, o, s, h => memWrite_wf b vs (o + 1) (s.setBufByte b o v) (Memory.write_wf _ _ _ h)

/-- `MemWrite` leaves every byte outside the bytes it names as it was. -/
theorem memWrite_other (b : Slot) (k : Nat) : ∀ (bytes : List Byte) (o : Nat) (s : State),
    (∀ i < bytes.length, k ≠ bufKey b (o + i)) →
    Memory.read (s.memWrite b o bytes).buf k = Memory.read s.buf k
  | [], _, _, _ => rfl
  | v :: vs, o, s, h => by
    have h0 : k ≠ bufKey b o := by simpa using h 0 (by simp)
    unfold State.memWrite
    rw [memWrite_other b k vs (o + 1) (s.setBufByte b o v)]
    · exact Memory.read_write_other v h0 s.buf
    · intro i hi
      have := h (i + 1) (by simp; omega)
      rwa [show o + (i + 1) = o + 1 + i by omega] at this

/-- `MemWrite` puts byte `i` at offset `o + i`. -/
theorem memWrite_same (b : Slot) : ∀ (bytes : List Byte) (o : Nat) (s : State), Memory.wf s.buf = true →
    ∀ i (hi : i < bytes.length), Memory.read (s.memWrite b o bytes).buf (bufKey b (o + i)) = bytes[i]
  | [], _, _, _, i, hi => by simp at hi
  | v :: vs, o, s, h, i, hi => by
    unfold State.memWrite
    cases i with
    | zero =>
      rw [memWrite_other b _ vs (o + 1) (s.setBufByte b o v)]
      · simpa using Memory.read_write_same s.buf (bufKey b o) v h
      · intro i _ hk
        simp only [bufKey] at hk
        omega
    | succ i =>
      rw [show o + (i + 1) = o + 1 + i by omega]
      simpa using memWrite_same b vs (o + 1) (s.setBufByte b o v) (Memory.write_wf _ _ _ h) i (by simpa using hi)

end Sys2Proof.Machine
end

