-- ==== Sys2Proof/Laws/Channel.lean ====
section
/-! SUPPORT. The laws of the channel engine: what one attempt can do, why the bound on the events never cuts a
command short, and the three laws by which a run of a channel command is followed event by event. -/

namespace Sys2Proof.Machine

open Sys2Proof

/-! ## The ports -/

theorem chanRead_nil {s : State} (h : s.rx = []) : chanRead s = (.wouldBlock, s) := by
  simp [chanRead, h]

theorem chanRead_cons {s : State} {a : RxAnswer} {r : List RxAnswer} (h : s.rx = a :: r) :
    chanRead s = (a, { s with rx := r }) := by
  simp [chanRead, h]

theorem chanWrite_nil {s : State} (b : Byte) (h : s.tx = []) : chanWrite b s = (.wouldBlock, s) := by
  simp [chanWrite, h]

theorem chanWrite_accepted {s : State} {b : Byte} {r : List TxAnswer} (h : s.tx = .accepted :: r) :
    chanWrite b s = (.accepted, { s with tx := r, sent := s.sent ++ [b] }) := by
  simp [chanWrite, h]

theorem chanWrite_refused {s : State} {b : Byte} {a : TxAnswer} {r : List TxAnswer} (h : s.tx = a :: r)
    (ha : a ≠ .accepted) : chanWrite b s = (a, { s with tx := r }) := by
  cases a <;> simp_all [chanWrite]

/-- Everything one attempt to send can come to (20_memory.md R70). -/
theorem sendByte_cases {b : Byte} {k : State → State} {s : State} {e : Event} (h : sendByte b k s = e) :
    (∃ r, s.tx = .accepted :: r ∧ e = .went (k { s with tx := r, sent := s.sent ++ [b] })) ∨
    (s.tx = [] ∧ e = .holds s) ∨
    (∃ r, s.tx = .wouldBlock :: r ∧ e = .holds { s with tx := r }) ∨
    (∃ r, (s.tx = .closed :: r ∨ s.tx = .hardError :: r) ∧ e = .went (raise .transportError { s with tx := r })) := by
  subst h
  rcases htx : s.tx with _ | ⟨a, r⟩
  · simp [sendByte, chanWrite_nil b htx]
  · cases a with
    | accepted => simp [sendByte, chanWrite_accepted htx]
    | wouldBlock => simp [sendByte, chanWrite_refused htx]
    | closed => simp [sendByte, chanWrite_refused htx]
    | hardError => simp [sendByte, chanWrite_refused htx]

/-- Everything one attempt to receive can come to (20_memory.md R69). -/
theorem receiveByte_cases {c : Cause} {k : Byte → State → State} {s : State} {e : Event}
    (h : receiveByte c k s = e) :
    (∃ b r, s.rx = .byte b :: r ∧ e = .went (k b { s with rx := r })) ∨
    (s.rx = [] ∧ e = .holds s) ∨
    (∃ r, s.rx = .wouldBlock :: r ∧ e = .holds { s with rx := r }) ∨
    (∃ r, s.rx = .closed :: r ∧ e = .went (raise c { s with rx := r })) ∨
    (∃ r, s.rx = .hardError :: r ∧ e = .went (raise .transportError { s with rx := r })) := by
  subst h
  rcases hrx : s.rx with _ | ⟨a, r⟩
  · simp [receiveByte, chanRead_nil hrx]
  · cases a <;> simp [receiveByte, chanRead_cons hrx]

/-! ## What follows an attempt leaves alone -/

/-- The fields that no continuation of a channel command touches. -/
structure Keeps (s t : State) : Prop where
  x : t.x = s.x
  flagT : t.flagT = s.flagT
  flagEq : t.flagEq = s.flagEq
  plen : t.plen = s.plen
  host : t.host = s.host
  answer : t.answer = s.answer
  rx : t.rx = s.rx
  tx : t.tx = s.tx
  sent : t.sent = s.sent

theorem Keeps.refl (s : State) : Keeps s s := ⟨rfl, rfl, rfl, rfl, rfl, rfl, rfl, rfl, rfl⟩

theorem Keeps.trans {s t u : State} (h : Keeps s t) (k : Keeps t u) : Keeps s u :=
  ⟨k.x.trans h.x, k.flagT.trans h.flagT, k.flagEq.trans h.flagEq, k.plen.trans h.plen, k.host.trans h.host,
   k.answer.trans h.answer, k.rx.trans h.rx, k.tx.trans h.tx, k.sent.trans h.sent⟩

theorem keeps_raise (c : Cause) (s : State) : Keeps s (raise c s) := ⟨rfl, rfl, rfl, rfl, rfl, rfl, rfl, rfl, rfl⟩

theorem keeps_finish (s : State) : Keeps s (finish s) := ⟨rfl, rfl, rfl, rfl, rfl, rfl, rfl, rfl, rfl⟩

theorem keeps_toPhase (p : Phase) (s : State) : Keeps s (s.toPhase p) :=
  ⟨rfl, rfl, rfl, rfl, rfl, rfl, rfl, rfl, rfl⟩

theorem keeps_enterSend (it : Item) (s : State) : Keeps s (enterSend it s) :=
  ⟨rfl, rfl, rfl, rfl, rfl, rfl, rfl, rfl, rfl⟩

theorem keeps_enterReceive (it : Item) (s : State) : Keeps s (enterReceive it s) :=
  ⟨rfl, rfl, rfl, rfl, rfl, rfl, rfl, rfl, rfl⟩

theorem keeps_enterStop (s : State) : Keeps s (enterStop s) := ⟨rfl, rfl, rfl, rfl, rfl, rfl, rfl, rfl, rfl⟩

theorem keeps_enterAckRx (s : State) : Keeps s (enterAckRx s) := ⟨rfl, rfl, rfl, rfl, rfl, rfl, rfl, rfl, rfl⟩

theorem keeps_enterTxPayload (s : State) : Keeps s (enterTxPayload s) := by
  unfold enterTxPayload; split <;> exact keeps_toPhase _ s

theorem keeps_enterPayload (s : State) : Keeps s (enterPayload s) := by
  unfold enterPayload
  split
  · exact keeps_enterStop s
  · exact keeps_toPhase _ s

theorem keeps_nextItem {f : Item → State → State} (hf : ∀ it s, Keeps s (f it s)) (s : State) :
    Keeps s (nextItem f s) := by
  unfold nextItem
  split
  · exact hf _ s
  · exact keeps_finish s

theorem keeps_afterFrameSent (s : State) : Keeps s (afterFrameSent s) := by
  unfold afterFrameSent
  split
  · exact keeps_toPhase _ s
  · exact keeps_finish s

theorem keeps_afterTokenReceived (s : State) : Keeps s (afterTokenReceived s) := by
  unfold afterTokenReceived
  split
  · exact keeps_nextItem keeps_enterSend s
  · exact keeps_finish s

theorem keeps_afterFrameReceived (s : State) : Keeps s (afterFrameReceived s) := by
  unfold afterFrameReceived
  split
  · exact keeps_toPhase _ s
  · exact keeps_finish s

theorem keeps_afterTokenSent (s : State) : Keeps s (afterTokenSent s) := by
  unfold afterTokenSent
  split
  · exact keeps_nextItem keeps_enterReceive s
  · exact keeps_finish s

theorem keeps_countByte {n : Nat} {f : State → State} (hf : ∀ s, Keeps s (f s)) (s : State) :
    Keeps s (countByte n f s) := by
  unfold countByte
  split
  · exact hf s
  · exact ⟨rfl, rfl, rfl, rfl, rfl, rfl, rfl, rfl, rfl⟩

theorem keeps_sinkByte (it : Item) (j : Nat) (v : Byte) (s : State) : Keeps s (s.sinkByte it j v) := by
  cases it <;> exact ⟨rfl, rfl, rfl, rfl, rfl, rfl, rfl, rfl, rfl⟩

theorem keeps_huntByte (b : Byte) (s : State) : Keeps s (huntByte b s) := by
  have h : Keeps s { s with win := shiftIn s.win b } := ⟨rfl, rfl, rfl, rfl, rfl, rfl, rfl, rfl, rfl⟩
  unfold huntByte
  dsimp only
  split
  · exact h.trans (keeps_enterPayload _)
  · exact h

theorem keeps_payloadByte (b : Byte) (s : State) : Keeps s (payloadByte b s) :=
  (keeps_sinkByte _ _ _ _).trans (keeps_countByte keeps_enterStop _)

theorem keeps_stopTest (s : State) : Keeps s (stopTest s) := by
  unfold stopTest
  split
  · exact keeps_afterFrameReceived s
  · exact keeps_raise _ s

theorem keeps_tokenTest (s : State) : Keeps s (tokenTest s) := by
  unfold tokenTest
  split
  · exact keeps_afterTokenReceived s
  · exact keeps_raise _ s

theorem keeps_stopByte (b : Byte) (s : State) : Keeps s (stopByte b s) :=
  Keeps.trans (t := { s with stg := shiftIn s.stg b }) ⟨rfl, rfl, rfl, rfl, rfl, rfl, rfl, rfl, rfl⟩
    (keeps_countByte keeps_stopTest _)

theorem keeps_tokenByte (b : Byte) (s : State) : Keeps s (tokenByte b s) :=
  Keeps.trans (t := { s with stg := shiftIn s.stg b }) ⟨rfl, rfl, rfl, rfl, rfl, rfl, rfl, rfl, rfl⟩
    (keeps_countByte keeps_tokenTest _)

/-! ## What an event does to the ports -/

/-- An event passes the pacing point without an attempt, or makes one attempt of one port. -/
inductive Used (s t : State) : Prop where
  | pacing (h : s.fsm.phase = .pace) (k : Keeps s t) (ht : t.fsm.phase = .ackRx)
  | read (a : RxAnswer) (r : List RxAnswer) (h : s.rx = a :: r) (k : Keeps { s with rx := r } t)
  | wrote (b : Byte) (r : List TxAnswer) (h : s.tx = .accepted :: r)
      (k : Keeps { s with tx := r, sent := s.sent ++ [b] } t)
  | refused (a : TxAnswer) (r : List TxAnswer) (h : s.tx = a :: r) (ha : a ≠ .accepted)
      (k : Keeps { s with tx := r } t)

theorem sendByte_used {b : Byte} {k : State → State} (hk : ∀ s, Keeps s (k s)) {s t : State}
    (h : sendByte b k s = .went t) : Used s t := by
  rcases sendByte_cases h with ⟨r, hr, he⟩ | ⟨_, he⟩ | ⟨r, hr, he⟩ | ⟨r, hr, he⟩
  · cases he; exact .wrote b r hr (hk _)
  · cases he
  · cases he
  · cases he
    rcases hr with hr | hr
    · exact .refused _ r hr (by simp) (keeps_raise _ _)
    · exact .refused _ r hr (by simp) (keeps_raise _ _)

theorem receiveByte_used {c : Cause} {k : Byte → State → State} (hk : ∀ b s, Keeps s (k b s)) {s t : State}
    (h : receiveByte c k s = .went t) : Used s t := by
  rcases receiveByte_cases h with ⟨b, r, hr, he⟩ | ⟨_, he⟩ | ⟨r, hr, he⟩ | ⟨r, hr, he⟩ | ⟨r, hr, he⟩
  · cases he; exact .read _ r hr (hk _ _)
  · cases he
  · cases he
  · cases he; exact .read _ r hr (keeps_raise _ _)
  · cases he; exact .read _ r hr (keeps_raise _ _)

/-- An event that goes on used up an answer, or passed the pacing point. -/
theorem blockEvent_used {s t : State} (h : blockEvent s = .went t) : Used s t := by
  unfold blockEvent at h
  split at h
  · cases h
  · exact receiveByte_used keeps_huntByte h
  · exact receiveByte_used keeps_payloadByte h
  · exact receiveByte_used keeps_stopByte h
  · exact sendByte_used (keeps_countByte keeps_enterTxPayload) h
  · exact sendByte_used (keeps_countByte (keeps_toPhase _)) h
  · exact sendByte_used (keeps_countByte keeps_afterFrameSent) h
  · exact sendByte_used (keeps_countByte keeps_afterTokenSent) h
  · exact receiveByte_used keeps_tokenByte h
  · next hp => cases h; exact .pacing hp (keeps_enterAckRx s) rfl

/-- A hold changes nothing but the list of answers, from which the `WouldBlock` is gone (43_frame.md R181). -/
theorem blockEvent_holds {s t : State} (h : blockEvent s = .holds t) :
    t = s ∨ (∃ r, s.rx = .wouldBlock :: r ∧ t = { s with rx := r }) ∨
      ∃ r, s.tx = .wouldBlock :: r ∧ t = { s with tx := r } := by
  have hs : ∀ {b : Byte} {k : State → State}, sendByte b k s = .holds t →
      t = s ∨ ∃ r, s.tx = .wouldBlock :: r ∧ t = { s with tx := r } := by
    intro b k h
    rcases sendByte_cases h with ⟨r, _, he⟩ | ⟨_, he⟩ | ⟨r, hr, he⟩ | ⟨r, _, he⟩ <;> cases he
    · exact .inl rfl
    · exact .inr ⟨r, hr, rfl⟩
  have hr : ∀ {c : Cause} {k : Byte → State → State}, receiveByte c k s = .holds t →
      t = s ∨ ∃ r, s.rx = .wouldBlock :: r ∧ t = { s with rx := r } := by
    intro c k h
    rcases receiveByte_cases h with ⟨b, r, _, he⟩ | ⟨_, he⟩ | ⟨r, hr, he⟩ | ⟨r, _, he⟩ | ⟨r, _, he⟩ <;> cases he
    · exact .inl rfl
    · exact .inr ⟨r, hr, rfl⟩
  unfold blockEvent at h
  split at h
  · cases h; exact .inl rfl
  · exact (hr h).imp_right .inl
  · exact (hr h).imp_right .inl
  · exact (hr h).imp_right .inl
  · exact (hs h).imp_right .inr
  · exact (hs h).imp_right .inr
  · exact (hs h).imp_right .inr
  · exact (hs h).imp_right .inr
  · exact (hr h).imp_right .inl
  · cases h

/-! ## The bound on the events never cuts a command short -/

/-- How many events can still come: two for each answer in store, one more at the pacing point. -/
def room (s : State) : Nat := 2 * (s.rx.length + s.tx.length) + if s.fsm.phase = .pace then 1 else 0

theorem room_lt_budget (s : State) : room s < budget s := by
  unfold room budget
  split <;> omega

theorem room_le (t : State) : room t ≤ 2 * (t.rx.length + t.tx.length) + 1 := by
  unfold room
  split <;> omega

theorem blockEvent_room {s t : State} (h : blockEvent s = .went t) : room t < room s := by
  have hle := room_le t
  cases blockEvent_used h with
  | pacing hp k ht =>
    have h1 := k.rx; have h2 := k.tx
    simp [room, hp, ht, h1, h2]
  | read a r hr k =>
    have h1 : t.rx = r := k.rx
    have h2 : t.tx = s.tx := k.tx
    have : room s ≥ 2 * (s.rx.length + s.tx.length) := by unfold room; omega
    rw [h1, h2] at hle
    rw [hr, List.length_cons] at this
    omega
  | wrote b r hr k =>
    have h1 : t.rx = s.rx := k.rx
    have h2 : t.tx = r := k.tx
    have : room s ≥ 2 * (s.rx.length + s.tx.length) := by unfold room; omega
    rw [h1, h2] at hle
    rw [hr, List.length_cons] at this
    omega
  | refused a r hr _ k =>
    have h1 : t.rx = s.rx := k.rx
    have h2 : t.tx = r := k.tx
    have : room s ≥ 2 * (s.rx.length + s.tx.length) := by unfold room; omega
    rw [h1, h2] at hle
    rw [hr, List.length_cons] at this
    omega

/-- Any two bounds above `room` give the same run. -/
theorem runBlock_enough : ∀ {n m : Nat} {s : State}, room s < n → room s < m → runBlock n s = runBlock m s
  | 0, _, _, h, _ => by omega
  | _, 0, _, _, h => by omega
  | n + 1, m + 1, s, hn, hm => by
    unfold runBlock
    split
    · split
      · next t ht =>
        have := blockEvent_room ht
        exact runBlock_enough (by omega) (by omega)
      · rfl
    · rfl

/-! ## Following a run event by event -/

/-- An idle block does nothing. -/
theorem resume_idle {s : State} (h : s.busy = false) : resume s = s := by
  simp [resume, h]

/-- A hold ends the turn. -/
theorem resume_holds {s t : State} (hb : s.busy = true) (h : blockEvent s = .holds t) : resume s = t := by
  simp [resume, budget, runBlock, hb, h]

/-- An event that goes on leaves the rest of the turn to the state it leads to. -/
theorem resume_went {s t : State} (hb : s.busy = true) (h : blockEvent s = .went t) : resume s = resume t := by
  have hr := blockEvent_room h
  have hs := room_lt_budget s
  have ht := room_lt_budget t
  have h1 : resume s = runBlock (budget s - 1) t := by
    obtain ⟨n, hn⟩ : ∃ n, budget s = n + 1 := ⟨budget s - 1, by omega⟩
    simp [resume, runBlock, hb, h, hn]
  rw [h1]
  cases hbt : t.busy with
  | false =>
    rw [resume_idle hbt]
    cases budget s - 1 <;> simp [runBlock, hbt]
  | true =>
    simp only [resume, hbt, if_true]
    exact runBlock_enough (by omega) ht

/-- The induction by which a property of every turn of the block is proved: it holds where a turn stops, and it
goes back over every event. -/
theorem resume_induction {motive : State → State → Prop} (idle : ∀ s, s.busy = false → motive s s)
    (holds : ∀ s t, s.busy = true → blockEvent s = .holds t → motive s t)
    (went : ∀ s t, s.busy = true → blockEvent s = .went t → motive t (resume t) → motive s (resume t))
    (s : State) : motive s (resume s) := by
  induction hn : room s using Nat.strong_induction_on generalizing s with
  | _ n ih =>
    cases hb : s.busy with
    | false => rw [resume_idle hb]; exact idle s hb
    | true =>
      cases he : blockEvent s with
      | holds t => rw [resume_holds hb he]; exact holds s t hb he
      | went t =>
        rw [resume_went hb he]
        exact went s t hb he (ih _ (hn ▸ blockEvent_room he) t rfl)

end Sys2Proof.Machine
end

