-- ==== Sys2Proof/Laws/Ops.lean ====
section
/-! SUPPORT. One law for each shared operation outside the channel engine: registers and points, the ends of a
command, register and point results, byte conversions, the guarded host transactions. -/

namespace Sys2Proof.Machine

open Sys2Proof

/-! ## Registers and points -/

theorem getX_setX (s : State) (i j : RegNum) (v : Word) :
    (s.setX i v).getX j = if i = j then v else s.getX j := by
  simp only [State.getX, State.setX, Fin.getElem_fin, Vector.getElem_set]
  by_cases h : i = j
  · simp [h]
  · simp [h, Fin.val_inj]

@[simp] theorem getX_setX_self (s : State) (i : RegNum) (v : Word) : (s.setX i v).getX i = v := by
  simp [getX_setX]

theorem evenReg_ne_oddReg (q r : PointNum) : evenReg q ≠ oddReg r := by
  intro h
  have := congrArg Fin.val h
  simp only [evenReg, oddReg] at this
  omega

theorem evenReg_inj {q r : PointNum} (h : evenReg q = evenReg r) : q = r := by
  have := congrArg Fin.val h
  simp only [evenReg] at this
  exact Fin.ext (by omega)

theorem oddReg_inj {q r : PointNum} (h : oddReg q = oddReg r) : q = r := by
  have := congrArg Fin.val h
  simp only [oddReg] at this
  exact Fin.ext (by omega)

theorem getX_setQ (s : State) (q : PointNum) (p : Point) (j : RegNum) :
    (s.setQ q p).getX j = if oddReg q = j then p.y else if evenReg q = j then p.x else s.getX j := by
  simp [State.setQ, getX_setX]

theorem getQ_setQ (s : State) (q r : PointNum) (p : Point) :
    (s.setQ q p).getQ r = if q = r then p else s.getQ r := by
  by_cases h : q = r
  · subst h
    simp [State.getQ, getX_setQ, (evenReg_ne_oddReg q q).symm]
  · have h1 : oddReg q ≠ oddReg r := fun e => h (oddReg_inj e)
    have h2 : evenReg q ≠ evenReg r := fun e => h (evenReg_inj e)
    simp [State.getQ, getX_setQ, h, h1, h2, evenReg_ne_oddReg, (evenReg_ne_oddReg r q).symm]

@[simp] theorem getQ_setQ_self (s : State) (q : PointNum) (p : Point) : (s.setQ q p).getQ q = p := by
  simp [getQ_setQ]

/-! ## The ends of a command (45_system.md R211, 60_exceptions.md R254) -/

/-- A command that ends at once without error. -/
theorem finish_accept (i : Instr) (s : State) : finish (accept i s) = s.done.settled := rfl

/-- A command that ends at once with the error `c`. -/
theorem raise_accept (i : Instr) (c : Cause) (s : State) : raise c (accept i s) = (s.failed c).settled := by
  cases c <;> rfl

/-- An illegal word leaves the block as a command that ends at once with IllegalCommand, the state being idle. -/
theorem illegalWord_eq (s : State) : illegalWord s = (s.failed .illegalCommand).settled := rfl

@[simp] theorem settled_shown (s : State) : s.settled.shown = s.shown := rfl

/-- Everything a register result can do (00_scope.md R13). -/
theorem writeReg_cases (rd : RegNum) (r : Except Cause Word) (i : Instr) (s : State) :
    (∃ v, r = .ok v ∧ writeReg rd r (accept i s) = (s.setX rd v).done.settled) ∨
      ∃ c, r = .error c ∧ writeReg rd r (accept i s) = (s.failed c).settled := by
  cases r with
  | ok v => exact .inl ⟨v, rfl, rfl⟩
  | error c => exact .inr ⟨c, rfl, raise_accept i c s⟩

/-- Everything a point result can do (00_scope.md R13). -/
theorem writePoint_cases (qd : PointNum) (r : Except Cause Point) (i : Instr) (s : State) :
    (∃ p, r = .ok p ∧ writePoint qd r (accept i s) = (s.setQ qd p).done.settled) ∨
      ∃ c, r = .error c ∧ writePoint qd r (accept i s) = (s.failed c).settled := by
  cases r with
  | ok p => exact .inl ⟨p, rfl, rfl⟩
  | error c => exact .inr ⟨c, rfl, raise_accept i c s⟩

/-! ## The scan of `PMUL` -/

/-- The scan on the hidden registers computes the loop of `PointScalarMul`, and touches nothing else. -/
theorem scanBits_eq (k : Word) (pt : Point) : ∀ (n : Nat) (s : State),
    (∃ c, mulBits k pt n s.acc = .error c ∧ scanBits k pt n s = .error c) ∨
      ∃ a b, mulBits k pt n s.acc = .ok a ∧ scanBits k pt n s = .ok { s with acc := a, biti := b }
  | 0, s => .inr ⟨s.acc, s.biti, rfl, rfl⟩
  | n + 1, s => by
    unfold mulBits scanBits
    dsimp only
    cases h : mulBit k pt n s.acc with
    | error c => exact .inl ⟨c, rfl, rfl⟩
    | ok a =>
      rcases scanBits_eq k pt n { s with biti := BitVec.ofNat 8 n, acc := a } with ⟨c, h1, h2⟩ | ⟨a', b, h1, h2⟩
      · exact .inl ⟨c, h1, h2⟩
      · exact .inr ⟨a', b, h1, h2⟩

/-- The scan from infinity is `PointScalarMul`. -/
theorem pointScalarMul_eq (k : Word) (pt : Point) : pointScalarMul k pt = mulBits k pt (bitlen k) .infinity := by
  unfold pointScalarMul
  split
  · next h => subst h; rfl
  · rfl

/-- `PMUL` writes what `PointScalarMul` returns, or raises what it raises. -/
theorem execPmul_eq (qd : PointNum) (rk : RegNum) (qa : PointNum) (s : State) :
    execPmul qd rk qa s = .next (match pointScalarMul (s.getX rk) (s.getQ qa) with
      | .ok p => (s.setQ qd p).done.settled
      | .error c => (s.failed c).settled) := by
  rw [pointScalarMul_eq]
  unfold execPmul
  dsimp only
  rcases scanBits_eq (s.getX rk) (s.getQ qa) (bitlen (s.getX rk))
      { accept (.pmul qd rk qa) s with acc := .infinity } with ⟨c, h1, h2⟩ | ⟨a, b, h1, h2⟩
  · dsimp only at h1
    simp only [h2, h1, raise_accept]
  · dsimp only at h1
    simp only [h2, h1]
    rfl

/-! ## Byte conversions (00_scope.md R11) -/

@[simp] theorem be_length (v w : Nat) : (be v w).length = w := by simp [be]

theorem intBE_append (a : List Byte) (b : Byte) : intBE (a ++ [b]) = 256 * intBE a + b.toNat := by
  simp [intBE]

theorem be_succ (v w : Nat) : be v (w + 1) = be (v / 256) w ++ [BitVec.ofNat 8 v] := by
  simp only [be, List.range_succ, List.map_append, List.map_cons, List.map_nil]
  congr 1
  · apply List.map_congr_left
    intro i hi
    have hi := List.mem_range.1 hi
    rw [Nat.div_div_eq_div_mul, ← Nat.pow_succ', show w + 1 - 1 - i = w - 1 - i + 1 by omega]
  · simp

/-- `int_be` undoes `be` where the value fits. -/
theorem intBE_be : ∀ (w v : Nat), v < 256 ^ w → intBE (be v w) = v
  | 0, v, h => by simp at h; subst h; rfl
  | w + 1, v, h => by
    rw [be_succ, intBE_append, intBE_be w (v / 256) (by rw [Nat.pow_succ'] at h; omega), BitVec.toNat_ofNat]
    omega

theorem intBE_lt (bs : List Byte) : intBE bs < 256 ^ bs.length := by
  induction bs using List.reverseRecOn with
  | nil => simp [intBE]
  | append_singleton a b ih =>
    rw [intBE_append, List.length_append, List.length_singleton, Nat.pow_succ']
    have := b.isLt
    omega

/-- `be` undoes `int_be`. -/
theorem be_intBE (bs : List Byte) : be (intBE bs) bs.length = bs := by
  induction bs using List.reverseRecOn with
  | nil => rfl
  | append_singleton a b ih =>
    rw [intBE_append, List.length_append, List.length_singleton, be_succ]
    have := b.isLt
    rw [show (256 * intBE a + b.toNat) / 256 = intBE a by omega, ih]
    congr 2
    apply BitVec.eq_of_toNat_eq
    rw [BitVec.toNat_ofNat]
    omega

/-- The bytes of the identifier, by position (10_state.md R36, 30_encoding.md R102). -/
theorem identBytes_eq (s : State) :
    s.identBytes = [byteOf s.fid 0, byteOf s.fid 1, byteOf s.fid 2, byteOf s.fid 3] := by
  have h : ∀ j, j < 4 → BitVec.ofNat 8 (s.fid.toNat / 256 ^ (4 - 1 - j)) = byteOf s.fid j := by
    intro j hj
    apply BitVec.eq_of_toNat_eq
    have he : 256 ^ (4 - 1 - j) = 2 ^ (24 - 8 * j) := by
      rw [show 256 = 2 ^ 8 from rfl, ← Nat.pow_mul]
      congr 1
      omega
    rw [BitVec.toNat_ofNat, byteOf, BitVec.extractLsb'_toNat, Nat.shiftRight_eq_div_pow, he]
  have h0 := h 0 (by omega)
  have h1 := h 1 (by omega)
  have h2 := h 2 (by omega)
  have h3 := h 3 (by omega)
  simp only [State.identBytes, be, Config.idLen, List.range_succ, List.range_zero, List.map_cons, List.map_nil,
    List.nil_append, List.cons_append]
  rw [h0, h1, h2, h3]

/-! ## The host port -/

/-- Everything a guarded transaction can do (45_system.md R216). -/
theorem gated_cases (ok : Bool) (f : State → State) (s : State) :
    (s.busy = false ∧ ok = true ∧ gated ok f s = f s) ∨
      ((s.busy = true ∨ ok = false) ∧ gated ok f s = s.answered .refused) := by
  cases hb : s.busy <;> cases ok <;> simp [gated, hb]

end Sys2Proof.Machine
end

