-- ==== Sys2Proof/Laws/Bytes.lean ====
section
/-! SUPPORT. Laws of the bytes inside a 32-bit word: the shift register `WIN`, the staging register `STG`, the bytes
of `FID`; and of the acceptance of a channel command. -/

namespace Sys2Proof.Machine

open Sys2Proof

/-! ## The shift registers -/

theorem shiftIn_toNat (v : Word32) (b : Byte) : (shiftIn v b).toNat = 256 * (v.toNat % 2 ^ 24) + b.toNat := by
  have hb := b.isLt
  have h1 : (v <<< 8).toNat = 2 ^ 8 * (v.toNat % 2 ^ 24) := by
    rw [BitVec.toNat_shiftLeft, Nat.shiftLeft_eq]
    omega
  have h2 : (b.setWidth 32).toNat = b.toNat := by
    rw [BitVec.toNat_setWidth]
    omega
  rw [shiftIn, BitVec.toNat_or, h1, h2, ← Nat.two_pow_add_eq_or_of_lt hb]

/-- The register after the bytes `bs`, from the register `v`. -/
def shiftAll (v : Word32) (bs : List Byte) : Word32 := bs.foldl shiftIn v

@[simp] theorem shiftAll_nil (v : Word32) : shiftAll v [] = v := rfl

@[simp] theorem shiftAll_cons (v : Word32) (b : Byte) (bs : List Byte) :
    shiftAll v (b :: bs) = shiftAll (shiftIn v b) bs := rfl

theorem shiftAll_append (v : Word32) (a b : List Byte) : shiftAll v (a ++ b) = shiftAll (shiftAll v a) b := by
  simp [shiftAll]

/-- Four bytes fill the register, whatever it held: what is compared is the four bytes (43_frame.md R173). -/
theorem shiftAll_four (v : Word32) (a b c d : Byte) :
    (shiftAll v [a, b, c, d]).toNat = 2 ^ 24 * a.toNat + 2 ^ 16 * b.toNat + 2 ^ 8 * c.toNat + d.toNat := by
  have ha := a.isLt; have hb := b.isLt; have hc := c.isLt; have hd := d.isLt
  simp only [shiftAll_cons, shiftAll_nil, shiftIn_toNat]
  omega

theorem shiftAll_four_inj (v w : Word32) {a b c d a' b' c' d' : Byte} :
    shiftAll v [a, b, c, d] = shiftAll w [a', b', c', d'] ↔ [a, b, c, d] = [a', b', c', d'] := by
  constructor
  · intro h
    have h := congrArg BitVec.toNat h
    rw [shiftAll_four, shiftAll_four] at h
    have := a.isLt; have := b.isLt; have := c.isLt; have := d.isLt
    have := a'.isLt; have := b'.isLt; have := c'.isLt; have := d'.isLt
    have h1 : a = a' := BitVec.eq_of_toNat_eq (by omega)
    have h2 : b = b' := BitVec.eq_of_toNat_eq (by omega)
    have h3 : c = c' := BitVec.eq_of_toNat_eq (by omega)
    have h4 : d = d' := BitVec.eq_of_toNat_eq (by omega)
    rw [h1, h2, h3, h4]
  · intro h
    injection h with h1 h
    injection h with h2 h
    injection h with h3 h
    injection h with h4 h
    subst h1 h2 h3 h4
    apply BitVec.eq_of_toNat_eq
    rw [shiftAll_four, shiftAll_four]

/-- The window holds the start marker exactly if the last four bytes are it (43_frame.md R174). -/
theorem window_is_marker (v : Word32) (a b c d : Byte) :
    shiftAll v [a, b, c, d] = 0x55555555 ↔ [a, b, c, d] = [0x55, 0x55, 0x55, 0x55] :=
  shiftAll_four_inj v 0 (a' := 0x55) (b' := 0x55) (c' := 0x55) (d' := 0x55)

/-- The stop test (43_frame.md R173). -/
theorem staged_is_stop (v : Word32) (a b c d : Byte) :
    shiftAll v [a, b, c, d] = 0xFFFFFFFF ↔ [a, b, c, d] = [0xFF, 0xFF, 0xFF, 0xFF] :=
  shiftAll_four_inj v 0 (a' := 0xFF) (b' := 0xFF) (c' := 0xFF) (d' := 0xFF)

/-- The token test, from a staging register that starts at zero (44_ack_sequencer.md R192). -/
theorem staged_is_token (a b c : Byte) :
    shiftAll 0 [a, b, c] = 0x0041434B ↔ [a, b, c] = [0x41, 0x43, 0x4B] := by
  have h : shiftAll 0 [a, b, c] = shiftAll 0 [0, a, b, c] := by
    simp only [shiftAll_cons, shiftAll_nil]
    congr 3
  rw [h]
  constructor
  · intro he
    have := (shiftAll_four_inj 0 0 (a' := 0) (b' := 0x41) (c' := 0x43) (d' := 0x4B)).1 he
    injection this
  · intro he
    injection he with h1 he
    injection he with h2 he
    injection he with h3 he
    subst h1 h2 h3
    decide

/-! ## The bytes of `FID` -/

/-- Byte `j` is replaced, the other three stay (43_frame.md R177). -/
theorem byteOf_setByteOf (v : Word32) (b : Byte) {j k : Nat} (hj : j < 4) (hk : k < 4) :
    byteOf (setByteOf v j b) k = if j = k then b else byteOf v k := by
  apply BitVec.eq_of_getLsbD_eq
  intro i hi
  rw [byteOf, setByteOf, BitVec.getLsbD_extractLsb']
  have hFF : ∀ m, (0xFF : Word32).getLsbD m = decide (m < 8) := by
    intro m
    rcases Nat.lt_or_ge m 32 with h | h
    · revert h; revert m; decide
    · rw [BitVec.getLsbD_of_ge _ _ h]; simp; omega
  simp only [BitVec.getLsbD_or, BitVec.getLsbD_and, BitVec.getLsbD_not, BitVec.getLsbD_shiftLeft, hFF,
    BitVec.getLsbD_setWidth]
  have h32 : 24 - 8 * k + i < 32 := by omega
  by_cases h : j = k
  · subst h
    have hs : 24 - 8 * j + i - (24 - 8 * j) = i := by omega
    have hge : ¬ 24 - 8 * j + i < 24 - 8 * j := by omega
    have hi32 : i < 32 := by omega
    rw [if_pos rfl]
    simp [h32, hs, hge, hi, hi32]
  · have hc : 24 - 8 * k + i < 24 - 8 * j ∨ 8 ≤ 24 - 8 * k + i - (24 - 8 * j) := by omega
    rw [if_neg h, byteOf, BitVec.getLsbD_extractLsb']
    rcases hc with hlt | hge
    · simp [h32, hlt, hi]
    · have hn : ¬ 24 - 8 * k + i - (24 - 8 * j) < 8 := by omega
      have hb : b.getLsbD (24 - 8 * k + i - (24 - 8 * j)) = false := BitVec.getLsbD_of_ge _ _ hge
      simp [h32, hn, hi, hb]

/-- Two words with the same four bytes are the same. -/
theorem eq_of_byteOf {v w : Word32} (h : ∀ k, k < 4 → byteOf v k = byteOf w k) : v = w := by
  apply BitVec.eq_of_getLsbD_eq
  intro i hi
  have := congrArg (fun x : Byte => x.getLsbD (i % 8)) (h (3 - i / 8) (by omega))
  simp only [byteOf, BitVec.getLsbD_extractLsb'] at this
  have e : 24 - 8 * (3 - i / 8) + i % 8 = i := by omega
  have l : i % 8 < 8 := by omega
  simpa [e, l] using this

/-! ## The acceptance of a channel command -/

/-- On a failed link a channel command ends at once (43_frame.md R179). -/
theorem channelCommand_failed {s : State} (i : Instr) (enter : State → State) (h : s.link = .failed) :
    channelCommand i enter s = (s.failed .linkDown).settled := by
  simp [channelCommand, h, raise_accept]

/-- On an open link it runs. -/
theorem channelCommand_opened {s : State} (i : Instr) (enter : State → State) (h : s.link = .opened) :
    channelCommand i enter s = resume (enter (accept i s)) := by
  simp [channelCommand, h]

end Sys2Proof.Machine
end

