-- ==== Sys2Proof/Laws/Encoding.lean ====
section
/-! SUPPORT. Laws of the encoding: the word of a command as its fields OR-ed together, and a field of a word read
back. -/

namespace Sys2Proof

open Sys2Proof.Machine

/-- Two parts of a word that do not overlap: their sum is their disjunction. -/
theorem ofNat_add_eq_or {a b k : Nat} (hb : b < 2 ^ k) :
    BitVec.ofNat 32 (a * 2 ^ k + b) = BitVec.ofNat 32 (a * 2 ^ k) ||| BitVec.ofNat 32 b := by
  rw [← BitVec.ofNat_or, Nat.mul_comm, Nat.two_pow_add_eq_or_of_lt hb]

theorem at32_eq (v lo : Nat) : at32 v lo = BitVec.ofNat 32 (v * 2 ^ lo) := by
  apply BitVec.eq_of_toNat_eq
  simp [at32, BitVec.toNat_shiftLeft, Nat.shiftLeft_eq]

/-- The fields of 30_encoding.md R91 OR-ed together. -/
theorem pack_eq_or {op a b c imm : Nat} (ha : a < 16) (hb : b < 16) (hc : c < 16) (hi : imm < 2 ^ 12) :
    BitVec.ofNat 32 (pack op a b c imm)
      = at32 op 24 ||| at32 a 20 ||| at32 b 16 ||| at32 c 12 ||| at32 imm 0 := by
  have h1 : pack op a b c imm = op * 2 ^ 24 + (a * 2 ^ 20 + (b * 2 ^ 16 + (c * 2 ^ 12 + imm))) := by
    unfold pack; omega
  rw [h1, ofNat_add_eq_or (by omega), ofNat_add_eq_or (by omega), ofNat_add_eq_or (by omega), ofNat_add_eq_or hi]
  simp only [at32_eq, Nat.pow_zero, Nat.mul_one, BitVec.or_assoc]

/-- Bits 15:0 of format `LS` (30_encoding.md R92) OR-ed together, above them the opcode and two registers. -/
theorem packLS_eq_or {op a b off w : Nat} {s : Slot} (ha : a < 16) (hb : b < 16) (ho : off < 256) (h1 : 1 ≤ w)
    (hw : w ≤ 32) :
    BitVec.ofNat 32 (pack op a b 0 (packLS s off w))
      = at32 op 24 ||| at32 a 20 ||| at32 b 16 ||| at32 s 14 ||| at32 (w - 1) 8 ||| at32 off 0 := by
  have he : pack op a b 0 (packLS s off w)
      = op * 2 ^ 24 + (a * 2 ^ 20 + (b * 2 ^ 16 + (s.val * 2 ^ 14 + ((w - 1) * 2 ^ 8 + off)))) := by
    unfold pack packLS; omega
  rw [he, ofNat_add_eq_or (by omega), ofNat_add_eq_or (by omega), ofNat_add_eq_or (by omega),
    ofNat_add_eq_or (by omega), ofNat_add_eq_or ho]
  simp only [at32_eq, Nat.pow_zero, Nat.mul_one, BitVec.or_assoc]

/-- A field of a word whose number is written out. -/
theorem field_ofNat {n lo width : Nat} (h : n < 2 ^ 32) :
    field (BitVec.ofNat 32 n) lo width = n / 2 ^ lo % 2 ^ width := by
  rw [field, BitVec.toNat_ofNat, Nat.mod_eq_of_lt h]

theorem regAt_ofNat {n lo : Nat} {r : RegNum} (h : n < 2 ^ 32) (hr : n / 2 ^ lo % 2 ^ 4 = r.val) :
    regAt (BitVec.ofNat 32 n) lo = r := by
  apply Fin.ext
  rw [regAt, field_ofNat h, hr, Fin.val_ofNat]
  omega

theorem pointAt_ofNat {n lo : Nat} {q : PointNum} (h : n < 2 ^ 32) (hq : n / 2 ^ lo % 2 ^ 3 = q.val) :
    pointAt (BitVec.ofNat 32 n) lo = q := by
  apply Fin.ext
  rw [pointAt, field_ofNat h, hq, Fin.val_ofNat]
  omega

theorem slotAt_ofNat {n lo : Nat} {b : Slot} (h : n < 2 ^ 32) (hb : n / 2 ^ lo % 2 ^ 2 = b.val) :
    slotAt (BitVec.ofNat 32 n) lo = b := by
  apply Fin.ext
  rw [slotAt, field_ofNat h, hb, Fin.val_ofNat]
  omega

end Sys2Proof
end

