-- ==== Sys2Proof/Laws/Field.lean ====
section
/-! SUPPORT. Laws of the field unit: `P` is prime (a Lucas certificate), reduction gives the residue below `P`, and
`inv` is the inverse of 00_scope.md R10 (log 15). -/

namespace Sys2Proof.Machine

open Sys2Proof

-- One theorem after another: the kernel evaluations of this file would otherwise each hold a thread.
set_option Elab.async false

/-! ## Reduction -/

theorem P_pos : 0 < Config.P := by decide

theorem P_lt : Config.P < 2 ^ 256 := by decide

/-- `modP` is the representative in `[0, P)` (00_scope.md R10). -/
theorem modP_toNat (v : Int) : ((modP v).toNat : Int) = v % (Config.P : Int) := by
  have h0 : 0 ≤ v % (Config.P : Int) := Int.emod_nonneg _ (by have := P_pos; omega)
  have h1 : v % (Config.P : Int) < (Config.P : Int) := Int.emod_lt_of_pos _ (by have := P_pos; omega)
  have h2 := P_lt
  unfold modP
  rw [BitVec.toNat_ofNat, Nat.mod_eq_of_lt (by omega)]
  omega

theorem modP_lt (v : Int) : (modP v).toNat < Config.P := by
  have h := modP_toNat v
  have h1 : v % (Config.P : Int) < (Config.P : Int) := Int.emod_lt_of_pos _ (by have := P_pos; omega)
  omega

/-- Two integers with one residue have one representative. -/
theorem modP_eq {u v : Int} (h : u % (Config.P : Int) = v % (Config.P : Int)) : modP u = modP v := by
  unfold modP; rw [h]

/-! ## Powers -/

/-- What the loop computes. -/
theorem powMod_eq {m : Nat} (hm : 1 < m) (b e : Nat) :
    ∀ n acc : Nat, acc < m → powMod m b e n acc = acc ^ 2 ^ n * b ^ (e % 2 ^ n) % m
  | 0, acc, h => by simp [powMod, Nat.mod_one, Nat.mod_eq_of_lt h]
  | n + 1, acc, h => by
    have hbit : e % 2 ^ (n + 1) = 2 ^ n * (e.testBit n).toNat + e % 2 ^ n := by
      rw [Nat.mod_pow_succ, Nat.testBit_eq_decide_div_mod_eq]
      rcases Nat.mod_two_eq_zero_or_one (e / 2 ^ n) with h | h <;> simp [h, Nat.add_comm]
    have key : ∀ c, c % m = acc * acc * b ^ (e.testBit n).toNat % m →
        c ^ 2 ^ n * b ^ (e % 2 ^ n) % m = acc ^ 2 ^ (n + 1) * b ^ (e % 2 ^ (n + 1)) % m := by
      intro c hc
      rw [Nat.mul_mod, Nat.pow_mod, hc, ← Nat.pow_mod, ← Nat.mul_mod, hbit]
      congr 1
      rw [Nat.pow_add b, Nat.pow_succ 2 n, Nat.mul_comm (2 ^ n) 2, Nat.pow_mul acc,
        Nat.mul_comm (2 ^ n) (e.testBit n).toNat, Nat.pow_mul b, Nat.pow_two, ← Nat.mul_assoc, ← Nat.mul_pow]
    have hc : (if e.testBit n then acc * acc % m * b % m else acc * acc % m)
        = acc * acc * b ^ (e.testBit n).toNat % m := by
      cases e.testBit n <;> simp [Nat.mul_mod]
    have hlt : acc * acc * b ^ (e.testBit n).toNat % m < m := Nat.mod_lt _ (by omega)
    unfold powMod
    split
    · next h0 =>
      rw [hc] at h0
      rw [← key 0 (by rw [h0, Nat.zero_mod]), Nat.zero_pow (Nat.two_pow_pos n), Nat.zero_mul, Nat.zero_mod]
    · next k hk =>
      rw [hc] at hk
      rw [powMod_eq hm b e n (k + 1) (by omega)]
      exact key (k + 1) (by change k.succ % m = _; rw [← hk, Nat.mod_mod])

/-- The power, if the bits cover the exponent. -/
theorem powMod_one {m : Nat} (hm : 1 < m) (b : Nat) {e n : Nat} (he : e < 2 ^ n) :
    powMod m b e n 1 = b ^ e % m := by
  rw [powMod_eq hm b e n 1 hm, Nat.one_pow, Nat.one_mul, Nat.mod_eq_of_lt he]

/-! ## `P` is prime -/

/-- The Lucas test with the arithmetic left to the kernel: `a` has order `p - 1` modulo `p`, checked at the prime
divisors `qs` of `p - 1`, whose powers multiply to it. -/
theorem prime_of_certificate {p : Nat} (a : Nat) (fs : List (Nat × Nat)) (hp : 1 < p) (hlt : p < 2 ^ 256)
    (hq : ∀ f ∈ fs, Nat.Prime f.1) (hprod : (fs.map fun f => f.1 ^ f.2).prod = p - 1)
    (h1 : powMod p a (p - 1) 256 1 = 1)
    (h2 : (fs.all fun f => powMod p a ((p - 1) / f.1) 256 1 != 1) = true) : Nat.Prime p := by
  have cast_pow : ∀ e : Nat, e < 2 ^ 256 → ((a : ZMod p) ^ e = 1 ↔ powMod p a e 256 1 = 1) := by
    intro e he
    rw [powMod_one hp a he]
    have : ((a : ZMod p) ^ e = 1) ↔ (((a ^ e : Nat) : ZMod p) = ((1 : Nat) : ZMod p)) := by push_cast; rfl
    rw [this, ZMod.natCast_eq_natCast_iff]
    unfold Nat.ModEq
    rw [Nat.mod_eq_of_lt hp]
  refine lucas_primality p (a : ZMod p) ((cast_pow _ (by omega)).2 h1) ?_
  intro q hqp hqd
  have hmem : ∃ f ∈ fs, q = f.1 := by
    rw [← hprod] at hqd
    obtain ⟨x, hx, hxq⟩ := (Prime.dvd_prod_iff hqp.prime).1 hqd
    obtain ⟨f, hf, rfl⟩ := List.mem_map.1 hx
    exact ⟨f, hf, (Nat.prime_dvd_prime_iff_eq hqp (hq f hf)).1 (hqp.dvd_of_dvd_pow hxq)⟩
  obtain ⟨f, hf, rfl⟩ := hmem
  have := List.all_eq_true.1 h2 f hf
  intro hc
  have hlt' : (p - 1) / f.1 < 2 ^ 256 := lt_of_le_of_lt (Nat.div_le_self _ _) (by omega)
  rw [(cast_pow _ hlt').1 hc] at this
  simp at this

theorem prime_204061199 : Nat.Prime 204061199 := by
  refine prime_of_certificate 11 [(2, 1), (11, 1), (23, 1), (107, 1), (3769, 1)] (by decide) (by decide) ?_
    (by decide) (by decide +kernel) (by decide +kernel)
  simp only [List.forall_mem_cons, List.not_mem_nil, false_implies, implies_true, and_true]
  norm_num

theorem prime_34282281433 : Nat.Prime 34282281433 := by
  refine prime_of_certificate 17 [(2, 3), (3, 1), (7, 1), (204061199, 1)] (by decide) (by decide) ?_
    (by decide) (by decide +kernel) (by decide +kernel)
  simp only [List.forall_mem_cons, List.not_mem_nil, false_implies, implies_true, and_true]
  exact ⟨by norm_num, by norm_num, by norm_num, prime_204061199⟩

theorem prime_66417393611 : Nat.Prime 66417393611 := by
  refine prime_of_certificate 6 [(2, 1), (5, 1), (53, 1), (173, 1), (197, 1), (3677, 1)] (by decide) (by decide) ?_
    (by decide) (by decide +kernel) (by decide +kernel)
  simp only [List.forall_mem_cons, List.not_mem_nil, false_implies, implies_true, and_true]
  norm_num

theorem prime_11290956913871 : Nat.Prime 11290956913871 := by
  refine prime_of_certificate 13 [(2, 1), (5, 1), (17, 1), (66417393611, 1)] (by decide) (by decide) ?_
    (by decide) (by decide +kernel) (by decide +kernel)
  simp only [List.forall_mem_cons, List.not_mem_nil, false_implies, implies_true, and_true]
  exact ⟨by norm_num, by norm_num, by norm_num, prime_66417393611⟩

theorem prime_46076956964474543 : Nat.Prime 46076956964474543 := by
  refine prime_of_certificate 5 [(2, 1), (23, 1), (18169, 1), (78283, 1), (704251, 1)] (by decide) (by decide) ?_
    (by decide) (by decide +kernel) (by decide +kernel)
  simp only [List.forall_mem_cons, List.not_mem_nil, false_implies, implies_true, and_true]
  norm_num

theorem prime_774023187263532362759620327192479577272145303 :
    Nat.Prime 774023187263532362759620327192479577272145303 := by
  refine prime_of_certificate 3
    [(2, 1), (3, 2), (2411, 1), (34282281433, 1), (11290956913871, 1), (46076956964474543, 1)] (by decide) (by decide)
    ?_ (by decide) (by decide +kernel) (by decide +kernel)
  simp only [List.forall_mem_cons, List.not_mem_nil, false_implies, implies_true, and_true]
  exact ⟨by norm_num, by norm_num, by norm_num, prime_34282281433, prime_11290956913871,
    prime_46076956964474543⟩

theorem prime_835945042244614951780389953367877943453916927241 :
    Nat.Prime 835945042244614951780389953367877943453916927241 := by
  refine prime_of_certificate 11 [(2, 3), (3, 3), (5, 1), (774023187263532362759620327192479577272145303, 1)]
    (by decide) (by decide) ?_ (by decide) (by decide +kernel) (by decide +kernel)
  simp only [List.forall_mem_cons, List.not_mem_nil, false_implies, implies_true, and_true]
  exact ⟨by norm_num, by norm_num, by norm_num, prime_774023187263532362759620327192479577272145303⟩

theorem P_numeral :
    Config.P = 115792089210356248762697446949407573530086143415290314195533631308867097853951 := by
  decide

/-- The field prime is prime. -/
theorem P_prime : Nat.Prime Config.P := by
  rw [P_numeral]
  refine prime_of_certificate 6
    [(2, 1), (3, 1), (5, 2), (17, 1), (257, 1), (641, 1), (1531, 1), (65537, 1), (490463, 1), (6700417, 1),
     (835945042244614951780389953367877943453916927241, 1)]
    (by decide) (by decide) ?_ (by decide) (by decide +kernel) (by decide +kernel)
  simp only [List.forall_mem_cons, List.not_mem_nil, false_implies, implies_true, and_true]
  exact ⟨by norm_num, by norm_num, by norm_num, by norm_num, by norm_num, by norm_num, by norm_num, by norm_num,
    by norm_num, by norm_num, prime_835945042244614951780389953367877943453916927241⟩

/-! ## The inverse -/

theorem inv_toNat (v : Word) : (inv v).toNat = v.toNat ^ (Config.P - 2) % Config.P := by
  have h := P_lt
  have h2 : v.toNat ^ (Config.P - 2) % Config.P < Config.P := Nat.mod_lt _ P_pos
  unfold inv
  rw [powMod_one P_prime.one_lt _ (by omega), ← Nat.pow_mod, BitVec.toNat_ofNat, Nat.mod_eq_of_lt (by omega)]

theorem inv_lt (v : Word) : (inv v).toNat < Config.P := by
  rw [inv_toNat]; exact Nat.mod_lt _ P_pos

/-- `inv v` is the inverse of `v` modulo `P` (00_scope.md R10). -/
theorem mul_inv_mod {v : Word} (h : v.toNat % Config.P ≠ 0) : v.toNat * (inv v).toNat % Config.P = 1 := by
  have : Fact (Nat.Prime Config.P) := ⟨P_prime⟩
  have hz : (v.toNat : ZMod Config.P) ≠ 0 := by
    rw [Ne, ZMod.natCast_eq_zero_iff]
    exact fun hd => h (Nat.mod_eq_zero_of_dvd hd)
  have hf := ZMod.pow_card_sub_one_eq_one hz
  have h2 : 2 ≤ Config.P := P_prime.two_le
  have hm : ((v.toNat * (inv v).toNat : Nat) : ZMod Config.P) = ((1 : Nat) : ZMod Config.P) := by
    rw [inv_toNat, Nat.cast_mul, ZMod.natCast_mod, Nat.cast_pow, ← pow_succ', Nat.cast_one,
      show Config.P - 2 + 1 = Config.P - 1 by omega]
    exact hf
  rw [ZMod.natCast_eq_natCast_iff] at hm
  rw [hm, Nat.mod_eq_of_lt (by omega)]

theorem inv_pos {v : Word} (h : v.toNat % Config.P ≠ 0) : 0 < (inv v).toNat := by
  rcases Nat.eq_zero_or_pos (inv v).toNat with h0 | h0
  · have := mul_inv_mod h
    rw [h0] at this
    simp at this
  · exact h0

/-- There is one inverse below `P`. -/
theorem inv_unique {v : Word} {z : Nat} (hz : z < Config.P) (h : v.toNat * z % Config.P = 1) :
    z = (inv v).toNat := by
  have hv : v.toNat % Config.P ≠ 0 := by
    intro h0
    rw [Nat.mul_mod, h0] at h
    simp at h
  have h1 := mul_inv_mod hv
  have key : z * (v.toNat * (inv v).toNat) % Config.P = (inv v).toNat * (v.toNat * z) % Config.P := by
    congr 1; ring
  rw [Nat.mul_mod, h1, Nat.mul_mod (inv v).toNat, h] at key
  have hi := inv_lt v
  rw [Nat.mul_one, Nat.mul_one, Nat.mod_mod, Nat.mod_mod, Nat.mod_eq_of_lt hz, Nat.mod_eq_of_lt hi] at key
  exact key

end Sys2Proof.Machine
end

