-- ==== Sys2Proof/Laws/PerInstr.lean ====
section
/-! SUPPORT. Statements made of every command, one lemma for each constructor. -/

namespace Sys2Proof.Laws.OpcodeField

open Sys2Proof

/-- The word of a well-formed command fits 32 bits, and its bits 31:24 are the opcode of the command's row
(30_encoding.md R91, R94). -/
def Statement (i : Instr) : Prop :=
  i.wellFormed = true →
    encodeNat i < 2 ^ 32 ∧ field (encode i) 24 8 = (rowOf i).pattern.toNat / 2 ^ 24

/-- The opcode is the number above the operands, if these fit below it. -/
theorem of_encodeNat {i : Instr} {op low : Nat} (h : encodeNat i = op * 2 ^ 24 + low) (hl : low < 2 ^ 24)
    (ho : op < 256) (hp : (rowOf i).pattern.toNat / 2 ^ 24 = op) : Statement i := by
  intro _
  refine ⟨by omega, ?_⟩
  rw [hp, field, encode, BitVec.toNat_ofNat, h]
  omega

theorem fadd (rd : RegNum) (ra : RegNum) (rb : RegNum) : Statement (.fadd rd ra rb) :=
  of_encodeNat (op := 0x10) (low := rd.val * 2 ^ 20 + ra.val * 2 ^ 16 + rb.val * 2 ^ 12)
    (by simp only [encodeNat, pack]; omega) (by omega) (by decide) (by simp [rowOf])

theorem fsub (rd : RegNum) (ra : RegNum) (rb : RegNum) : Statement (.fsub rd ra rb) :=
  of_encodeNat (op := 0x11) (low := rd.val * 2 ^ 20 + ra.val * 2 ^ 16 + rb.val * 2 ^ 12)
    (by simp only [encodeNat, pack]; omega) (by omega) (by decide) (by simp [rowOf])

theorem fmul (rd : RegNum) (ra : RegNum) (rb : RegNum) : Statement (.fmul rd ra rb) :=
  of_encodeNat (op := 0x12) (low := rd.val * 2 ^ 20 + ra.val * 2 ^ 16 + rb.val * 2 ^ 12)
    (by simp only [encodeNat, pack]; omega) (by omega) (by decide) (by simp [rowOf])

theorem fred (rd : RegNum) (ra : RegNum) : Statement (.fred rd ra) :=
  of_encodeNat (op := 0x13) (low := rd.val * 2 ^ 20 + ra.val * 2 ^ 16)
    (by simp only [encodeNat, pack]; omega) (by omega) (by decide) (by simp [rowOf])

theorem finv (rd : RegNum) (ra : RegNum) : Statement (.finv rd ra) :=
  of_encodeNat (op := 0x14) (low := rd.val * 2 ^ 20 + ra.val * 2 ^ 16)
    (by simp only [encodeNat, pack]; omega) (by omega) (by decide) (by simp [rowOf])

theorem btst (ra : RegNum) (idx : Nat) : Statement (.btst ra idx) := by
  intro hw
  simp only [Instr.wellFormed, decide_eq_true_eq] at hw
  exact of_encodeNat (op := 0x18) (low := ra.val * 2 ^ 16 + idx)
    (by simp only [encodeNat, pack]; omega) (by omega) (by decide) (by simp [rowOf])
    (by simpa [Instr.wellFormed] using hw)

theorem padd (qd : PointNum) (qa : PointNum) (qb : PointNum) : Statement (.padd qd qa qb) :=
  of_encodeNat (op := 0x20) (low := qd.val * 2 ^ 20 + qa.val * 2 ^ 16 + qb.val * 2 ^ 12)
    (by simp only [encodeNat, pack]; omega) (by omega) (by decide) (by simp [rowOf])

theorem pmul (qd : PointNum) (rk : RegNum) (qa : PointNum) : Statement (.pmul qd rk qa) :=
  of_encodeNat (op := 0x21) (low := qd.val * 2 ^ 20 + rk.val * 2 ^ 16 + qa.val * 2 ^ 12)
    (by simp only [encodeNat, pack]; omega) (by omega) (by decide) (by simp [rowOf])

theorem peq (qa : PointNum) (qb : PointNum) : Statement (.peq qa qb) :=
  of_encodeNat (op := 0x22) (low := qa.val * 2 ^ 16 + qb.val * 2 ^ 12)
    (by simp only [encodeNat, pack]; omega) (by omega) (by decide) (by simp [rowOf])

theorem ldb (rd : RegNum) (b : Slot) (off : Nat) (w : Nat) : Statement (.ldb rd b off w) := by
  intro hw
  simp only [Instr.wellFormed, Bool.and_eq_true, decide_eq_true_eq] at hw
  exact of_encodeNat (op := 0x30) (low := rd.val * 2 ^ 20 + packLS b off w)
    (by simp only [encodeNat, pack]; omega) (by unfold packLS; omega) (by decide) (by simp [rowOf])
    (by simpa [Instr.wellFormed] using hw)

theorem stb (ra : RegNum) (b : Slot) (off : Nat) (w : Nat) : Statement (.stb ra b off w) := by
  intro hw
  simp only [Instr.wellFormed, Bool.and_eq_true, decide_eq_true_eq] at hw
  exact of_encodeNat (op := 0x31) (low := ra.val * 2 ^ 16 + packLS b off w)
    (by simp only [encodeNat, pack]; omega) (by unfold packLS; omega) (by decide) (by simp [rowOf])
    (by simpa [Instr.wellFormed] using hw)

theorem txf (b : Slot) : Statement (.txf b) :=
  of_encodeNat (op := 0x40) (low := b.val)
    (by simp only [encodeNat, pack]; omega) (by omega) (by decide) (by simp [rowOf])

theorem txid : Statement .txid := by unfold Statement; decide

theorem rxf (b : Slot) : Statement (.rxf b) :=
  of_encodeNat (op := 0x42) (low := b.val)
    (by simp only [encodeNat, pack]; omega) (by omega) (by decide) (by simp [rowOf])

theorem rxid : Statement .rxid := by unfold Statement; decide

theorem txack : Statement .txack := by unfold Statement; decide

theorem rxack : Statement .rxack := by unfold Statement; decide

theorem sendcall : Statement .sendcall := by unfold Statement; decide

theorem recvcall : Statement .recvcall := by unfold Statement; decide

theorem sinit : Statement .sinit := by unfold Statement; decide

end Sys2Proof.Laws.OpcodeField
end

