-- ==== Sys2Proof/Tests/Slice0.lean ====
section
/-! SUPPORT. The model's own tests: the ranges of operands, every command's decoding, one step on small states with
the results the spec's examples give, and for every statement with hypotheses a state and operands that meet them. -/

namespace Sys2Proof.Tests

open Sys2Proof Sys2Proof.Machine

-- One theorem after another: the many kernel evaluations of this file would otherwise each hold a thread.
set_option Elab.async false

/-! ## Helpers -/

/-- The state after, where there is one. -/
def after (r : Result) : State :=
  match r with
  | .next t => t
  | .fault _ => .reset
  | .refused _ => .reset

/-- One step in which the host presents a word. -/
def present1 (s : State) (c : Nat) : State := after (step (s.withFetchWord 32 c))

/-- The reset state with two registers written. -/
def regs2 (i : RegNum) (v : Nat) (j : RegNum) (w : Nat) : State :=
  (State.reset.setX i (BitVec.ofNat 256 v)).setX j (BitVec.ofNat 256 w)

/-- The four lengths of `PLEN`. -/
def lengths (a b c d : Nat) : Word32 := BitVec.ofNat 32 (a + 2 ^ 8 * b + 2 ^ 16 * c + 2 ^ 24 * d)

/-- A state with `PLEN`, a portion in slot `b`, and channel answers. -/
def chanState (l : Word32) (b : Slot) (bytes : List Byte) (rx : List RxAnswer) (tx : List TxAnswer) : State :=
  { State.memWrite { State.reset with plen := l } b 0 bytes with rx := rx, tx := tx }

/-- A state with a failed link and one error recorded. -/
def downState : State := { State.reset with link := .failed, esticky := 0x8, err := true, ecause := some .protocolError }

/-- The P-256 generator's coordinates (95_test_vectors.md, used in 40_field.md R123 and 41_point.md R143). -/
def gx : Nat := 0x6B17D1F2E12C4247F8BCE6E563A440F277037D812DEB33A0F4A13945D898C296

/-- See `gx`. -/
def gy : Nat := 0x4FE342E2FE1A7F9B8EE7EB4A7C0F9E162BCE33576B315ECECBB6406837BF51F5

/-! ## Ill-formed terms are refused (30_encoding.md R93) -/

theorem test_wf_refuses_btst_index : Instr.wellFormed (.btst 0 4096) = false := by decide
theorem test_wf_refuses_ldb_offset : Instr.wellFormed (.ldb 0 0 256 1) = false := by decide
theorem test_wf_refuses_ldb_width_zero : Instr.wellFormed (.ldb 0 0 0 0) = false := by decide
theorem test_wf_refuses_ldb_width : Instr.wellFormed (.ldb 0 0 0 33) = false := by decide
theorem test_wf_refuses_stb_offset : Instr.wellFormed (.stb 0 0 256 1) = false := by decide
theorem test_wf_refuses_stb_width_zero : Instr.wellFormed (.stb 0 0 0 0) = false := by decide
theorem test_wf_refuses_stb_width : Instr.wellFormed (.stb 0 0 0 33) = false := by decide

/-! ## Decoding: words written field by field from 30_encoding.md R92 and R94 -/

theorem test_decode_fadd : decode 0b00010000_0011_0001_0010_000000000000#32 = .ok (.fadd 3 1 2) := by decide
theorem test_decode_fsub : decode 0b00010001_1111_0001_1000_000000000000#32 = .ok (.fsub 15 1 8) := by decide
theorem test_decode_fmul : decode 0b00010010_0100_1111_0001_000000000000#32 = .ok (.fmul 4 15 1) := by decide
theorem test_decode_fred : decode 0b00010011_0010_0001_0000_000000000000#32 = .ok (.fred 2 1) := by decide
theorem test_decode_finv : decode 0b00010100_1000_0111_0000_000000000000#32 = .ok (.finv 8 7) := by decide
theorem test_decode_btst : decode 0b00011000_0000_0101_0000_111111111111#32 = .ok (.btst 5 4095) := by decide
theorem test_decode_padd : decode 0b00100000_0111_0001_0010_000000000000#32 = .ok (.padd 7 1 2) := by decide
theorem test_decode_pmul : decode 0b00100001_0001_1100_0110_000000000000#32 = .ok (.pmul 1 12 6) := by decide
theorem test_decode_peq : decode 0b00100010_0000_0011_0111_000000000000#32 = .ok (.peq 3 7) := by decide
theorem test_decode_ldb : decode 0b00110000_0100_0000_10_0_11111_00000011#32 = .ok (.ldb 4 2 3 32) := by decide
theorem test_decode_stb : decode 0b00110001_0000_1001_01_0_00000_11111111#32 = .ok (.stb 9 1 255 1) := by decide
theorem test_decode_txf : decode 0b01000000_0000_0000_0000_0000000000_11#32 = .ok (.txf 3) := by decide
theorem test_decode_txid : decode 0b01000001_000000000000000000000000#32 = .ok .txid := by decide
theorem test_decode_rxf : decode 0b01000010_0000_0000_0000_0000000000_10#32 = .ok (.rxf 2) := by decide
theorem test_decode_rxid : decode 0b01000011_000000000000000000000000#32 = .ok .rxid := by decide
theorem test_decode_txack : decode 0b01001000_000000000000000000000000#32 = .ok .txack := by decide
theorem test_decode_rxack : decode 0b01001001_000000000000000000000000#32 = .ok .rxack := by decide
theorem test_decode_sendcall : decode 0b01010000_000000000000000000000000#32 = .ok .sendcall := by decide
theorem test_decode_recvcall : decode 0b01010001_000000000000000000000000#32 = .ok .recvcall := by decide
theorem test_decode_sinit : decode 0b01111111_000000000000000000000000#32 = .ok .sinit := by decide

/-- The three cases of 30_encoding.md R95. -/
theorem test_decode_illegal :
    decode 0x00000000 = .error .opcode ∧ decode 0xFFFFFFFF = .error .opcode ∧
      decode 0x20900000 = .error .pointField ∧ decode 0x22008000 = .error .pointField ∧
      decode 0x10000001 = .error .unusedBits ∧ decode 0x30002000 = .error .unusedBits ∧
      decode 0x40000004 = .error .unusedBits ∧ decode 0x18100000 = .error .unusedBits := by decide

theorem test_decodeTableWord : decodeTableWord 32 0x10312000 = some (.fadd 3 1 2) := by decide

/-! ## One step: the results of the spec's examples -/

/-- 40_field.md R121, example. -/
theorem test_fadd : (present1 (regs2 1 2 2 3) 0x10312000).getX 3 = 5 := by decide +kernel

/-- 40_field.md R121: both operands `2^256 - 1`. -/
theorem test_fadd_wide :
    (present1 (regs2 1 (2 ^ 256 - 1) 2 (2 ^ 256 - 1)) 0x10112000).getX 1
      = 0x00000001FFFFFFFDFFFFFFFFFFFFFFFFFFFFFFFE000000000000000000000000#256 := by decide +kernel

/-- 40_field.md R122, example: 2 - 3 is `P - 1`. -/
theorem test_fsub : ((present1 (regs2 1 2 2 3) 0x11312000).getX 3).toNat = Config.P - 1 := by decide +kernel

/-- 40_field.md R123, example. -/
theorem test_fmul :
    (present1 (regs2 1 gx 2 gy) 0x12312000).getX 3
      = 0x823CD15F6DD3C71933565064513A6B2BD183E554C6A08622F713EBBBFACE98BE#256 := by decide +kernel

/-- 40_field.md R124, example: `P + 7`. -/
theorem test_fred : (present1 (regs2 1 (Config.P + 7) 2 0) 0x13110000).getX 1 = 7 := by decide +kernel

/-- 40_field.md R125, example: the inverse of 2. -/
theorem test_finv :
    (present1 (regs2 1 2 2 0) 0x14210000).getX 2
      = 0x7FFFFFFF80000000800000000000000000000000800000000000000000000000#256 := by decide +kernel

/-- 40_field.md R125: the operand `P` fails with cause 4, and the destination is unchanged. -/
theorem test_finv_of_P :
    let t := present1 (regs2 1 Config.P 2 77) 0x14210000
    t.getX 2 = 77 ∧ t.statusWord = 2 ∧ t.ecauseWord = 4 ∧ t.esticky = 0x10 := by decide +kernel

/-- 40_field.md R126, example: bits 1 and 2 of 5. -/
theorem test_btst :
    (present1 (regs2 1 5 2 0) 0x18010001).flagT = false ∧ (present1 (regs2 1 5 2 0) 0x18010002).flagT = true := by
  decide +kernel

/-- 40_field.md R126: index 255 is the top bit, index 256 is none. -/
theorem test_btst_top :
    (present1 (regs2 1 (2 ^ 255) 2 0) 0x180100FF).flagT = true ∧
      (present1 (regs2 1 (2 ^ 256 - 1) 2 0) 0x18010100).flagT = false := by decide +kernel

/-- 41_point.md R143, example: twice the generator. -/
theorem test_padd :
    (present1 (regs2 0 gx 1 gy) 0x20100000).getQ 1
      = ⟨0x7CF27B188D034F7E8A52380304B51AC3C08969E277F21B35A60B48FC47669978,
        0x07775510DB8ED040293D9AC69F7430DBBA7DADE63CE982299E04B79D227873D1⟩ := by decide +kernel

/-- 41_point.md R143: `(5, 0) + (5, 0)` raises ArithmeticError. -/
theorem test_padd_error : (present1 (regs2 0 5 1 0) 0x20100000).ecause = some .arithmeticError := by decide +kernel

/-- 41_point.md R145, example: three times the generator. -/
theorem test_pmul :
    (present1 ((regs2 0 gx 1 gy).setX 4 3) 0x21140000).getQ 1
      = ⟨0x5ECBE4D1A6330A44C8F7EF951D4BF165E6C6B721EFADA985FB41661BC6E7FD6C,
        0x8734640C4998FF7E374B06CE1A64A2ECD82AB036384FB83D9A79B127A27D5032⟩ := by decide +kernel

/-- 41_point.md R146: equality is of raw pairs, `(1, 2)` and `(2, 1)` are not equal. -/
theorem test_peq :
    (present1 (((regs2 0 1 1 2).setX 2 1).setX 3 2) 0x22001000).flagEq = true ∧
      (present1 (((regs2 0 1 1 2).setX 2 2).setX 3 1) 0x22001000).flagEq = false := by decide +kernel

/-- 42_loadstore.md R161, example. -/
theorem test_ldb :
    (present1 (chanState (lengths 0 0 32 0) 2 (List.replicate 30 0 ++ [1, 2]) [] []) 0x3050811E).getX 5 = 258 := by
  decide +kernel

/-- 42_loadstore.md R161, example: one byte too far. -/
theorem test_ldb_bounds :
    (present1 (chanState (lengths 0 0 32 0) 2 [1, 2] [] []) 0x3060811F).ecauseWord = 6 := by
  decide +kernel

/-- 42_loadstore.md R162: `26` in two bytes, in the middle of a portion. -/
theorem test_stb :
    ((present1 { regs2 1 26 2 0 with plen := lengths 4 0 0 0 } 0x31010101).portion 0) = [0, 0, 0x1A, 0] := by
  decide +kernel

/-- 42_loadstore.md R162: 256 does not fit one byte. -/
theorem test_stb_range :
    (present1 { regs2 1 256 2 0 with plen := lengths 4 0 0 0 } 0x31010000).ecauseWord = 7 := by
  decide +kernel

/-- 43_frame.md R171, example. -/
theorem test_txf :
    (present1 (chanState (lengths 3 0 0 0) 0 [1, 2, 3] [] (accepts 20)) 0x40000000).sent
      = [0x55, 0x55, 0x55, 0x55, 1, 2, 3, 0xFF, 0xFF, 0xFF, 0xFF] := by decide +kernel

/-- 43_frame.md R171: an absent slot is sent as the empty frame. -/
theorem test_txf_empty :
    (present1 (chanState 0 0 [] [] (accepts 20)) 0x40000000).sent
      = [0x55, 0x55, 0x55, 0x55, 0xFF, 0xFF, 0xFF, 0xFF] := by decide +kernel

/-- 43_frame.md R172, example. -/
theorem test_txid :
    (present1 { State.reset with fid := 0x11223344, tx := accepts 12 } 0x41000000).sent
      = [0x55, 0x55, 0x55, 0x55, 0x11, 0x22, 0x33, 0x44, 0xFF, 0xFF, 0xFF, 0xFF] := by decide +kernel

/-- 43_frame.md R179: on a failed link, cause 8 and nothing sent. -/
theorem test_txid_link_down :
    let t := present1 { downState with tx := accepts 12 } 0x41000000
    t.ecauseWord = 8 ∧ t.esticky = 0x108 ∧ t.sent = [] := by decide +kernel

/-- 43_frame.md R175, example. -/
theorem test_rxf :
    let t := present1 (chanState (lengths 0 3 0 0) 0 [] (arrives [0x12, 0x34, 0x56, 0x55, 0x55, 0x55, 0x55, 0x0A,
      0x0B, 0x0C, 0xFF, 0xFF, 0xFF, 0xFF, 0x41]) []) 0x42000001
    t.portion 1 = [0x0A, 0x0B, 0x0C] ∧ t.statusWord = 0 ∧ t.rx = arrives [0x41] := by decide +kernel

/-- 43_frame.md R174(b): one stray `55` shifts the payload; its last byte `FF` lets the stop test pass. -/
theorem test_rxf_stray_marker_byte :
    let t := present1 (chanState (lengths 0 2 0 0) 0 [] (arrives [0x55, 0x55, 0x55, 0x55, 0x55, 0x0A, 0xFF, 0xFF,
      0xFF, 0xFF, 0xFF]) []) 0x42000001
    t.portion 1 = [0x55, 0x0A] ∧ t.statusWord = 0 ∧ t.rx = arrives [0xFF] := by decide +kernel

/-- 43_frame.md R177, example. -/
theorem test_rxid :
    (present1 { State.reset with rx := arrives [0x55, 0x55, 0x55, 0x55, 0x22, 0x33, 0x44, 0x55, 0xFF, 0xFF, 0xFF,
      0xFF] } 0x43000000).fid = 0x22334455 := by decide +kernel

/-- 43_frame.md R177, R178: closed after two payload bytes: the top two bytes are new, FramingError. -/
theorem test_rxid_cut :
    let t := present1 { State.reset with
      fid := 0x01020304, rx := arrives [0x55, 0x55, 0x55, 0x55, 0x22, 0x33] ++ [.closed] } 0x43000000
    t.fid = 0x22330304 ∧ t.ecauseWord = 2 ∧ t.statusWord = 0x12 := by decide +kernel

/-- 44_ack_sequencer.md R191, example. -/
theorem test_txack :
    (present1 { State.reset with tx := accepts 3 } 0x48000000).sent = [0x41, 0x43, 0x4B] := by decide +kernel

/-- 44_ack_sequencer.md R191, 60_exceptions.md R251: closed after one byte, cause 1. -/
theorem test_txack_closed :
    let t := present1 { State.reset with tx := [.accepted, .closed] } 0x48000000
    t.ecauseWord = 1 ∧ t.esticky = 0x2 ∧ t.statusWord = 0x12 ∧ t.sent = [0x41] := by decide +kernel

/-- 44_ack_sequencer.md R193, example. -/
theorem test_rxack :
    let t := present1 { State.reset with rx := arrives [0x41, 0x43, 0x4B, 0x55] } 0x49000000
    t.statusWord = 0 ∧ t.rx = arrives [0x55] := by decide +kernel

/-- 44_ack_sequencer.md R193: `41 43 4A` is consumed and fails with ProtocolError. -/
theorem test_rxack_mismatch :
    let t := present1 { State.reset with rx := arrives [0x41, 0x43, 0x4A] } 0x49000000
    t.ecauseWord = 3 ∧ t.statusWord = 0x12 ∧ t.rx = [] := by decide +kernel

/-- 44_ack_sequencer.md R194, example. -/
theorem test_sendcall :
    let t := present1 { chanState (lengths 2 0 0 0) 0 [0xAA, 0xBB] (arrives [0x41, 0x43, 0x4B, 0x41, 0x43, 0x4B])
      (accepts 22) with fid := 0x11223344 } 0x50000000
    t.sent = [0x55, 0x55, 0x55, 0x55, 0x11, 0x22, 0x33, 0x44, 0xFF, 0xFF, 0xFF, 0xFF, 0x55, 0x55, 0x55, 0x55, 0xAA,
      0xBB, 0xFF, 0xFF, 0xFF, 0xFF] ∧ t.statusWord = 0 ∧ t.rx = [] := by decide +kernel

/-- 44_ack_sequencer.md R195, example. -/
theorem test_recvcall :
    let t := present1 (chanState (lengths 0 0 1 0) 0 [] (arrives [0x55, 0x55, 0x55, 0x55, 0x11, 0x22, 0x33, 0x44,
      0xFF, 0xFF, 0xFF, 0xFF, 0x00, 0x55, 0x55, 0x55, 0x55, 0x7E, 0xFF, 0xFF, 0xFF, 0xFF]) (accepts 6)) 0x51000000
    t.fid = 0x11223344 ∧ t.portion 2 = [0x7E] ∧ t.sent = [0x41, 0x43, 0x4B, 0x41, 0x43, 0x4B] ∧
      t.statusWord = 0 := by decide +kernel

/-- 45_system.md R210, example. -/
theorem test_sinit :
    let t := present1 downState 0x7F000000
    downState.statusWord = 0x12 ∧ t.statusWord = 0 ∧ t.esticky = 0 := by decide +kernel

/-- 45_system.md R217: the all-zero word. -/
theorem test_illegal_word :
    let t := present1 State.reset 0
    t.statusWord = 2 ∧ t.ecauseWord = 5 ∧ t.esticky = 0x20 := by decide +kernel

/-- 60_exceptions.md R265, 10_state.md R38: a stalled `RXACK` holds with `BUSY = 1`; `FID` cannot be read then. -/
theorem test_stalled_command :
    let t := present1 State.reset 0x49000000
    t.statusWord = 1 ∧ (after (step { t with host := [.readCtl 0] })).answer = .ctl 1 ∧
      (after (step { t with host := [.readCtl 3] })).answer = .refused := by decide +kernel

/-! ## Witnesses: the hypotheses of each statement can be met together, at the ends of their ranges -/

/-- The start marker alone ends the hunt, and so it does behind bytes that are no marker. -/
theorem endsHunt_of {h : List Byte} (hs : [0x55, 0x55, 0x55, 0x55] <:+ h)
    (hn : ∀ n, n < h.length → ¬ [0x55, 0x55, 0x55, 0x55] <:+ h.take n) : endsHunt h := by
  refine ⟨hs, fun p hp hm => ?_⟩
  rcases Nat.lt_or_ge p.length h.length with hlt | hge
  · exact absurd (List.prefix_iff_eq_take.1 hp ▸ hm) (hn _ hlt)
  · exact hp.eq_of_length_le hge

theorem endsHunt_marker : endsHunt [0x55, 0x55, 0x55, 0x55] := endsHunt_of (by decide) (by decide)

theorem endsHunt_stray : endsHunt [0x55, 0x01, 0x55, 0x55, 0x55, 0x55] := endsHunt_of (by decide) (by decide)

theorem skippable_empty : skippable [] := by unfold skippable; decide

theorem skippable_some : skippable [0x55, 0x55, 0x55, 0x01] := by unfold skippable; decide

theorem witness_DecodeOfEncode :
    Instr.wellFormed (.ldb 15 3 255 32) = true ∧ Instr.wellFormed (.stb 0 0 0 1) = true ∧
      Instr.wellFormed (.btst 15 4095) = true := by decide

theorem witness_EncodeOfDecode : decode 0x310FDFFF = .ok (.stb 15 3 255 32) := by decide

theorem witness_DecoderAgreesWithOpcodeTable :
    rowOf (.ldb 15 3 255 32) ∈ opcodeTable ∧ (rowOf (.ldb 0 0 0 1)).matches 0x30F0DFFF = true ∧
      ∀ r ∈ opcodeTable, r.matches 0x7F000001 = false := by decide

theorem witness_StepRunsPresentedCommand :
    let s : State := { State.reset with host := [.command 0x7F000000] }
    let w : State := { s with busy := true, inflight := some .rxack }
    s.host = .command 0x7F000000 :: [] ∧ s.busy = false ∧ decode 0x7F000000 = .ok .sinit ∧
      Instr.wellFormed .sinit = true ∧ decode (encode .sinit) = .ok .sinit ∧
      w.host = .command 0x7F000000 :: [] ∧ w.busy = true := by decide

theorem witness_IllegalWordConsumed :
    let s : State := { State.reset with host := [.command 0xFFFFFFFF] }
    s.host = .command 0xFFFFFFFF :: [] ∧ s.busy = false ∧ decode 0xFFFFFFFF = .error .opcode := by decide

theorem witness_HostRegisterPort :
    State.reset.busy = false ∧ (accept .rxack State.reset).busy = true ∧ (0 : RegNum) ≠ 15 := by decide

/-- The last byte of a portion, and the first beyond it. -/
theorem witness_HostBufferPort :
    let s : State := { State.reset with plen := lengths 255 0 0 0 }
    s.busy = false ∧ (254#8).toNat < s.plenAt 0 ∧ Memory.wf s.buf = true ∧ bufKey 0 253 ≠ bufKey 0 (254#8).toNat ∧
      s.plenAt 0 ≤ (255#8).toNat ∧ (accept .rxack s).busy = true := by decide

theorem witness_HostControlPort :
    downState.busy = false ∧ State.reset.ecause = none ∧ downState.ecause = some .protocolError ∧
      (∀ c ∈ [Cause.transportError, .framingError, .arithmeticError, .illegalCommand, .boundsError, .rangeError,
        .linkDown], (raise c State.reset).ecause = some c) ∧
      downState.link = .failed ∧ (accept .rxack downState).busy = true := by decide

theorem witness_ResetInput :
    ({ accept .rxack State.reset with host := [.reset] } : State).host = .reset :: [] := by decide

theorem witness_HoldChangesNothing :
    let s (p : Phase) (r : List RxAnswer) (u : List TxAnswer) : State :=
      { accept .sendcall State.reset with fsm := ⟨p, .ident⟩, rx := r, tx := u }
    (s .ackRx [] []).host = [] ∧ (s .ackRx [] []).busy = true ∧ (s .ackRx [] []).fsm.phase ∈ receiving ∧
      (s .ackRx [] []).rx = [] ∧ (s .ackRx [.wouldBlock] []).rx = .wouldBlock :: [] ∧
      (s .txStop [] []).fsm.phase ∈ sending ∧ (s .txStop [] []).tx = [] ∧
      (s .txStop [] [.wouldBlock]).tx = .wouldBlock :: [] := by decide

theorem witness_RaiseEntry : Cause.protocolError.code ∈ [1, 2, 3] ∧ Cause.arithmeticError.code ∉ [1, 2, 3] := by decide

theorem witness_FinvWritesTheInverse :
    (State.reset.getX 0).toNat = 0 ∧ ((regs2 1 Config.P 2 (Config.P - 1)).getX 1).toNat = Config.P ∧
      ((regs2 1 Config.P 2 (Config.P - 1)).getX 2).toNat ≠ 0 ∧
      ((regs2 1 Config.P 2 (Config.P - 1)).getX 2).toNat ≠ Config.P ∧ 1 ≤ Config.P - 1 ∧
      (Config.P - 1) * (Config.P - 1) % Config.P = 1 := by decide

theorem witness_BtstTestsTheBit : 4095 ≤ 4095 ∧ 256 ≤ 256 ∧ 255 ≤ 4095 := by decide

/-- Operands for each of the seven clauses, in their order. -/
theorem witness_PointAddByTheSlope :
    let p : Nat := Config.P
    let P1 : Word := BitVec.ofNat 256 (p + 1)
    (⟨0, 0⟩ : Point) = ⟨0, 0⟩ ∧ (⟨0, 1⟩ : Point) ≠ ⟨0, 0⟩ ∧ (⟨5, 1⟩ : Point) ≠ ⟨5, 2⟩ ∧
      2 * (((⟨5, 0⟩ : Point).y.toNat : Nat) : Int) % (p : Int) = 0 ∧
      2 * (((⟨5, 1⟩ : Point).y.toNat : Nat) : Int) % (p : Int) ≠ 0 ∧
      ((P1.toNat : Int) - ((1 : Word).toNat : Int)) % (p : Int) = 0 ∧ P1 ≠ 1 ∧
      (((2 : Word).toNat : Int) - ((1 : Word).toNat : Int)) % (p : Int) ≠ 0 := by decide

theorem witness_PointAddRaisesExactlyThere :
    let p1 : Word := BitVec.ofNat 256 (Config.P + 1)
    (⟨5, 0⟩ : Point) ≠ ⟨0, 0⟩ ∧ ((⟨5, 0⟩ : Point).y).toNat = 0 ∧ (⟨1, 7⟩ : Point) ≠ ⟨0, 0⟩ ∧
      (⟨p1, 9⟩ : Point) ≠ ⟨0, 0⟩ ∧ (1 : Word) ≠ p1 ∧ (1 : Word).toNat + Config.P = p1.toNat := by decide

theorem witness_PointAddCommutes :
    (⟨1, 7⟩ : Point) ≠ ⟨0, 0⟩ ∧ (⟨2, 9⟩ : Point) ≠ ⟨0, 0⟩ ∧ (1 : Word) ≠ 2 := by decide

/-- `(1, 7)` lies on the curve with `c = 51`, `(0, 0)` is infinity; both operations succeed on them. -/
theorem witness_PointOperationsKeepTheCurve :
    onCurve 51 ⟨1, 7⟩ ∧ pointAdd ⟨1, 7⟩ ⟨0, 0⟩ = .ok ⟨1, 7⟩ ∧ pointScalarMul 1 ⟨1, 7⟩ = .ok ⟨1, 7⟩ := by
  refine ⟨?_, rfl, ?_⟩
  · unfold onCurve; decide
  · rfl

theorem witness_PaddWritesTheSum :
    pointAdd (State.reset.getQ 0) (State.reset.getQ 1) = .ok ⟨0, 0⟩ ∧
      pointAdd ((regs2 0 5 1 0).getQ 0) ((regs2 0 5 1 0).getQ 0) = .error .arithmeticError := ⟨rfl, rfl⟩

theorem witness_ScalarMulSmallMultiples : pointScalarMul 2 ⟨5, 0⟩ = .error .arithmeticError := rfl

theorem witness_PmulWritesTheMultiple :
    pointScalarMul (State.reset.getX 4) (State.reset.getQ 0) = .ok ⟨0, 0⟩ ∧
      pointScalarMul (((regs2 0 5 1 0).setX 4 2).getX 4) (((regs2 0 5 1 0).setX 4 2).getQ 0)
        = .error .arithmeticError := ⟨rfl, rfl⟩

/-- The widest load that is in range, and the widest that is one byte too far. -/
theorem witness_LdbLoadsBigEndian :
    let s : State := { State.reset with plen := lengths 255 0 0 0 }
    223 ≤ 255 ∧ 1 ≤ 32 ∧ 32 ≤ 32 ∧ 223 + 32 ≤ s.plenAt 0 ∧ s.plenAt 0 < 224 + 32 ∧ s.plenAt 0 < 255 + 1 ∧
      s.plenAt 1 < 0 + 1 := by decide

theorem witness_StbStoresBigEndian :
    let s : State := { regs2 1 255 2 256 with plen := lengths 1 0 0 0 }
    0 + 1 ≤ s.plenAt 0 ∧ (s.getX 1).toNat < 2 ^ (8 * 1) ∧ 2 ^ (8 * 1) ≤ (s.getX 2).toNat ∧
      s.plenAt 0 < 1 + 1 := by decide

theorem witness_MemWriteThenMemRead :
    let s : State := { State.reset with plen := lengths 3 0 0 0 }
    Memory.wf s.buf = true ∧ s.inRange 0 1 [0x01, (0x02 : Byte)].length = true ∧ 254 ≤ 254 ∧ (1 : Slot) ≠ 0 ∧
      1 + [0x01, (0x02 : Byte)].length ≤ 3 := by decide

theorem witness_StoreThenLoadAndBack :
    let s : State := { regs2 1 (2 ^ 256 - 1) 2 0 with plen := lengths 32 0 0 0 }
    Memory.wf s.buf = true ∧ 1 ≤ 32 ∧ 32 ≤ 32 ∧ 0 + 32 ≤ s.plenAt 0 ∧ (s.getX 1).toNat < 2 ^ (8 * 32) := by decide

theorem witness_LinkGate : isChannel .recvcall = true ∧ downState.link = .failed := by decide

/-- The whole frame, nothing of it, and all but its last byte. -/
theorem witness_TxfSendsThePortion :
    let s (u : List TxAnswer) : State := chanState (lengths 0 0 0 2) 3 [1, 2] [] u
    downState.link = .failed ∧ (s []).link = .opened ∧ (s (accepts 10)).tx = accepts ((s []).plenAt 3 + 8) ++ [] ∧
      0 < (s []).plenAt 3 + 8 ∧ (s [.closed]).tx = accepts 0 ++ .closed :: [] ∧
      9 < (s []).plenAt 3 + 8 ∧ (s (accepts 9 ++ [.hardError])).tx = accepts 9 ++ .hardError :: [] := by decide

theorem witness_txFails : TxAnswer.fails .closed ∧ TxAnswer.fails .hardError := by unfold TxAnswer.fails; decide

theorem witness_rxFails : RxAnswer.fails .closed ∧ RxAnswer.fails .hardError := by unfold RxAnswer.fails; decide

theorem witness_TxidSendsTheIdentifier :
    let s (u : List TxAnswer) : State := { State.reset with tx := u }
    (s []).link = .opened ∧ (s (accepts 12)).tx = accepts 12 ++ [] ∧ 11 < 12 ∧
      (s (accepts 11 ++ [.closed])).tx = accepts 11 ++ .closed :: [] := by decide

theorem witness_TxackSendsTheToken :
    let s (u : List TxAnswer) : State := { State.reset with tx := u }
    (s []).link = .opened ∧ (s (accepts 3)).tx = accepts 3 ++ [] ∧ 2 < 3 ∧
      (s (accepts 2 ++ [.hardError])).tx = accepts 2 ++ .hardError :: [] := by decide

/-- A whole frame behind stray bytes; a wrong last stop byte; a channel that fails at the last byte of each phase. -/
theorem witness_RxfReceivesIntoThePortion :
    let s (r : List RxAnswer) : State := chanState (lengths 2 0 0 0) 0 [] r []
    let h : List Byte := [0x55, 0x01, 0x55, 0x55, 0x55, 0x55]
    endsHunt h ∧ ([0xFF, 0x07] : List Byte).length = (s []).plenAt 0 ∧
      (s (arrives (h ++ [0xFF, 0x07] ++ [0xFF, 0xFF, 0xFF, 0xFF]))).rx
        = arrives (h ++ [0xFF, 0x07] ++ [0xFF, 0xFF, 0xFF, 0xFF]) ++ [] ∧
      ([0xFF, 0xFF, 0xFF, 0xFE] : List Byte) ≠ [0xFF, 0xFF, 0xFF, 0xFF] ∧
      ¬ ([0x55, 0x55, 0x55, 0x55] : List Byte) <:+: [0x55, 0x55, 0x55] ∧
      ([0xFF] : List Byte).length < (s []).plenAt 0 ∧ ([0xFF, 0xFF, 0xFF] : List Byte).length < 4 ∧
      (s (arrives ([0x55, 0x55, 0x55] ++ [] ++ []) ++ [.closed])).rx
        = arrives ([0x55, 0x55, 0x55] ++ [] ++ []) ++ .closed :: [] := by
  refine ⟨endsHunt_stray, ?_⟩
  decide

theorem witness_RxidReceivesTheIdentifier :
    let s (r : List RxAnswer) : State := { State.reset with rx := r }
    let h : List Byte := [0x55, 0x55, 0x55, 0x55]
    endsHunt h ∧ (s []).link = .opened ∧ ([1, 2, 3, 4] : List Byte).length = 4 ∧
      (s (arrives (h ++ [1, 2, 3, 4] ++ [0xFF, 0xFF, 0xFF, 0xFF]))).rx
        = arrives (h ++ [1, 2, 3, 4] ++ [0xFF, 0xFF, 0xFF, 0xFF]) ++ [] ∧
      ([1, 2, 3] : List Byte).length < 4 ∧
      (s (arrives (h ++ [1, 2, 3] ++ []) ++ [.hardError])).rx
        = arrives (h ++ [1, 2, 3] ++ []) ++ .hardError :: [] := by
  refine ⟨endsHunt_marker, ?_⟩
  decide

/-- A frame behind bytes that are skipped and behind bytes that are not, for both commands; a payload that ends in
`FF` and one that does not, behind one stray `55`. -/
theorem witness_StrayBytesAreSkippedExactlyThen :
    let s (r : List RxAnswer) : State := chanState (lengths 1 0 0 0) 0 [] r []
    let g : List Byte := [0x55, 0x55, 0x55, 0x01]
    (s []).link = .opened ∧ skippable g ∧ ¬ skippable [0x55] ∧ ([0x07] : List Byte).length = (s []).plenAt 0 ∧
      (s (arrives (g ++ frame [0x07]))).rx = arrives (g ++ frame [0x07]) ++ [] ∧
      (s (arrives ([0x55] ++ frame [0x07]))).rx = arrives ([0x55] ++ frame [0x07]) ++ [] ∧
      ([1, 2, 3, 4] : List Byte).length = 4 ∧
      (s (arrives (g ++ frame [1, 2, 3, 4]))).rx = arrives (g ++ frame [1, 2, 3, 4]) ++ [] ∧
      ([] : List Byte).length + 1 = (s []).plenAt 0 ∧ (0x07 : Byte) ≠ 0xFF ∧
      (s (arrives (g ++ [0x55] ++ frame ([] ++ [0x07])))).rx = arrives (g ++ [0x55] ++ frame ([] ++ [0x07])) ++ [] ∧
      (s (arrives (g ++ [0x55] ++ frame ([] ++ [0xFF])))).rx
        = arrives (g ++ [0x55] ++ frame ([] ++ [0xFF])) ++ [] := by
  refine ⟨rfl, skippable_some, by unfold skippable; decide, ?_⟩
  decide

theorem witness_RxackAwaitsTheToken :
    let s (r : List RxAnswer) : State := { State.reset with rx := r }
    (s []).link = .opened ∧ (s (arrives [0x41, 0x43, 0x4B])).rx = arrives [0x41, 0x43, 0x4B] ++ [] ∧
      ([0x61, 0x63, 0x6B] : List Byte).length = 3 ∧ ([0x61, 0x63, 0x6B] : List Byte) ≠ [0x41, 0x43, 0x4B] ∧
      ([0x41, 0x43] : List Byte).length < 3 ∧
      (s (arrives [0x41, 0x43] ++ [.closed])).rx = arrives [0x41, 0x43] ++ .closed :: [] ∧
      (s (arrives [0x41, 0x43])).rx = arrives [0x41, 0x43] := by decide

theorem witness_SendcallSendsTheEnvelope :
    let s : State := chanState (lengths 0 2 0 1) 1 [1, 2] (arrives (tokens 3)) (accepts 31)
    s.link = .opened ∧ s.tx = accepts s.envelope.length ++ [] ∧
      s.rx = arrives (tokens (s.presentSlots.length + 1)) ++ [] := by decide +kernel

theorem witness_RecvcallReceivesTheEnvelope :
    let g : Slot → List Byte := fun _ => [0x55, 0x55, 0x55, 0x01]
    let p : Slot → List Byte := fun b => if b = 1 then [1, 2] else if b = 3 then [0x55] else []
    let s : State := chanState (lengths 0 2 0 1) 1 [] (arrives (frame [9, 8, 7, 6] ++ [0x55, 0x55, 0x55, 0x01] ++
      frame [1, 2] ++ [0x55, 0x55, 0x55, 0x01] ++ frame [0x55])) (accepts 9)
    s.link = .opened ∧ skippable [] ∧ ([9, 8, 7, 6] : List Byte).length = 4 ∧ (∀ b, skippable (g b)) ∧
      (∀ b, (p b).length = s.plenAt b) ∧
      s.rx = arrives ([] ++ frame [9, 8, 7, 6] ++ (s.presentSlots.map fun b => g b ++ frame (p b)).flatten) ++ [] ∧
      s.tx = accepts (3 * (s.presentSlots.length + 1)) ++ [] := by
  refine ⟨rfl, skippable_empty, rfl, fun _ => skippable_some, ?_⟩
  decide +kernel

theorem witness_FrameRoundTrip :
    let s : State := chanState (lengths 1 0 0 0) 0 [0x55] [] (accepts 9)
    let u : State := chanState (lengths 0 1 0 0) 1 [] (arrives (frame [0x55])) []
    s.link = .opened ∧ u.link = .opened ∧ Memory.wf u.buf = true ∧ u.plenAt 1 = s.plenAt 0 ∧
      s.tx = accepts (s.plenAt 0 + 8) ++ [] ∧ u.rx = arrives (frame (s.portion 0)) ++ [] := by decide +kernel

theorem witness_EnvelopeRoundTrip :
    let s : State := chanState (lengths 0 2 0 0) 1 [1, 2] (arrives (tokens 2)) (accepts 22)
    let u : State := chanState (lengths 0 2 0 0) 1 [] (arrives s.envelope) (accepts 6)
    s.link = .opened ∧ u.link = .opened ∧ Memory.wf u.buf = true ∧ u.plen = s.plen ∧
      s.tx = accepts s.envelope.length ∧ s.rx = arrives (tokens (s.presentSlots.length + 1)) ∧
      u.tx = accepts (tokens (s.presentSlots.length + 1)).length ∧ u.rx = arrives s.envelope := by decide +kernel

theorem witness_AnswersMayComeLater :
    let s : State := { accept .rxack State.reset with fsm := ⟨.ackRx, .ident⟩, rx := arrives [0x41] }
    RxAnswer.wouldBlock ∉ s.rx ∧ TxAnswer.wouldBlock ∉ s.tx ∧ s.busy = true := by decide

/-- A state that meets the invariant, waiting inside a command, and a step from it. -/
theorem witness_InvKeptByStep :
    let s := after (exec .rxack State.reset)
    s.Inv = true ∧ s.busy = true ∧ step s = .next (after (step s)) := by
  refine ⟨by decide +kernel, by decide +kernel, rfl⟩

theorem witness_ErrorsWriteNoResult :
    exec (.finv 1 0) State.reset = .next (after (exec (.finv 1 0) State.reset)) ∧
      (after (exec (.finv 1 0) State.reset)).err = true := by
  refine ⟨rfl, by decide +kernel⟩

theorem witness_RegistersFrame :
    exec (.fadd 3 1 2) State.reset = .next (after (exec (.fadd 3 1 2) State.reset)) ∧
      (1 : RegNum) ∉ destRegs (.fadd 3 1 2) := ⟨rfl, by decide⟩

/-- The keys just below and just above the two bytes stored. -/
theorem witness_MemoryFrame :
    let s : State := { State.reset with plen := lengths 4 0 0 0 }
    exec (.stb 0 0 1 2) s = .next (after (exec (.stb 0 0 1 2) s)) ∧ bufKey 0 0 ∉ destKeys s (.stb 0 0 1 2) ∧
      bufKey 0 3 ∉ destKeys s (.stb 0 0 1 2) := ⟨rfl, by decide⟩

theorem witness_ControlFrame :
    exec .txid State.reset = .next (after (exec .txid State.reset)) ∧ Instr.txid ≠ .rxid ∧
      Instr.txid ≠ .recvcall ∧ isChannel (.fadd 0 0 0) = false := ⟨rfl, by decide⟩

/-- For the first part a failed link that stays; for the second a mismatch of the token. -/
theorem witness_StickyUntilSinitOrReset :
    let s : State := { downState with host := [.command 0x49000000] }
    let u : State := { State.reset with host := [.command 0x49000000], rx := arrives [0, 0, 0] }
    step s = .next (after (step s)) ∧ (∀ rest, s.host ≠ .reset :: rest) ∧ s.link = .failed ∧
      step u = .next (after (step u)) ∧ u.link = .opened ∧ (after (step u)).link = .failed := by
  refine ⟨rfl, ?_, rfl, rfl, rfl, by decide +kernel⟩
  intro rest h
  cases h

theorem witness_StreamsAreUsedInOrder : step State.reset = .next (after (step State.reset)) := rfl

theorem witness_OnlyChannelCommandsWait :
    exec .rxack State.reset = .next (after (exec .rxack State.reset)) ∧
      (after (exec .rxack State.reset)).busy = true ∧ RxAnswer.wouldBlock ∉ State.reset.rx ∧
      TxAnswer.wouldBlock ∉ State.reset.tx := by
  refine ⟨rfl, by decide +kernel, by decide, by decide⟩

theorem witness_HiddenStateDoesNotMatter :
    let u : State := { State.reset with win := 0x55555555, stg := 7 }
    State.reset.shown = u.shown ∧ exec .sinit State.reset = .next (after (exec .sinit State.reset)) ∧
      exec .sinit u = .next (after (exec .sinit u)) ∧ (after (exec .sinit State.reset)).busy = false :=
  ⟨rfl, rfl, rfl, rfl⟩

end Sys2Proof.Tests
end

section
/-! Proofs of 00_scope.md: R13 (O53), R16 (O59). First what any command can come to: the commands of the arithmetic,
load, store and system units end at once; a channel command ends at once on a failed link and runs on an open one. Then
what a run leaves unwritten, and what holds of the block as long as a command is in flight. -/

namespace Sys2Proof.Machine

open Sys2Proof

/-! ## What a channel command leaves unwritten -/

/-- The fields no channel command writes, whatever the channel answers. -/
structure Unwritten (s t : State) : Prop where
  x : t.x = s.x
  flagT : t.flagT = s.flagT
  flagEq : t.flagEq = s.flagEq
  plen : t.plen = s.plen
  host : t.host = s.host
  answer : t.answer = s.answer

theorem Unwritten.refl (s : State) : Unwritten s s := ⟨rfl, rfl, rfl, rfl, rfl, rfl⟩

theorem Unwritten.trans {s t u : State} (h : Unwritten s t) (k : Unwritten t u) : Unwritten s u :=
  ⟨k.x.trans h.x, k.flagT.trans h.flagT, k.flagEq.trans h.flagEq, k.plen.trans h.plen, k.host.trans h.host,
   k.answer.trans h.answer⟩

theorem Keeps.unwritten {s t : State} (k : Keeps s t) : Unwritten s t :=
  ⟨k.x, k.flagT, k.flagEq, k.plen, k.host, k.answer⟩

theorem unwritten_ports (s : State) (r : List RxAnswer) (u : List TxAnswer) (w : List Byte) :
    Unwritten s { s with rx := r, tx := u, sent := w } := ⟨rfl, rfl, rfl, rfl, rfl, rfl⟩

theorem unwritten_accept (i : Instr) (s : State) : Unwritten s (accept i s) := ⟨rfl, rfl, rfl, rfl, rfl, rfl⟩

theorem unwritten_failed (c : Cause) (s : State) : Unwritten s (s.failed c).settled :=
  ⟨rfl, rfl, rfl, rfl, rfl, rfl⟩

theorem Used.unwritten {s t : State} (h : Used s t) : Unwritten s t := by
  cases h with
  | pacing _ k _ => exact k.unwritten
  | read _ r _ k => exact (unwritten_ports s r s.tx s.sent).trans k.unwritten
  | wrote b r _ k => exact (unwritten_ports s s.rx r (s.sent ++ [b])).trans k.unwritten
  | refused _ r _ _ k => exact (unwritten_ports s s.rx r s.sent).trans k.unwritten

theorem blockEvent_holds_unwritten {s t : State} (h : blockEvent s = .holds t) : Unwritten s t := by
  rcases blockEvent_holds h with rfl | ⟨r, _, rfl⟩ | ⟨r, _, rfl⟩
  · exact .refl _
  · exact unwritten_ports s r s.tx s.sent
  · exact unwritten_ports s s.rx r s.sent

theorem resume_unwritten (s : State) : Unwritten s (resume s) :=
  resume_induction (motive := Unwritten) (fun s _ => .refl s) (fun _ _ _ h => blockEvent_holds_unwritten h)
    (fun _ _ _ h ih => (blockEvent_used h).unwritten.trans ih) s

/-! ## What a command can come to -/

/-- A command that is over when it is executed: without error, or with an error that writes nothing but the error's own
record (60_exceptions.md R254). -/
inductive EndsAtOnce (s t : State) : Prop where
  | done (u : State) (h : t = u.done.settled)
  | failed (c : Cause) (h : t = (s.failed c).settled)

theorem EndsAtOnce.not_busy {s t : State} (h : EndsAtOnce s t) : t.busy = false := by
  cases h with
  | done u h => subst h; rfl
  | failed c h => subst h; rfl

/-- Only the end without error writes a result. -/
theorem EndsAtOnce.unwritten {s t : State} (h : EndsAtOnce s t) (he : t.err = true) : Unwritten s t := by
  cases h with
  | done u h => subst h; cases he
  | failed c h => subst h; exact unwritten_failed c s

theorem writeReg_endsAtOnce (rd : RegNum) (r : Except Cause Word) (i : Instr) (s : State) :
    EndsAtOnce s (writeReg rd r (accept i s)) := by
  rcases writeReg_cases rd r i s with ⟨v, _, h⟩ | ⟨c, _, h⟩
  · exact .done _ h
  · exact .failed c h

theorem writePoint_endsAtOnce (qd : PointNum) (r : Except Cause Point) (i : Instr) (s : State) :
    EndsAtOnce s (writePoint qd r (accept i s)) := by
  rcases writePoint_cases qd r i s with ⟨p, _, h⟩ | ⟨c, _, h⟩
  · exact .done _ h
  · exact .failed c h

theorem execPmul_endsAtOnce {qd : PointNum} {rk : RegNum} {qa : PointNum} {s t : State}
    (h : execPmul qd rk qa s = .next t) : EndsAtOnce s t := by
  rw [execPmul_eq] at h
  cases hm : pointScalarMul (s.getX rk) (s.getQ qa) with
  | ok p => rw [hm] at h; cases h; exact .done _ rfl
  | error c => rw [hm] at h; cases h; exact .failed c rfl

theorem execLdb_endsAtOnce {rd : RegNum} {b : Slot} {off w : Nat} {s t : State}
    (h : execLdb rd b off w s = .next t) : EndsAtOnce s t := by
  unfold execLdb at h
  dsimp only at h
  split at h
  · cases h; exact writeReg_endsAtOnce _ _ _ s
  · cases h; exact .failed _ (raise_accept _ _ s)

theorem execStb_endsAtOnce {ra : RegNum} {b : Slot} {off w : Nat} {s t : State}
    (h : execStb ra b off w s = .next t) : EndsAtOnce s t := by
  unfold execStb at h
  dsimp only at h
  split at h
  · split at h
    · cases h; exact .failed _ (raise_accept _ _ s)
    · cases h
      rw [memWrite_eq_buf]
      exact .done { s with buf := ((accept (.stb ra b off w) s).memWrite b off (be (s.getX ra).toNat w)).buf } rfl
  · cases h; exact .failed _ (raise_accept _ _ s)

/-- A command that uses no channel is over when it is executed (00_scope.md R16). -/
theorem exec_endsAtOnce {i : Instr} {s t : State} (hi : isChannel i = false) (h : exec i s = .next t) :
    EndsAtOnce s t := by
  cases i with
  | fadd rd ra rb => cases h; exact writeReg_endsAtOnce _ _ _ s
  | fsub rd ra rb => cases h; exact writeReg_endsAtOnce _ _ _ s
  | fmul rd ra rb => cases h; exact writeReg_endsAtOnce _ _ _ s
  | fred rd ra => cases h; exact writeReg_endsAtOnce _ _ _ s
  | finv rd ra => cases h; exact writeReg_endsAtOnce _ _ _ s
  | btst ra idx => cases h; exact .done (s.setT (testBit (s.getX ra) idx)) rfl
  | padd qd qa qb => cases h; exact writePoint_endsAtOnce _ _ _ s
  | pmul qd rk qa => exact execPmul_endsAtOnce h
  | peq qa qb => cases h; exact .done (s.setEq (pointsEqual (s.getQ qa) (s.getQ qb))) rfl
  | ldb rd b off w => exact execLdb_endsAtOnce h
  | stb ra b off w => exact execStb_endsAtOnce h
  | sinit => cases h; exact .done { s with link := .opened, esticky := 0, win := 0 } rfl
  | txf _ | txid | rxf _ | rxid | txack | rxack | sendcall | recvcall => cases hi

/-- Where a channel command begins; the other commands have no such place. -/
def entry : Instr → State → State
  | .txf b => enterSend (.slot b)
  | .txid => enterSend .ident
  | .rxf b => enterReceive (.slot b)
  | .rxid => enterReceive .ident
  | .txack => enterAckTx
  | .rxack => enterAckRx
  | .sendcall => enterSend .ident
  | .recvcall => enterReceive .ident
  | _ => id

theorem exec_channel {i : Instr} (s : State) (hi : isChannel i = true) :
    exec i s = .next (channelCommand i (entry i) s) := by
  cases i with
  | txf _ | txid | rxf _ | rxid | txack | rxack | sendcall | recvcall => rfl
  | _ => cases hi

/-- A channel command ends at once on a failed link and runs on an open one (43_frame.md R179). -/
theorem exec_channel_cases {i : Instr} {s t : State} (hi : isChannel i = true) (h : exec i s = .next t) :
    (s.link = .failed ∧ t = (s.failed .linkDown).settled) ∨
      (s.link = .opened ∧ t = resume (entry i (accept i s))) := by
  rw [exec_channel s hi] at h
  cases h
  cases hl : s.link with
  | failed => exact .inl ⟨rfl, channelCommand_failed i _ hl⟩
  | opened => exact .inr ⟨rfl, channelCommand_opened i _ hl⟩

theorem keeps_entry (i : Instr) (s : State) : Keeps s (entry i s) := by
  cases i with
  | txf _ | txid | sendcall => exact keeps_enterSend _ s
  | rxf _ | rxid | recvcall => exact keeps_enterReceive _ s
  | txack => exact keeps_toPhase _ s
  | rxack => exact keeps_enterAckRx s
  | _ => exact .refl s

/-! ## R13 -/

/-- Settles O53: a channel command never writes these fields, and any other command writes them only as it ends
without error. -/
theorem errorsWriteNoResult : Obligations.ErrorsWriteNoResult := by
  intro i s t h he
  have hw : Unwritten s t := by
    cases hi : isChannel i with
    | false => exact (exec_endsAtOnce hi h).unwritten he
    | true =>
      rcases exec_channel_cases hi h with ⟨_, rfl⟩ | ⟨_, rfl⟩
      · exact unwritten_failed _ s
      · exact ((unwritten_accept i s).trans (keeps_entry i _).unwritten).trans (resume_unwritten _)
  exact ⟨hw.x, hw.flagT, hw.flagEq, hw.plen⟩

/-! ## The command in flight -/

/-- The command `i` has ended, or it is in flight without error at some place of its pseudocode. -/
inductive Runs (i : Instr) (s : State) : Prop where
  | ended (h : s.busy = false)
  | live (inflight : s.inflight = some i) (err : s.err = false) (ecause : s.ecause = none)
      (phase : s.fsm.phase ≠ .idle)

theorem runs_raise (i : Instr) (c : Cause) (s : State) : Runs i (raise c s) := .ended rfl

theorem runs_finish (i : Instr) (s : State) : Runs i (finish s) := .ended rfl

theorem runs_entry {i : Instr} (s : State) (hi : isChannel i = true) : Runs i (entry i (accept i s)) := by
  cases i with
  | txf _ | txid | rxf _ | rxid | txack | rxack | sendcall | recvcall =>
    exact .live rfl rfl rfl nofun
  | _ => cases hi

section

variable {i : Instr} {s t : State}

/-- What goes on inside the command keeps it in flight, if it does not put `FSM` to rest. -/
theorem Runs.moved (h : Runs i s) (hb : t.busy = s.busy) (hi : t.inflight = s.inflight) (he : t.err = s.err)
    (hc : t.ecause = s.ecause) (hp : s.fsm.phase ≠ .idle → t.fsm.phase ≠ .idle) : Runs i t := by
  cases h with
  | ended h => exact .ended (hb.trans h)
  | live inflight err ecause phase =>
    exact .live (hi.trans inflight) (he.trans err) (hc.trans ecause) (hp phase)

theorem Runs.ports (h : Runs i s) (r : List RxAnswer) (u : List TxAnswer) (w : List Byte) :
    Runs i { s with rx := r, tx := u, sent := w } := h.moved rfl rfl rfl rfl id

theorem Runs.toPhase (h : Runs i s) {p : Phase} (hp : p ≠ .idle) : Runs i (s.toPhase p) :=
  h.moved rfl rfl rfl rfl fun _ => hp

theorem Runs.enterSend (it : Item) (h : Runs i s) : Runs i (enterSend it s) :=
  h.moved rfl rfl rfl rfl fun _ => nofun

theorem Runs.enterReceive (it : Item) (h : Runs i s) : Runs i (enterReceive it s) :=
  h.moved rfl rfl rfl rfl fun _ => nofun

theorem Runs.enterStop (h : Runs i s) : Runs i (enterStop s) := h.moved rfl rfl rfl rfl fun _ => nofun

theorem Runs.enterAckRx (h : Runs i s) : Runs i (enterAckRx s) := h.moved rfl rfl rfl rfl fun _ => nofun

theorem Runs.enterAckTx (h : Runs i s) : Runs i (enterAckTx s) := h.toPhase nofun

theorem Runs.enterTxStop (h : Runs i s) : Runs i (enterTxStop s) := h.toPhase nofun

theorem Runs.enterTxPayload (h : Runs i s) : Runs i (enterTxPayload s) := by
  unfold Machine.enterTxPayload
  split
  · exact h.toPhase nofun
  · exact h.toPhase nofun

theorem Runs.enterPayload (h : Runs i s) : Runs i (enterPayload s) := by
  unfold Machine.enterPayload
  split
  · exact h.enterStop
  · exact h.toPhase nofun

theorem Runs.nextItem {f : Item → State → State} (hf : ∀ it s, Runs i s → Runs i (f it s)) (h : Runs i s) :
    Runs i (nextItem f s) := by
  unfold Machine.nextItem
  split
  · exact hf _ s h
  · exact runs_finish i s

theorem Runs.afterFrameSent (h : Runs i s) : Runs i (afterFrameSent s) := by
  unfold Machine.afterFrameSent
  split
  · exact h.toPhase nofun
  · exact runs_finish i s

theorem Runs.afterTokenReceived (h : Runs i s) : Runs i (afterTokenReceived s) := by
  unfold Machine.afterTokenReceived
  split
  · exact h.nextItem fun it _ h => h.enterSend it
  · exact runs_finish i s

theorem Runs.afterFrameReceived (h : Runs i s) : Runs i (afterFrameReceived s) := by
  unfold Machine.afterFrameReceived
  split
  · exact h.enterAckTx
  · exact runs_finish i s

theorem Runs.afterTokenSent (h : Runs i s) : Runs i (afterTokenSent s) := by
  unfold Machine.afterTokenSent
  split
  · exact h.nextItem fun it _ h => h.enterReceive it
  · exact runs_finish i s

theorem Runs.countByte {n : Nat} {f : State → State} (hf : ∀ s, Runs i s → Runs i (f s)) (h : Runs i s) :
    Runs i (countByte n f s) := by
  unfold Machine.countByte
  split
  · exact hf s h
  · exact h.moved rfl rfl rfl rfl id

theorem Runs.stopTest (h : Runs i s) : Runs i (stopTest s) := by
  unfold Machine.stopTest
  split
  · exact h.afterFrameReceived
  · exact runs_raise i _ s

theorem Runs.tokenTest (h : Runs i s) : Runs i (tokenTest s) := by
  unfold Machine.tokenTest
  split
  · exact h.afterTokenReceived
  · exact runs_raise i _ s

theorem Runs.sinkByte (it : Item) (j : Nat) (v : Byte) (h : Runs i s) : Runs i (s.sinkByte it j v) := by
  cases it with
  | ident => exact h.moved rfl rfl rfl rfl id
  | slot b => exact h.moved rfl rfl rfl rfl id

theorem Runs.huntByte (b : Byte) (h : Runs i s) : Runs i (huntByte b s) := by
  have hw : Runs i { s with win := shiftIn s.win b } := h.moved rfl rfl rfl rfl id
  unfold Machine.huntByte
  dsimp only
  split
  · exact hw.enterPayload
  · exact hw

theorem Runs.payloadByte (b : Byte) (h : Runs i s) : Runs i (payloadByte b s) :=
  (h.sinkByte _ _ b).countByte fun _ h => h.enterStop

theorem Runs.staged (h : Runs i s) (v : Word32) : Runs i { s with stg := v } := h.moved rfl rfl rfl rfl id

theorem Runs.stopByte (b : Byte) (h : Runs i s) : Runs i (stopByte b s) :=
  (h.staged _).countByte fun _ h => h.stopTest

theorem Runs.tokenByte (b : Byte) (h : Runs i s) : Runs i (tokenByte b s) :=
  (h.staged _).countByte fun _ h => h.tokenTest

theorem Runs.sendByte {b : Byte} {k : State → State} (hk : ∀ s, Runs i s → Runs i (k s)) (h : Runs i s)
    (he : sendByte b k s = .went t) : Runs i t := by
  rcases sendByte_cases he with ⟨r, _, he⟩ | ⟨_, he⟩ | ⟨r, _, he⟩ | ⟨r, _, he⟩
  · cases he; exact hk _ (h.ports s.rx r (s.sent ++ [b]))
  · cases he
  · cases he
  · cases he; exact runs_raise i _ _

theorem Runs.receiveByte {c : Cause} {k : Byte → State → State} (hk : ∀ b s, Runs i s → Runs i (k b s))
    (h : Runs i s) (he : receiveByte c k s = .went t) : Runs i t := by
  rcases receiveByte_cases he with ⟨b, r, _, he⟩ | ⟨_, he⟩ | ⟨r, _, he⟩ | ⟨r, _, he⟩ | ⟨r, _, he⟩
  · cases he; exact hk b _ (h.ports r s.tx s.sent)
  · cases he
  · cases he
  · cases he; exact runs_raise i _ _
  · cases he; exact runs_raise i _ _

/-- After an event the command is still in flight without error, or it has ended. -/
theorem Runs.went (h : Runs i s) (he : blockEvent s = .went t) : Runs i t := by
  unfold blockEvent at he
  split at he
  · cases he
  · exact h.receiveByte (fun b _ h => h.huntByte b) he
  · exact h.receiveByte (fun b _ h => h.payloadByte b) he
  · exact h.receiveByte (fun b _ h => h.stopByte b) he
  · exact h.sendByte (fun _ h => h.countByte fun _ h => h.enterTxPayload) he
  · exact h.sendByte (fun _ h => h.countByte fun _ h => h.enterTxStop) he
  · exact h.sendByte (fun _ h => h.countByte fun _ h => h.afterFrameSent) he
  · exact h.sendByte (fun _ h => h.countByte fun _ h => h.afterTokenSent) he
  · exact h.receiveByte (fun b _ h => h.tokenByte b) he
  · cases he; exact h.enterAckRx

theorem Runs.holds (h : Runs i s) (he : blockEvent s = .holds t) : Runs i t := by
  rcases blockEvent_holds he with rfl | ⟨r, _, rfl⟩ | ⟨r, _, rfl⟩
  · exact h
  · exact h.ports r s.tx s.sent
  · exact h.ports s.rx r s.sent

end

theorem Runs.resume {i : Instr} (s : State) : Runs i s → Runs i (resume s) :=
  resume_induction (motive := fun s t => Runs i s → Runs i t) (fun _ _ h => h) (fun _ _ _ he h => h.holds he)
    (fun _ _ _ he ih h => ih (h.went he)) s

/-! ## Why a command waits -/

/-- The port that the phase needs has no answer in store. -/
def Starved (s : State) : Prop := (s.fsm.phase ∈ receiving ∧ s.rx = []) ∨ (s.fsm.phase ∈ sending ∧ s.tx = [])

/-- No attempt in store will be answered `WouldBlock`. -/
def Prompt (s : State) : Prop := RxAnswer.wouldBlock ∉ s.rx ∧ TxAnswer.wouldBlock ∉ s.tx

theorem Prompt.keeps {s t : State} (h : Prompt s) (k : Keeps s t) : Prompt t := by
  unfold Prompt at h ⊢
  rwa [k.rx, k.tx]

/-- An event takes answers away and adds none. -/
theorem Used.prompt {s t : State} (h : Used s t) (hs : Prompt s) : Prompt t := by
  obtain ⟨hrx, htx⟩ := hs
  cases h with
  | pacing _ k _ => exact Prompt.keeps ⟨hrx, htx⟩ k
  | read _ r hr k =>
    rw [hr] at hrx
    exact Prompt.keeps (s := { s with rx := r }) ⟨List.not_mem_of_not_mem_cons hrx, htx⟩ k
  | wrote b r hr k =>
    rw [hr] at htx
    exact Prompt.keeps (s := { s with tx := r, sent := s.sent ++ [b] }) ⟨hrx, List.not_mem_of_not_mem_cons htx⟩ k
  | refused _ r hr _ k =>
    rw [hr] at htx
    exact Prompt.keeps (s := { s with tx := r }) ⟨hrx, List.not_mem_of_not_mem_cons htx⟩ k

theorem sendByte_holds_prompt {b : Byte} {k : State → State} {s t : State} (hs : Prompt s)
    (h : sendByte b k s = .holds t) : t = s ∧ s.tx = [] := by
  rcases sendByte_cases h with ⟨r, _, he⟩ | ⟨hnil, he⟩ | ⟨r, hr, _⟩ | ⟨r, _, he⟩
  · cases he
  · cases he; exact ⟨rfl, hnil⟩
  · exact absurd (hr ▸ List.mem_cons_self) hs.2
  · cases he

theorem receiveByte_holds_prompt {c : Cause} {k : Byte → State → State} {s t : State} (hs : Prompt s)
    (h : receiveByte c k s = .holds t) : t = s ∧ s.rx = [] := by
  rcases receiveByte_cases h with ⟨b, r, _, he⟩ | ⟨hnil, he⟩ | ⟨r, hr, _⟩ | ⟨r, _, he⟩ | ⟨r, _, he⟩
  · cases he
  · cases he; exact ⟨rfl, hnil⟩
  · exact absurd (hr ▸ List.mem_cons_self) hs.1
  · cases he
  · cases he

/-- Without a `WouldBlock` in store a command holds only for want of an answer (20_memory.md R69, R70). -/
theorem blockEvent_holds_starved {s t : State} (hs : Prompt s) (hp : s.fsm.phase ≠ .idle)
    (h : blockEvent s = .holds t) : Starved t := by
  have hrecv : ∀ {c : Cause} {k : Byte → State → State}, s.fsm.phase ∈ receiving →
      receiveByte c k s = .holds t → Starved t := by
    intro c k hph h
    obtain ⟨rfl, hnil⟩ := receiveByte_holds_prompt hs h
    exact .inl ⟨hph, hnil⟩
  have hsend : ∀ {b : Byte} {k : State → State}, s.fsm.phase ∈ sending →
      sendByte b k s = .holds t → Starved t := by
    intro b k hph h
    obtain ⟨rfl, hnil⟩ := sendByte_holds_prompt hs h
    exact .inr ⟨hph, hnil⟩
  unfold blockEvent at h
  split at h
  next hph => exact absurd hph hp
  next hph => exact hrecv (by rw [hph]; decide) h
  next hph => exact hrecv (by rw [hph]; decide) h
  next hph => exact hrecv (by rw [hph]; decide) h
  next hph => exact hsend (by rw [hph]; decide) h
  next hph => exact hsend (by rw [hph]; decide) h
  next hph => exact hsend (by rw [hph]; decide) h
  next hph => exact hsend (by rw [hph]; decide) h
  next hph => exact hrecv (by rw [hph]; decide) h
  next => cases h

/-- A turn that leaves a command in flight has used all the answers of the port the command needs. -/
theorem resume_starved {i : Instr} (s : State) :
    Runs i s → Prompt s → (resume s).busy = true → Starved (resume s) := by
  refine resume_induction (motive := fun s t => Runs i s → Prompt s → t.busy = true → Starved t) ?_ ?_ ?_ s
  · intro s hidle _ _ hb
    exact absurd hb (by simp [hidle])
  · intro s t hb he hrun hs _
    cases hrun with
    | ended h => exact absurd hb (by simp [h])
    | live _ _ _ hp => exact blockEvent_holds_starved hs hp he
  · intro s t _ he ih hrun hs
    exact ih (hrun.went he) ((blockEvent_used he).prompt hs)

/-! ## R16 -/

/-- Settles O59: a command that does not end at once is a channel command that runs on an open link; its run keeps it
in flight without error, and holds only where its port is exhausted. -/
theorem onlyChannelCommandsWait : Obligations.OnlyChannelCommandsWait := by
  intro i s t h hb
  have hi : isChannel i = true := by
    by_contra hn
    have := (exec_endsAtOnce (Bool.eq_false_iff.2 hn) h).not_busy
    simp [this] at hb
  rcases exec_channel_cases hi h with ⟨_, rfl⟩ | ⟨hl, rfl⟩
  · cases hb
  · have hrun : Runs i (entry i (accept i s)) := runs_entry s hi
    have hstarved : Prompt s → Starved (resume (entry i (accept i s))) := fun hs =>
      resume_starved _ hrun (Prompt.keeps (s := accept i s) hs (keeps_entry i _)) hb
    cases hrun.resume with
    | ended h => simp [h] at hb
    | live inflight err ecause _ =>
      exact ⟨hi, hl, inflight, err, ecause, fun hrx htx => hstarved ⟨hrx, htx⟩⟩

end Sys2Proof.Machine
end

section
/-! Proofs of 10_state.md: the invariant (O51, O52), the frames of a command (O54, O56), what stays until `SINIT` or
reset (O57), hidden state (O60), the values after reset (O10). First one inversion lemma for each layer of the model:
an event of the channel engine, a command that uses no channel, a turn of the host. The statements follow from these. -/

namespace Sys2Proof.Machine

open Sys2Proof

/-! ## What an event of the channel engine can do

An event first takes an answer from a port and stores a payload byte (`Took`); what follows then ends the command or
puts it at a place of its pseudocode (`Came`). -/

/-- What an event does to the ports, `FID` and the buffers, before the command goes on. -/
inductive Took (s u : State) : Prop
  | nothing (hu : u = s)
  | read (hp : s.fsm.phase ∈ receiving) (r : List RxAnswer) (hu : u = { s with rx := r })
  | stored (hp : s.fsm.phase = .payload) (r : List RxAnswer) (b : Byte)
      (hu : u = State.sinkByte { s with rx := r } s.fsm.item s.cnt.toNat b)
  | wrote (hp : s.fsm.phase ∈ sending) (r : List TxAnswer) (w : List Byte) (hu : u = { s with tx := r, sent := w })

/-- Where the pseudocode of the command in flight goes on, by phase and item: from `p` at `it` to `q` at `jt`
(43_frame.md R170, R173, 44_ack_sequencer.md R190 to R195). -/
inductive Follows (o : Option Instr) (it : Item) : Phase → Phase → Item → Prop
  | startSeen : Follows o it .hunt .payload it
  | startSeenEmpty : Follows o it .hunt .stop it
  | payloadDone : Follows o it .payload .stop it
  | frameReceived (h : o = some .recvcall) : Follows o it .stop .ackTx it
  | tokenSent (h : o = some .recvcall) (b : Slot) : Follows o it .ackTx .hunt (.slot b)
  | startSent : Follows o it .txStart .txPayload it
  | startSentEmpty : Follows o it .txStart .txStop it
  | payloadSent : Follows o it .txPayload .txStop it
  | frameSent (h : o = some .sendcall) : Follows o it .txStop .pace it
  | paced : Follows o it .pace .ackRx it
  | tokenReceived (h : o = some .sendcall) (b : Slot) : Follows o it .ackRx .txStart (.slot b)

/-- What the command comes to in an event, after `Took`: an error that aborts the session, its end, more of the same
phase, or the next phase with nothing of it done. -/
inductive Came (s t : State) : Prop
  | raised (c : Cause) (hc : c.aborts = true) (ht : t = raise c s)
  | finished (ht : t = finish s)
  | stays (n : BitVec 9) (w g : Word32) (hn : s.cnt.toNat < s.cntBound → n.toNat < s.cntBound)
      (ht : t = { s with cnt := n, win := w, stg := g })
  | enters (q : Phase) (jt : Item) (w g : Word32) (hq : Follows s.inflight s.fsm.item s.fsm.phase q jt)
      (ht : t = { s with fsm := ⟨q, jt⟩, cnt := 0, win := w, stg := g }) (hroom : 0 < t.cntBound)

section

variable {s t u : State}

/-- What `STG` held does not show in where the command comes to. -/
theorem Came.of_staged {g : Word32} (h : Came { s with stg := g } t) : Came s t := by
  cases h with
  | raised c hc ht => exact .raised c hc ht
  | finished ht => exact .finished ht
  | stays n w g hn ht => exact .stays n w g hn ht
  | enters q jt w g hq ht hroom => exact .enters q jt w g hq ht hroom

theorem came_toPhase {q : Phase} (hq : Follows s.inflight s.fsm.item s.fsm.phase q s.fsm.item)
    (hroom : 0 < (s.toPhase q).cntBound) : Came s (s.toPhase q) := .enters q _ s.win s.stg hq rfl hroom

theorem came_enterTxPayload (hp : s.fsm.phase = .txStart) : Came s (enterTxPayload s) := by
  unfold enterTxPayload
  split
  next => exact came_toPhase (by rw [hp]; exact .startSentEmpty) (by decide : 0 < 4)
  next hlen => exact came_toPhase (by rw [hp]; exact .startSent) (Nat.pos_of_ne_zero hlen)

theorem came_afterFrameSent (hp : s.fsm.phase = .txStop) : Came s (afterFrameSent s) := by
  unfold afterFrameSent
  split
  next hi => exact came_toPhase (by rw [hp]; exact .frameSent hi) (by decide : 0 < 1)
  next => exact .finished rfl

theorem came_enterStop (hp : s.fsm.phase = .payload) : Came s (enterStop s) :=
  .enters .stop _ s.win 0 (by rw [hp]; exact .payloadDone) rfl (by decide : 0 < 4)

theorem came_afterFrameReceived (hp : s.fsm.phase = .stop) : Came s (afterFrameReceived s) := by
  unfold afterFrameReceived
  split
  next hi => exact came_toPhase (by rw [hp]; exact .frameReceived hi) (by decide : 0 < 3)
  next => exact .finished rfl

theorem came_stopTest (hp : s.fsm.phase = .stop) : Came s (stopTest s) := by
  unfold stopTest
  split
  · exact came_afterFrameReceived hp
  · exact .raised _ rfl rfl

theorem came_afterTokenSent (hp : s.fsm.phase = .ackTx) : Came s (afterTokenSent s) := by
  unfold afterTokenSent
  split
  next hi =>
    unfold nextItem
    split
    next b _ => exact .enters .hunt (.slot b) 0 s.stg (by rw [hp]; exact .tokenSent hi b) rfl (by decide : 0 < 1)
    next => exact .finished rfl
  next => exact .finished rfl

theorem came_afterTokenReceived (hp : s.fsm.phase = .ackRx) : Came s (afterTokenReceived s) := by
  unfold afterTokenReceived
  split
  next hi =>
    unfold nextItem
    split
    next b _ =>
      exact .enters .txStart (.slot b) s.win s.stg (by rw [hp]; exact .tokenReceived hi b) rfl (by decide : 0 < 4)
    next => exact .finished rfl
  next => exact .finished rfl

theorem came_tokenTest (hp : s.fsm.phase = .ackRx) : Came s (tokenTest s) := by
  unfold tokenTest
  split
  · exact came_afterTokenReceived hp
  · exact .raised _ rfl rfl

theorem came_enterAckRx (hp : s.fsm.phase = .pace) : Came s (enterAckRx s) :=
  .enters .ackRx _ s.win 0 (by rw [hp]; exact .paced) rfl (by decide : 0 < 3)

/-- `CNT` stays below the length of what is counted. -/
theorem came_countByte {n : Nat} {f : State → State} (hn : n = s.cntBound) (hf : Came s (f s)) :
    Came s (countByte n f s) := by
  unfold countByte
  split
  next => exact hf
  next hlt =>
    have hle : (s.cnt + 1).toNat ≤ s.cnt.toNat + 1 := by rw [BitVec.toNat_add]; exact Nat.mod_le _ _
    exact .stays (s.cnt + 1) s.win s.stg (fun _ => by omega) rfl

/-- With the phase written out, the bound on `CNT` computes to the number of bytes the pseudocode counts there. -/
theorem cntBound_eq {p : Phase} (hp : s.fsm.phase = p) :
    s.cntBound = State.cntBound { s with fsm := ⟨p, s.fsm.item⟩ } := by
  rw [← hp]

theorem came_huntByte (b : Byte) (hp : s.fsm.phase = .hunt) : Came s (huntByte b s) := by
  unfold huntByte enterPayload
  dsimp only
  split
  next =>
    split
    next => exact .enters .stop _ _ 0 (by rw [hp]; exact .startSeenEmpty) rfl (by decide : 0 < 4)
    next hlen => exact .enters .payload _ _ s.stg (by rw [hp]; exact .startSeen) rfl (Nat.pos_of_ne_zero hlen)
  next => exact .stays s.cnt _ s.stg id rfl

theorem came_stopByte (b : Byte) (hp : s.fsm.phase = .stop) : Came s (stopByte b s) :=
  Came.of_staged (came_countByte (cntBound_eq hp).symm (came_stopTest hp))

theorem came_tokenByte (b : Byte) (hp : s.fsm.phase = .ackRx) : Came s (tokenByte b s) :=
  Came.of_staged (came_countByte (cntBound_eq hp).symm (came_tokenTest hp))

theorem sinkByte_fsm (it : Item) (j : Nat) (v : Byte) : (s.sinkByte it j v).fsm = s.fsm := by
  cases it with
  | ident => rfl
  | slot b => rfl

theorem sinkByte_cntBound (it : Item) (j : Nat) (v : Byte) : (s.sinkByte it j v).cntBound = s.cntBound := by
  cases it with
  | ident => rfl
  | slot b => rfl

/-- A payload byte is stored first; then it is counted. -/
theorem came_payloadByte (b : Byte) (hp : s.fsm.phase = .payload) :
    Came (s.sinkByte s.fsm.item s.cnt.toNat b) (payloadByte b s) := by
  refine came_countByte ?_ (came_enterStop (by rw [sinkByte_fsm, hp]))
  rw [sinkByte_cntBound]
  exact (cntBound_eq hp).symm

/-- An attempt to send and what follows. -/
theorem sendByte_came {b : Byte} {k : State → State} (hp : s.fsm.phase ∈ sending)
    (hk : ∀ r w, Came { s with tx := r, sent := w } (k { s with tx := r, sent := w }))
    (h : sendByte b k s = .went t) : ∃ u, Took s u ∧ Came u t := by
  rcases sendByte_cases h with ⟨r, _, he⟩ | ⟨_, he⟩ | ⟨r, _, he⟩ | ⟨r, _, he⟩
  · cases he; exact ⟨_, .wrote hp r _ rfl, hk r _⟩
  · cases he
  · cases he
  · cases he; exact ⟨_, .wrote hp r s.sent rfl, .raised _ rfl rfl⟩

/-- An attempt to receive and what follows. -/
theorem receiveByte_came {c : Cause} {k : Byte → State → State} (hc : c.aborts = true)
    (hp : s.fsm.phase ∈ receiving)
    (hk : ∀ b r, ∃ u, Took s u ∧ Came u (k b { s with rx := r }))
    (h : receiveByte c k s = .went t) : ∃ u, Took s u ∧ Came u t := by
  rcases receiveByte_cases h with ⟨b, r, _, he⟩ | ⟨_, he⟩ | ⟨r, _, he⟩ | ⟨r, _, he⟩ | ⟨r, _, he⟩
  · cases he; exact hk b r
  · cases he
  · cases he
  · cases he; exact ⟨_, .read hp r rfl, .raised _ hc rfl⟩
  · cases he; exact ⟨_, .read hp r rfl, .raised _ rfl rfl⟩

/-- Everything an event that goes on can do. -/
theorem blockEvent_came (h : blockEvent s = .went t) : ∃ u, Took s u ∧ Came u t := by
  unfold blockEvent at h
  split at h
  next => cases h
  next hp =>
    have hr : s.fsm.phase ∈ receiving := by rw [hp]; decide
    exact receiveByte_came rfl hr (fun b r => ⟨_, .read hr r rfl, came_huntByte b hp⟩) h
  next hp =>
    refine receiveByte_came rfl (by rw [hp]; decide) (fun b r => ⟨_, .stored hp r b rfl, ?_⟩) h
    exact came_payloadByte (s := { s with rx := r }) b hp
  next hp =>
    have hr : s.fsm.phase ∈ receiving := by rw [hp]; decide
    exact receiveByte_came rfl hr (fun b r => ⟨_, .read hr r rfl, came_stopByte b hp⟩) h
  next hp =>
    exact sendByte_came (by rw [hp]; decide)
      (fun _ _ => came_countByte (cntBound_eq hp).symm (came_enterTxPayload hp)) h
  next hp =>
    refine sendByte_came (by rw [hp]; decide) (fun _ _ => came_countByte (cntBound_eq hp).symm ?_) h
    exact came_toPhase (q := .txStop) (by rw [hp]; exact .payloadSent) (by decide : 0 < 4)
  next hp =>
    exact sendByte_came (by rw [hp]; decide)
      (fun _ _ => came_countByte (cntBound_eq hp).symm (came_afterFrameSent hp)) h
  next hp =>
    exact sendByte_came (by rw [hp]; decide)
      (fun _ _ => came_countByte (cntBound_eq hp).symm (came_afterTokenSent hp)) h
  next hp =>
    have hr : s.fsm.phase ∈ receiving := by rw [hp]; decide
    exact receiveByte_came rfl hr (fun b r => ⟨_, .read hr r rfl, came_tokenByte b hp⟩) h
  next hp => cases h; exact ⟨s, .nothing rfl, came_enterAckRx hp⟩

/-- A hold takes a `WouldBlock` at most, from the port of the phase (43_frame.md R181); the pacing point never holds. -/
theorem blockEvent_holds_took (h : blockEvent s = .holds t) : Took s t ∧ s.fsm.phase ≠ .pace := by
  have hsend : ∀ {b : Byte} {k : State → State}, s.fsm.phase ∈ sending → sendByte b k s = .holds t →
      Took s t := by
    intro b k hp h
    rcases sendByte_cases h with ⟨r, _, he⟩ | ⟨_, he⟩ | ⟨r, _, he⟩ | ⟨r, _, he⟩ <;> cases he
    · exact .nothing rfl
    · exact .wrote hp r s.sent rfl
  have hrecv : ∀ {c : Cause} {k : Byte → State → State}, s.fsm.phase ∈ receiving → receiveByte c k s = .holds t →
      Took s t := by
    intro c k hp h
    rcases receiveByte_cases h with ⟨b, r, _, he⟩ | ⟨_, he⟩ | ⟨r, _, he⟩ | ⟨r, _, he⟩ | ⟨r, _, he⟩ <;> cases he
    · exact .nothing rfl
    · exact .read hp r rfl
  unfold blockEvent at h
  split at h
  next hp => cases h; exact ⟨.nothing rfl, by rw [hp]; nofun⟩
  next hp => exact ⟨hrecv (by rw [hp]; decide) h, by rw [hp]; nofun⟩
  next hp => exact ⟨hrecv (by rw [hp]; decide) h, by rw [hp]; nofun⟩
  next hp => exact ⟨hrecv (by rw [hp]; decide) h, by rw [hp]; nofun⟩
  next hp => exact ⟨hsend (by rw [hp]; decide) h, by rw [hp]; nofun⟩
  next hp => exact ⟨hsend (by rw [hp]; decide) h, by rw [hp]; nofun⟩
  next hp => exact ⟨hsend (by rw [hp]; decide) h, by rw [hp]; nofun⟩
  next hp => exact ⟨hsend (by rw [hp]; decide) h, by rw [hp]; nofun⟩
  next hp => exact ⟨hrecv (by rw [hp]; decide) h, by rw [hp]; nofun⟩
  next => cases h

end

/-! ## What a command that uses no channel can do -/

/-- What such a command writes as it completes. -/
inductive Effect (s : State) : Instr → State → Prop
  | reg {i : Instr} (rd : RegNum) (v : Word) (hi : isChannel i = false) (hd : destRegs i = [rd]) :
      Effect s i (s.setX rd v)
  | point {i : Instr} (qd : PointNum) (p : Point) (hi : isChannel i = false)
      (hd : destRegs i = [evenReg qd, oddReg qd]) : Effect s i (s.setQ qd p)
  | test (ra : RegNum) (idx : Nat) (v : Bool) : Effect s (.btst ra idx) (s.setT v)
  | equal (qa qb : PointNum) (v : Bool) : Effect s (.peq qa qb) (s.setEq v)
  | store (ra : RegNum) (b : Slot) (off w : Nat) (bytes : List Byte) (hin : off + bytes.length ≤ s.plenAt b) :
      Effect s (.stb ra b off w) (s.memWrite b off bytes)
  | sinit : Effect s .sinit { s with link := .opened, esticky := 0, win := 0 }

/-- `EndsAtOnce` with the writes named: the command completes with its effect, or it fails and writes no result. -/
inductive Direct (i : Instr) (s t : State) : Prop
  | done (u : State) (hu : Effect s i u) (ht : t = u.done.settled)
  | failed (c : Cause) (ht : t = (s.failed c).settled)

theorem direct_writeReg {i : Instr} {rd : RegNum} (r : Except Cause Word) (s : State) (hi : isChannel i = false)
    (hd : destRegs i = [rd]) : Direct i s (writeReg rd r (accept i s)) := by
  rcases writeReg_cases rd r i s with ⟨v, _, h⟩ | ⟨c, _, h⟩
  · exact .done _ (.reg rd v hi hd) h
  · exact .failed c h

theorem direct_writePoint {i : Instr} {qd : PointNum} (r : Except Cause Point) (s : State)
    (hi : isChannel i = false) (hd : destRegs i = [evenReg qd, oddReg qd]) :
    Direct i s (writePoint qd r (accept i s)) := by
  rcases writePoint_cases qd r i s with ⟨p, _, h⟩ | ⟨c, _, h⟩
  · exact .done _ (.point qd p hi hd) h
  · exact .failed c h

theorem execPmul_direct {qd : PointNum} {rk : RegNum} {qa : PointNum} {s t : State}
    (h : execPmul qd rk qa s = .next t) : Direct (.pmul qd rk qa) s t := by
  rw [execPmul_eq] at h
  cases hm : pointScalarMul (s.getX rk) (s.getQ qa) with
  | ok p => rw [hm] at h; cases h; exact .done _ (.point qd p rfl rfl) rfl
  | error c => rw [hm] at h; cases h; exact .failed c rfl

theorem execLdb_direct {rd : RegNum} {b : Slot} {off w : Nat} {s t : State}
    (h : execLdb rd b off w s = .next t) : Direct (.ldb rd b off w) s t := by
  unfold execLdb at h
  dsimp only at h
  split at h
  · cases h; exact direct_writeReg _ s rfl rfl
  · cases h; exact .failed _ (raise_accept _ _ s)

/-- `MemWrite` after the acceptance of a command, and the end of that command. -/
theorem finish_memWrite_accept (i : Instr) (b : Slot) : ∀ (bytes : List Byte) (off : Nat) (s : State),
    finish ((accept i s).memWrite b off bytes) = (s.memWrite b off bytes).done.settled
  | [], _, _ => rfl
  | v :: vs, off, s => finish_memWrite_accept i b vs (off + 1) (s.setBufByte b off v)

theorem execStb_direct {ra : RegNum} {b : Slot} {off w : Nat} {s t : State}
    (h : execStb ra b off w s = .next t) : Direct (.stb ra b off w) s t := by
  unfold execStb at h
  dsimp only at h
  split at h
  next hin =>
    have hlen : off + (be (s.getX ra).toNat w).length ≤ s.plenAt b := by simpa [State.inRange] using hin
    split at h
    next => cases h; exact .failed _ (raise_accept _ _ s)
    next => cases h; exact .done _ (.store ra b off w _ hlen) (finish_memWrite_accept _ b _ off s)
  next => cases h; exact .failed _ (raise_accept _ _ s)

/-- Everything a command that uses no channel can do. -/
theorem exec_direct {i : Instr} {s t : State} (hi : isChannel i = false) (h : exec i s = .next t) :
    Direct i s t := by
  cases i with
  | fadd rd ra rb | fsub rd ra rb | fmul rd ra rb | fred rd ra | finv rd ra =>
    cases h; exact direct_writeReg _ s rfl rfl
  | padd qd qa qb => cases h; exact direct_writePoint _ s rfl rfl
  | pmul qd rk qa => exact execPmul_direct h
  | btst ra idx => cases h; exact .done _ (.test ra idx _) rfl
  | peq qa qb => cases h; exact .done _ (.equal qa qb _) rfl
  | ldb rd b off w => exact execLdb_direct h
  | stb ra b off w => exact execStb_direct h
  | sinit => cases h; exact .done _ .sinit rfl
  | txf _ | txid | rxf _ | rxid | txack | rxack | sendcall | recvcall => cases hi

/-! ## What a step can do -/

/-- One turn of the host or of the block. -/
inductive Turn (s t : State) : Prop
  /-- The block goes on. -/
  | runs (rest : List HostAction) (ht : t = resume { s with host := rest })
  /-- The host waits, reads, or is refused. -/
  | replies (rest : List HostAction) (a : HostAnswer) (ht : t = { s with host := rest, answer := a })
  /-- The host writes a register, or a buffer byte in range (45_system.md R213 to R215). -/
  | writes (rest : List HostAction) (x : Vector Word 16) (fid plen : Word32) (buf : Memory) (hb : s.busy = false)
      (hbuf : buf = s.buf ∨ ∃ b o v, o < s.plenAt b ∧ buf = Memory.write s.buf (bufKey b o) v)
      (ht : t = { s with x := x, fid := fid, plen := plen, buf := buf, host := rest, answer := .done })
  /-- An illegal word is consumed (45_system.md R217). -/
  | illegal (rest : List HostAction) (hb : s.busy = false)
      (ht : t = illegalWord { s with host := rest, answer := .taken })
  /-- A command is executed (45_system.md R211). -/
  | executes (rest : List HostAction) (c : Word32) (i : Instr) (hb : s.busy = false)
      (hh : s.host = .command c :: rest) (hc : decode c = .ok i)
      (ht : exec i { s with host := rest, answer := .taken } = .next t)
  /-- The reset input (70_reset_and_hazards.md R280). -/
  | resets (rest : List HostAction) (hh : s.host = .reset :: rest) (ht : t = resetInput { s with host := rest })

section

variable {s t : State}

/-- A guarded read, or any guarded transaction while it is refused, changes the response only. -/
theorem gated_answers (ok : Bool) (f : State → HostAnswer) (s : State) :
    ∃ a, gated ok (fun t => t.answered (f t)) s = s.answered a := by
  rcases gated_cases ok (fun t => t.answered (f t)) s with ⟨_, _, h⟩ | ⟨_, h⟩
  · exact ⟨_, h⟩
  · exact ⟨_, h⟩

theorem hostReadCtl_answers (n : Nat) (s : State) : ∃ a, hostReadCtl n s = s.answered a := by
  unfold hostReadCtl
  split
  · exact ⟨_, rfl⟩
  · exact ⟨_, rfl⟩
  · exact ⟨_, rfl⟩
  · exact gated_answers _ _ s
  · exact gated_answers _ _ s
  · exact ⟨_, rfl⟩

theorem turn_answers {rest : List HostAction} {f : State → State}
    (hf : ∃ a, f { s with host := rest } = State.answered { s with host := rest } a)
    (h : Host.Outcome.next (ρ := Refusal) (φ := Fault) (f { s with host := rest }) = .next t) : Turn s t := by
  obtain ⟨a, ha⟩ := hf
  rw [ha] at h
  cases h
  exact .replies rest a rfl

/-- A guarded write, if it is not refused, is made while the block is idle. -/
theorem turn_gated {ok : Bool} {f : State → State} {rest : List HostAction}
    (hf : s.busy = false → ok = true → Turn s (f { s with host := rest })) :
    Turn s (gated ok f { s with host := rest }) := by
  rcases gated_cases ok f { s with host := rest } with ⟨hb, hok, h⟩ | ⟨_, h⟩
  · rw [h]; exact hf hb hok
  · rw [h]; exact .replies rest _ rfl

theorem turn_hostWriteCtl (n : Nat) (v : Word32) (rest : List HostAction) :
    Turn s (hostWriteCtl n v { s with host := rest }) := by
  unfold hostWriteCtl
  split
  · exact turn_gated fun hb _ => .writes rest s.x v s.plen s.buf hb (.inl rfl) rfl
  · exact turn_gated fun hb _ => .writes rest s.x s.fid v s.buf hb (.inl rfl) rfl
  · exact .replies rest _ rfl

theorem turn_present {c : Word32} {rest : List HostAction} (hh : s.host = .command c :: rest)
    (h : present c { s with host := rest } = .next t) : Turn s t := by
  unfold present at h
  split at h
  next => cases h; exact .replies rest _ rfl
  next hb =>
    have hb := Bool.eq_false_iff.2 hb
    split at h
    next => cases h; exact .illegal rest hb rfl
    next i hc => exact .executes rest c i hb hh hc h

/-- Everything one action of the host can do. -/
theorem hostTurn_turn {a : HostAction} {rest : List HostAction} (hh : s.host = a :: rest)
    (h : hostTurn a { s with host := rest } = .next t) : Turn s t := by
  cases a with
  | command c => exact turn_present hh h
  | readX i => exact turn_answers (gated_answers _ _ _) h
  | writeX i v =>
    cases h; exact turn_gated fun hb _ => .writes rest (s.x.set i v) s.fid s.plen s.buf hb (.inl rfl) rfl
  | readBuf b o => exact turn_answers (gated_answers _ _ _) h
  | writeBuf b o v =>
    cases h
    refine turn_gated fun hb hok => .writes rest s.x s.fid s.plen _ hb (.inr ⟨b, o.toNat, v, ?_, rfl⟩) rfl
    exact of_decide_eq_true hok
  | readCtl n => exact turn_answers (hostReadCtl_answers n _) h
  | writeCtl n v => cases h; exact turn_hostWriteCtl n v rest
  | reset => cases h; exact .resets rest hh rfl
  | wait => cases h; exact .runs rest rfl
  | awaitIdle => cases h; exact .replies rest s.answer rfl

/-- Everything a step can do. -/
theorem step_turn (h : step s = .next t) : Turn s t := by
  unfold step at h
  split at h
  next hh => cases h; exact .runs s.host rfl
  next rest hh =>
    split at h
    · cases h; exact .runs s.host rfl
    · cases h; exact .replies rest s.answer rfl
  next a rest _ hh => exact hostTurn_turn hh h

end

/-! ## What a turn of the block keeps -/

section

variable {s t u : State}

/-- `Took` changes the two streams, `FID` and the buffers only. -/
theorem Took.same (h : Took s u) :
    u = { s with rx := u.rx, tx := u.tx, sent := u.sent, fid := u.fid, buf := u.buf } := by
  cases h with
  | nothing hu => subst hu; rfl
  | read _ r hu => subst hu; rfl
  | stored _ r b hu =>
    subst hu
    cases s.fsm.item with
    | ident => rfl
    | slot c => rfl
  | wrote _ r w hu => subst hu; rfl

theorem Took.busy (h : Took s u) : u.busy = s.busy := by rw [h.same]

/-- What each event of a command in flight keeps, a whole turn of the block keeps. -/
theorem resume_keeps {P : State → Prop} (took : ∀ s u, s.busy = true → P s → Took s u → P u)
    (came : ∀ s t, s.busy = true → P s → Came s t → P t) (s : State) : P s → P (resume s) := by
  refine resume_induction (motive := fun s t => P s → P t) (fun _ _ h => h) ?_ ?_ s
  · intro s t hb he hs
    exact took s t hb hs (blockEvent_holds_took he).1
  · intro s t hb he ih hs
    obtain ⟨u, hu, ht⟩ := blockEvent_came he
    exact ih (came u t (hu.busy.trans hb) (took s u hb hs hu) ht)

/-- A turn of the block does not end at the pacing point. -/
theorem resume_not_pacing (s : State) : (resume s).busy = true → (resume s).fsm.phase ≠ .pace := by
  refine resume_induction (motive := fun _ t => t.busy = true → t.fsm.phase ≠ .pace) ?_ ?_ ?_ s
  · intro s hidle hb
    exact absurd hb (by simp [hidle])
  · intro s t _ he _
    obtain ⟨hu, hp⟩ := blockEvent_holds_took he
    rw [hu.same]
    exact hp
  · exact fun _ _ _ _ ih => ih

end

/-! ## The command in flight -/

/-- Where command `i` can be inside a turn: where it can wait, or at the pacing point. -/
def placeOf (i : Instr) (p : Phase) (it : Item) : Bool := phaseOf i p it || decide (i = .sendcall ∧ p = .pace)

/-- `Runs` with the place named: command `i` is in flight, on an open link, without error, at a place of its own, and
`CNT` is within its bound. -/
structure Live (i : Instr) (s : State) : Prop where
  busy : s.busy = true
  inflight : s.inflight = some i
  err : s.err = false
  ecause : s.ecause = none
  link : s.link = .opened
  place : placeOf i s.fsm.phase s.fsm.item = true
  cnt : s.cnt.toNat < s.cntBound

theorem placeOf_of_phaseOf {i : Instr} {p : Phase} {it : Item} (h : phaseOf i p it = true) :
    placeOf i p it = true := by
  simp [placeOf, h]

/-- A command stays inside its own pseudocode. -/
theorem Follows.placeOf {i : Instr} {it jt : Item} {p q : Phase} (h : Follows (some i) it p q jt)
    (hp : placeOf i p it = true) : placeOf i q jt = true := by
  cases h with
  | frameReceived hi | tokenSent hi _ | frameSent hi | tokenReceived hi _ => cases hi; rfl
  | startSeen | startSeenEmpty | payloadDone | startSent | startSentEmpty | payloadSent | paced =>
    cases i <;> simp_all [Machine.placeOf, phaseOf]

/-- The beginning of a command's pseudocode touches hidden registers only. -/
theorem entry_same (i : Instr) (s : State) :
    entry i s = { s with fsm := (entry i s).fsm, cnt := (entry i s).cnt, win := (entry i s).win,
                         stg := (entry i s).stg } := by
  cases i <;> rfl

theorem live_entry {i : Instr} {s : State} (hi : isChannel i = true) (hl : s.link = .opened) :
    Live i (entry i (accept i s)) := by
  cases i with
  | txf _ | txid | sendcall =>
    exact ⟨rfl, rfl, rfl, rfl, hl, by simp [placeOf, phaseOf, entry, enterSend], (by decide : 0 < 4)⟩
  | rxf _ | rxid | recvcall =>
    exact ⟨rfl, rfl, rfl, rfl, hl, by simp [placeOf, phaseOf, entry, enterReceive], (by decide : 0 < 1)⟩
  | txack => exact ⟨rfl, rfl, rfl, rfl, hl, rfl, (by decide : 0 < 3)⟩
  | rxack => exact ⟨rfl, rfl, rfl, rfl, hl, rfl, (by decide : 0 < 3)⟩
  | _ => cases hi

section

variable {i : Instr} {s t u : State}

theorem Live.took (h : Live i s) (hu : Took s u) : Live i u := by
  obtain ⟨busy, inflight, err, ecause, link, place, cnt⟩ := h
  rw [hu.same]
  exact ⟨busy, inflight, err, ecause, link, place, cnt⟩

/-- The command is still in flight, or it has ended. -/
theorem Live.came (h : Live i s) (ht : Came s t) : t.busy = false ∨ Live i t := by
  obtain ⟨busy, inflight, err, ecause, link, place, cnt⟩ := h
  cases ht with
  | raised c _ ht => subst ht; exact .inl rfl
  | finished ht => subst ht; exact .inl rfl
  | stays n w g hn ht => subst ht; exact .inr ⟨busy, inflight, err, ecause, link, place, hn cnt⟩
  | enters q jt w g hq ht hroom =>
    rw [inflight] at hq
    subst ht
    exact .inr ⟨busy, inflight, err, ecause, link, hq.placeOf place, hroom⟩

end

/-! ## R50 -/

/-- Settles O10: every field the rule fixes is written out in `State.reset`. -/
theorem resetState : Obligations.ResetState :=
  ⟨rfl, rfl, rfl, rfl, by decide, rfl, rfl, rfl, rfl, rfl, rfl, rfl⟩

/-! ## The invariant -/

/-- What of the invariant must hold when a command ends, for the invariant to hold after its end. -/
structure Lasting (s : State) : Prop where
  reserved : s.stickyReserved = true
  link : s.linkRecorded = true
  buf : s.bufOk = true

theorem inv_iff {s : State} : s.Inv = true ↔
    Lasting s ∧ s.errAgrees = true ∧ s.causeRecorded = true ∧ s.idleClean = true ∧ s.accClean = true ∧
      s.waiting = true := by
  constructor
  · intro h
    simp only [State.Inv, Bool.and_eq_true, and_assoc] at h
    obtain ⟨hr, he, hc, hl, hb, hrest⟩ := h
    exact ⟨⟨hr, hl, hb⟩, he, hc, hrest⟩
  · rintro ⟨⟨hr, hl, hb⟩, he, hc, hrest⟩
    simp only [State.Inv, Bool.and_eq_true, and_assoc]
    exact ⟨hr, he, hc, hl, hb, hrest⟩

/-- Settles O51: the invariant computes on the reset state. -/
theorem resetMeetsTheInvariant : Obligations.ResetMeetsTheInvariant := by
  have hl : Lasting State.reset := ⟨rfl, rfl, rfl⟩
  exact inv_iff.2 ⟨hl, rfl, rfl, rfl, rfl, rfl⟩

/-! ### The buffers -/

theorem bufOk_iff {s : State} :
    s.bufOk = true ↔ Memory.wf s.buf = true ∧ (s.buf.all fun c => keyExists c.1) = true := by
  simp only [State.bufOk, Bool.and_eq_true]

theorem bufOk_setBufByte {s : State} (b : Slot) {o : Nat} (v : Byte) (h : s.bufOk = true) (ho : o ≤ 254) :
    (s.setBufByte b o v).bufOk = true := by
  obtain ⟨hwf, hkeys⟩ := bufOk_iff.1 h
  exact bufOk_iff.2 ⟨Memory.write_wf _ _ v hwf, Memory.write_keys keyExists v (bufKey_exists b ho) s.buf hkeys⟩

theorem bufOk_memWrite (b : Slot) : ∀ (bytes : List Byte) (off : Nat) (s : State), s.bufOk = true →
    off + bytes.length ≤ 255 → (s.memWrite b off bytes).bufOk = true
  | [], _, _, h, _ => h
  | v :: vs, off, s, h, hlen => by
    rw [List.length_cons] at hlen
    exact bufOk_memWrite b vs (off + 1) _ (bufOk_setBufByte b v h (by omega)) (by omega)

/-- A payload byte has a place in the buffers, as `CNT` is below `PLEN`. -/
theorem bufOk_sinkByte {s : State} (it : Item) (j : Nat) (v : Byte) (h : s.bufOk = true)
    (hj : j < s.itemLen it) : (s.sinkByte it j v).bufOk = true := by
  cases it with
  | ident => exact h
  | slot b =>
    have hj : j < s.plenAt b := hj
    have := plenAt_le s b
    exact bufOk_setBufByte b v h (by omega)

/-! ### The ends of a command -/

section

variable {s t u : State}

/-- No cause has a reserved bit (10_state.md R35). -/
theorem Cause.bit_reserved (c : Cause) : c.bit &&& 0xFFFFFE01 = 0#32 := by
  cases c <;> decide

theorem Cause.bit_getLsbD (c : Cause) : c.bit.getLsbD c.code = true := by
  cases c <;> decide

/-- The causes that abort the session are the ones at bits 1 to 3 of `ESTICKY` (60_exceptions.md R254). -/
theorem Cause.bit_of_aborts {c : Cause} (h : c.aborts = true) : c.bit &&& 0xE ≠ 0 := by
  cases c with
  | transportError | framingError | protocolError => decide
  | _ => cases h

theorem Cause.bit_of_not_aborts {c : Cause} (h : c.aborts = false) : c.bit &&& 0xE = 0#32 := by
  cases c with
  | transportError | framingError | protocolError => cases h
  | _ => rfl

theorem stickyReserved_iff : s.stickyReserved = true ↔ s.esticky &&& 0xFFFFFE01 = 0 := beq_iff_eq

theorem linkRecorded_iff : s.linkRecorded = true ↔ (s.link = .failed ↔ s.esticky &&& 0xE ≠ 0) := by
  rw [State.linkRecorded, beq_iff_eq, Bool.eq_iff_iff, decide_eq_true_eq, bne_iff_ne]

theorem linkRecorded_raise (c : Cause) (h : s.linkRecorded = true) : (raise c s).linkRecorded = true := by
  have h := linkRecorded_iff.1 h
  apply linkRecorded_iff.2
  rw [raise_link, raise_esticky, BitVec.and_or_distrib_right]
  cases hc : c.aborts with
  | true =>
    have hne : s.esticky &&& 0xE ||| c.bit &&& 0xE ≠ 0 := fun h0 =>
      Cause.bit_of_aborts hc (BitVec.or_eq_zero_iff.1 h0).2
    exact ⟨fun _ => hne, fun _ => rfl⟩
  | false =>
    rw [Cause.bit_of_not_aborts hc, BitVec.or_zero]
    exact h

/-- An error keeps what lasts: it sets the bit of its cause, and fails the link if that is one of bits 1 to 3. -/
theorem Lasting.raise (c : Cause) (h : Lasting s) : Lasting (raise c s) := by
  obtain ⟨hr, hl, hb⟩ := h
  refine ⟨?_, linkRecorded_raise c hl, hb⟩
  apply stickyReserved_iff.2
  rw [raise_esticky, BitVec.and_or_distrib_right, stickyReserved_iff.1 hr, c.bit_reserved]
  rfl

/-- The invariant holds after an error. -/
theorem Lasting.inv_raise (c : Cause) (h : Lasting s) : (Machine.raise c s).Inv = true := by
  have hrec : (Machine.raise c s).causeRecorded = true := by
    simp [State.causeRecorded, BitVec.getLsbD_or, c.bit_getLsbD]
  exact inv_iff.2 ⟨h.raise c, rfl, hrec, rfl, rfl, rfl⟩

theorem Lasting.inv_failed (c : Cause) (h : Lasting s) : (s.failed c).settled.Inv = true := by
  rw [← raise_accept .sinit]
  exact Lasting.inv_raise (s := accept .sinit s) c ⟨h.reserved, h.link, h.buf⟩

/-- The invariant holds after an end without error. -/
theorem Lasting.inv_done (h : Lasting s) : s.done.settled.Inv = true :=
  inv_iff.2 ⟨⟨h.reserved, h.link, h.buf⟩, rfl, rfl, rfl, rfl, rfl⟩

theorem Effect.lasting {i : Instr} (hu : Effect s i u) (h : Lasting s) : Lasting u := by
  obtain ⟨hr, hl, hb⟩ := h
  cases hu with
  | reg _ _ _ _ | point _ _ _ _ | test _ _ _ | equal _ _ _ => exact ⟨hr, hl, hb⟩
  | sinit => exact ⟨stickyReserved_iff.2 (by simp), linkRecorded_iff.2 (by simp), hb⟩
  | store _ b off _ bytes hin =>
    have := plenAt_le s b
    have hb := bufOk_memWrite b bytes off s hb (by omega)
    rw [memWrite_eq_buf] at hb ⊢
    exact ⟨hr, hl, hb⟩

/-! ### The command in flight -/

/-- The invariant inside a turn: as between turns if the command has ended, otherwise with `CNT` and `FSM` at any
place of the command, the pacing point included. -/
inductive InTurn (i : Instr) (s : State) : Prop
  | ended (hb : s.busy = false) (h : s.Inv = true)
  | live (h : Live i s) (hs : Lasting s) (ha : s.accClean = true)

theorem Live.finish_eq {i : Instr} (h : Live i s) : finish s = s.done.settled := by
  obtain ⟨_, _, err, ecause, _, _, _⟩ := h
  simp [finish, endCommand, State.done, State.settled, Fsm.rest, Point.infinity, err, ecause]

theorem Live.inv {i : Instr} (h : Live i s) (hp : s.fsm.phase ≠ .pace) (hs : Lasting s)
    (ha : s.accClean = true) : s.Inv = true := by
  obtain ⟨busy, inflight, err, ecause, link, place, cnt⟩ := h
  have place : phaseOf i s.fsm.phase s.fsm.item = true := by simpa [placeOf, hp] using place
  refine inv_iff.2 ⟨hs, ?_, ?_, ?_, ha, ?_⟩
  · simp [State.errAgrees, err, ecause]
  · simp [State.causeRecorded, ecause]
  · simp [State.idleClean, busy]
  · simp [State.waiting, err, link, cnt, inflight, place]

/-- A busy block that meets the invariant has a command in flight. -/
theorem live_of_inv (hb : s.busy = true) (h : s.Inv = true) : ∃ i, Live i s := by
  obtain ⟨_, he, _, _, _, hw⟩ := inv_iff.1 h
  simp only [State.waiting, hb, Bool.not_true, Bool.false_or, Bool.and_eq_true, Bool.not_eq_eq_eq_not,
    decide_eq_true_eq] at hw
  obtain ⟨⟨⟨err, link⟩, cnt⟩, hplace⟩ := hw
  have ecause : s.ecause = none := by simpa [State.errAgrees, err] using he
  cases hi : s.inflight with
  | none => simp [hi] at hplace
  | some i => exact ⟨i, hb, hi, err, ecause, link, placeOf_of_phaseOf (by simpa [hi] using hplace), cnt⟩

theorem Took.lasting {i : Instr} (hu : Took s u) (hl : Live i s) (h : Lasting s) : Lasting u := by
  have hbuf : u.bufOk = true := by
    cases hu with
    | nothing hu | read _ _ hu | wrote _ _ _ hu => subst hu; exact h.buf
    | stored hp r b hu =>
      subst hu
      have hcnt := hl.cnt
      rw [cntBound_eq hp] at hcnt
      exact bufOk_sinkByte (s := { s with rx := r }) _ _ b h.buf hcnt
  rw [hu.same] at hbuf ⊢
  exact ⟨h.reserved, h.link, hbuf⟩

theorem InTurn.took {i : Instr} (hb : s.busy = true) (h : InTurn i s) (hu : Took s u) : InTurn i u := by
  cases h with
  | ended hidle _ => exact absurd hb (by simp [hidle])
  | live h hs ha => exact .live (h.took hu) (hu.lasting h hs) (by rw [hu.same]; exact ha)

theorem InTurn.came {i : Instr} (hb : s.busy = true) (h : InTurn i s) (ht : Came s t) : InTurn i t := by
  cases h with
  | ended hidle _ => exact absurd hb (by simp [hidle])
  | live h hs ha =>
    rcases h.came ht with hidle | hlive
    · refine .ended hidle ?_
      cases ht with
      | raised c _ ht => subst ht; exact hs.inv_raise c
      | finished ht => subst ht; rw [h.finish_eq]; exact hs.inv_done
      | stays _ _ _ _ ht => subst ht; exact absurd hb (by simp_all)
      | enters _ _ _ _ _ ht _ => subst ht; exact absurd hb (by simp_all)
    · cases ht with
      | raised _ _ ht => subst ht; cases hlive.busy
      | finished ht => subst ht; cases hlive.busy
      | stays _ _ _ _ ht => subst ht; exact .live hlive ⟨hs.reserved, hs.link, hs.buf⟩ ha
      | enters _ _ _ _ _ ht _ => subst ht; exact .live hlive ⟨hs.reserved, hs.link, hs.buf⟩ ha

/-- A turn of the block ends in the invariant. -/
theorem InTurn.resume {i : Instr} (h : InTurn i s) : (resume s).Inv = true := by
  cases resume_keeps (fun _ _ hb h => h.took hb) (fun _ _ hb h => h.came hb) s h with
  | ended _ h => exact h
  | live h hs ha => exact h.inv (resume_not_pacing s h.busy) hs ha

theorem inv_resume (h : s.Inv = true) : (resume s).Inv = true := by
  cases hb : s.busy with
  | false => rw [resume_idle hb]; exact h
  | true =>
    obtain ⟨i, hl⟩ := live_of_inv hb h
    obtain ⟨hs, _, _, _, ha, _⟩ := inv_iff.1 h
    exact InTurn.resume (.live hl hs ha)

/-! ### The step -/

theorem inTurn_entry {i : Instr} (hi : isChannel i = true) (hl : s.link = .opened) (hs : Lasting s)
    (ha : s.accClean = true) : InTurn i (entry i (accept i s)) := by
  refine .live (live_entry hi hl) ?_ ?_
  · rw [entry_same]; exact ⟨hs.reserved, hs.link, hs.buf⟩
  · rw [entry_same]; exact ha

/-- The invariant is kept by every command. -/
theorem exec_inv {i : Instr} (h : s.Inv = true) (ht : exec i s = .next t) : t.Inv = true := by
  obtain ⟨hs, _, _, _, ha, _⟩ := inv_iff.1 h
  cases hi : isChannel i with
  | false =>
    cases exec_direct hi ht with
    | done u hu ht => subst ht; exact (hu.lasting hs).inv_done
    | failed c ht => subst ht; exact hs.inv_failed c
  | true =>
    rcases exec_channel_cases hi ht with ⟨_, rfl⟩ | ⟨hl, rfl⟩
    · exact hs.inv_failed _
    · exact (inTurn_entry hi hl hs ha).resume

/-- The host writes registers, `FID`, `PLEN` and buffer bytes of an idle block only. -/
theorem inv_hostWrite {x : Vector Word 16} {fid plen : Word32} {buf : Memory} {rest : List HostAction}
    {a : HostAnswer} (hb : s.busy = false)
    (hbuf : buf = s.buf ∨ ∃ b o v, o < s.plenAt b ∧ buf = Memory.write s.buf (bufKey b o) v) (h : s.Inv = true) :
    State.Inv { s with x := x, fid := fid, plen := plen, buf := buf, host := rest, answer := a } = true := by
  obtain ⟨⟨hr, hl, hok⟩, he, hc, hi, ha, _⟩ := inv_iff.1 h
  have hok : State.bufOk { s with buf := buf } = true := by
    rcases hbuf with rfl | ⟨b, o, v, ho, rfl⟩
    · exact hok
    · have := plenAt_le s b
      exact bufOk_setBufByte b v hok (by omega)
  exact inv_iff.2 ⟨⟨hr, hl, hok⟩, he, hc, hi, ha, by simp [State.waiting, hb]⟩

/-- Settles O52: by what a turn can do; for the block's own turn the invariant is that of a command in flight, which
every event keeps. -/
theorem invKeptByStep : Obligations.InvKeptByStep := by
  intro s t h ht
  cases step_turn ht with
  | runs rest ht => subst ht; exact inv_resume (s := { s with host := rest }) h
  | replies rest a ht => subst ht; exact h
  | writes rest x fid plen buf hb hbuf ht => subst ht; exact inv_hostWrite hb hbuf h
  | illegal rest hb ht =>
    obtain ⟨⟨hr, hl, hbuf⟩, _⟩ := inv_iff.1 h
    subst ht
    exact Lasting.inv_raise .illegalCommand ⟨hr, hl, hbuf⟩
  | executes rest c i hb hh hc ht => exact exec_inv (s := { s with host := rest, answer := .taken }) h ht
  | resets rest hh ht => subst ht; exact resetMeetsTheInvariant

end

/-! ## R23 -/

theorem Effect.getX {i : Instr} {s u : State} {r : RegNum} (hu : Effect s i u) (hr : r ∉ destRegs i) :
    u.getX r = s.getX r := by
  cases hu with
  | reg rd v _ hd =>
    have hne : rd ≠ r := by rintro rfl; simp [hd] at hr
    rw [getX_setX, if_neg hne]
  | point qd p _ hd =>
    have hodd : oddReg qd ≠ r := by rintro rfl; simp [hd] at hr
    have heven : evenReg qd ≠ r := by rintro rfl; simp [hd] at hr
    rw [getX_setQ, if_neg hodd, if_neg heven]
  | test _ _ _ | equal _ _ _ | sinit => rfl
  | store _ b off _ bytes _ => rw [memWrite_eq_buf]; rfl

/-- A channel command writes no general register and no flag (10_state.md R23, R31). -/
theorem exec_channel_unwritten {i : Instr} {s t : State} (hi : isChannel i = true) (h : exec i s = .next t) :
    Unwritten s t := by
  rcases exec_channel_cases hi h with ⟨_, rfl⟩ | ⟨_, rfl⟩
  · exact unwritten_failed _ s
  · exact ((unwritten_accept i s).trans (keeps_entry i _).unwritten).trans (resume_unwritten _)

/-- Settles O54: a command ends at once, and its effect names its destinations, or it is a channel command. -/
theorem registersFrame : Obligations.RegistersFrame := by
  intro i s t r h hr
  cases hi : isChannel i with
  | false =>
    cases exec_direct hi h with
    | done u hu ht => subst ht; exact hu.getX hr
    | failed c ht => subst ht; rfl
  | true =>
    unfold State.getX
    rw [(exec_channel_unwritten hi h).x]

/-! ## R31, R36, R37, and the streams -/

section

variable {i : Instr} {s t u : State}

/-- A command that uses no channel leaves these fields alone (10_state.md R36, R37, 20_memory.md R71, R73). -/
structure Offline (s t : State) : Prop where
  plen : t.plen = s.plen
  host : t.host = s.host
  answer : t.answer = s.answer
  fid : t.fid = s.fid
  rx : t.rx = s.rx
  tx : t.tx = s.tx
  sent : t.sent = s.sent

theorem Effect.offline (hu : Effect s i u) : Offline s u := by
  cases hu with
  | reg _ _ _ _ | point _ _ _ _ | test _ _ _ | equal _ _ _ | sinit => exact ⟨rfl, rfl, rfl, rfl, rfl, rfl, rfl⟩
  | store _ b off _ bytes _ => rw [memWrite_eq_buf]; exact ⟨rfl, rfl, rfl, rfl, rfl, rfl, rfl⟩

theorem Direct.offline (h : Direct i s t) : Offline s t := by
  cases h with
  | done u hu ht =>
    obtain ⟨plen, host, answer, fid, rx, tx, sent⟩ := hu.offline
    subst ht
    exact ⟨plen, host, answer, fid, rx, tx, sent⟩
  | failed c ht => subst ht; exact ⟨rfl, rfl, rfl, rfl, rfl, rfl, rfl⟩

/-- Only `BTST` writes `T`. -/
theorem Direct.flagT (h : Direct i s t) (hi : ∀ ra idx, i ≠ .btst ra idx) : t.flagT = s.flagT := by
  cases h with
  | done u hu ht =>
    subst ht
    cases hu with
    | reg _ _ _ _ | point _ _ _ _ | equal _ _ _ | sinit => rfl
    | test ra idx _ => exact absurd rfl (hi ra idx)
    | store _ b off _ bytes _ => rw [memWrite_eq_buf]; rfl
  | failed c ht => subst ht; rfl

/-- Only `PEQ` writes `EQ`. -/
theorem Direct.flagEq (h : Direct i s t) (hi : ∀ qa qb, i ≠ .peq qa qb) : t.flagEq = s.flagEq := by
  cases h with
  | done u hu ht =>
    subst ht
    cases hu with
    | reg _ _ _ _ | point _ _ _ _ | test _ _ _ | sinit => rfl
    | equal qa qb _ => exact absurd rfl (hi qa qb)
    | store _ b off _ bytes _ => rw [memWrite_eq_buf]; rfl
  | failed c ht => subst ht; rfl

/-- The commands that only send (43_frame.md R171, R172, 44_ack_sequencer.md R191). -/
def Transmits (i : Instr) : Prop := i = .txid ∨ i = .txack ∨ ∃ b, i = .txf b

/-- The commands that only receive (43_frame.md R175, R177, 44_ack_sequencer.md R193). -/
def Receives (i : Instr) : Prop := i = .rxid ∨ i = .rxack ∨ ∃ b, i = .rxf b

/-- A command that only sends is at no place where it would read. -/
theorem Transmits.not_receiving {p : Phase} {it : Item} (h : Transmits i) (hp : placeOf i p it = true) :
    p ∉ receiving := by
  rcases h with rfl | rfl | ⟨b, rfl⟩
  all_goals cases p <;> simp_all [placeOf, phaseOf, receiving]

/-- A command that only receives is at no place where it would send. -/
theorem Receives.not_sending {p : Phase} {it : Item} (h : Receives i) (hp : placeOf i p it = true) :
    p ∉ sending := by
  rcases h with rfl | rfl | ⟨b, rfl⟩
  all_goals cases p <;> simp_all [placeOf, phaseOf, sending]

/-- Only `RXID` and `RECVCALL` receive the identifier's payload (43_frame.md R177, 44_ack_sequencer.md R195). -/
theorem placeOf_payload_ident (hp : placeOf i .payload .ident = true) : i = .rxid ∨ i = .recvcall := by
  cases i with
  | rxid => exact .inl rfl
  | recvcall => exact .inr rfl
  | rxf b => simp [placeOf, phaseOf] at hp
  | _ => cases hp

/-- What the command `i` may use of the channel, and whether it may write `FID`. -/
structure Traffic (i : Instr) (s t : State) : Prop where
  fid : i ≠ .rxid → i ≠ .recvcall → t.fid = s.fid
  rx : Transmits i → t.rx = s.rx
  tx : Receives i → t.tx = s.tx ∧ t.sent = s.sent

theorem Traffic.trans (h : Traffic i s t) (k : Traffic i t u) : Traffic i s u where
  fid h1 h2 := (k.fid h1 h2).trans (h.fid h1 h2)
  rx h1 := (k.rx h1).trans (h.rx h1)
  tx h1 := ⟨(k.tx h1).1.trans (h.tx h1).1, (k.tx h1).2.trans (h.tx h1).2⟩

theorem traffic_of_eq (hf : t.fid = s.fid) (hr : t.rx = s.rx) (ht : t.tx = s.tx) (hs : t.sent = s.sent) :
    Traffic i s t := ⟨fun _ _ => hf, fun _ => hr, fun _ => ⟨ht, hs⟩⟩

theorem Came.traffic (h : Came s t) : Traffic i s t := by
  cases h with
  | raised _ _ ht | finished ht | stays _ _ _ _ ht | enters _ _ _ _ _ ht _ =>
    subst ht; exact traffic_of_eq rfl rfl rfl rfl

theorem Took.traffic (h : Took s u) (hl : Live i s) : Traffic i s u := by
  have hplace := hl.place
  cases h with
  | nothing hu => subst hu; exact traffic_of_eq rfl rfl rfl rfl
  | read hp r hu =>
    subst hu
    exact ⟨fun _ _ => rfl, fun hi => absurd hp (hi.not_receiving hplace), fun _ => ⟨rfl, rfl⟩⟩
  | stored hp r b hu =>
    have hrecv : s.fsm.phase ∈ receiving := by rw [hp]; decide
    subst hu
    refine ⟨?_, fun hi => absurd hrecv (hi.not_receiving hplace), fun _ => ?_⟩
    · intro h1 h2
      cases hit : s.fsm.item with
      | slot c => rfl
      | ident =>
        rw [hp, hit] at hplace
        exact absurd (placeOf_payload_ident hplace) (not_or.2 ⟨h1, h2⟩)
    · cases s.fsm.item with
      | ident => exact ⟨rfl, rfl⟩
      | slot c => exact ⟨rfl, rfl⟩
  | wrote hp r w hu =>
    subst hu
    exact ⟨fun _ _ => rfl, fun _ => rfl, fun hi => absurd hp (hi.not_sending hplace)⟩

theorem resume_traffic (hl : Live i s) : Traffic i s (resume s) := by
  suffices h : ((resume s).busy = false ∨ Live i (resume s)) ∧ Traffic i s (resume s) from h.2
  refine resume_keeps (P := fun t => (t.busy = false ∨ Live i t) ∧ Traffic i s t) ?_ ?_ s
    ⟨.inr hl, traffic_of_eq rfl rfl rfl rfl⟩
  · rintro t u hb ⟨hidle | hl, htr⟩ hu
    · exact absurd hb (by simp [hidle])
    · exact ⟨.inr (hl.took hu), htr.trans (hu.traffic hl)⟩
  · rintro t u hb ⟨hidle | hl, htr⟩ hu
    · exact absurd hb (by simp [hidle])
    · exact ⟨hl.came hu, htr.trans hu.traffic⟩

/-- What a channel command does to `FID` and the streams. -/
theorem exec_channel_traffic (hi : isChannel i = true) (h : exec i s = .next t) : Traffic i s t := by
  rcases exec_channel_cases hi h with ⟨_, rfl⟩ | ⟨hl, rfl⟩
  · exact traffic_of_eq rfl rfl rfl rfl
  · have hentry : Traffic i s (entry i (accept i s)) := by
      rw [entry_same]; exact traffic_of_eq rfl rfl rfl rfl
    exact hentry.trans (resume_traffic (live_entry hi hl))

theorem Transmits.isChannel (h : Transmits i) : isChannel i = true := by
  rcases h with rfl | rfl | ⟨b, rfl⟩ <;> rfl

theorem Receives.isChannel (h : Receives i) : isChannel i = true := by
  rcases h with rfl | rfl | ⟨b, rfl⟩ <;> rfl

/-- Settles O56: a command that uses no channel keeps all of it but the flag it computes; a channel command writes no
flag, and its places in its pseudocode say which port it uses and whether it receives the identifier. -/
theorem controlFrame : Obligations.ControlFrame := by
  intro i s t h
  cases hi : isChannel i with
  | false =>
    have hd := exec_direct hi h
    obtain ⟨plen, host, answer, fid, rx, tx, sent⟩ := hd.offline
    exact ⟨plen, host, answer, fun _ _ => fid, hd.flagT, hd.flagEq, fun _ => ⟨rx, tx, sent⟩, fun _ => rx,
      fun _ => ⟨tx, sent⟩⟩
  | true =>
    have hw := exec_channel_unwritten hi h
    obtain ⟨fid, rx, tx⟩ := exec_channel_traffic hi h
    exact ⟨hw.plen, hw.host, hw.answer, fid, fun _ => hw.flagT, fun _ => hw.flagEq, nofun, rx, tx⟩

end

/-! ## R35, R257, R260 -/

section

variable {s t u : State}

/-- No bit of `ESTICKY` is lost, and a failed link stays failed. -/
structure Sticks (s t : State) : Prop where
  esticky : s.esticky &&& t.esticky = s.esticky
  link : s.link = .failed → t.link = .failed

theorem sticks_of_eq (he : t.esticky = s.esticky) (hl : t.link = s.link) : Sticks s t :=
  ⟨by rw [he, BitVec.and_self], fun h => hl.trans h⟩

theorem Sticks.trans (h : Sticks s t) (k : Sticks t u) : Sticks s u :=
  ⟨by rw [← h.esticky, BitVec.and_assoc, k.esticky], fun hl => k.link (h.link hl)⟩

theorem sticks_raise (c : Cause) (s : State) : Sticks s (raise c s) := by
  refine ⟨?_, fun hl => ?_⟩
  · rw [raise_esticky]
    ext j hj
    simpa using Or.inl
  · rw [raise_link]
    split
    · rfl
    · exact hl

theorem sticks_failed (c : Cause) (s : State) : Sticks s (s.failed c).settled := by
  rw [← raise_accept .sinit]
  exact (sticks_of_eq rfl rfl : Sticks s (accept .sinit s)).trans (sticks_raise c _)

theorem Took.sticks (h : Took s u) : Sticks s u := by rw [h.same]; exact sticks_of_eq rfl rfl

theorem Came.sticks (h : Came s t) : Sticks s t := by
  cases h with
  | raised c _ ht => subst ht; exact sticks_raise c s
  | finished ht | stays _ _ _ _ ht | enters _ _ _ _ _ ht _ => subst ht; exact sticks_of_eq rfl rfl

theorem resume_sticks (s : State) : Sticks s (resume s) :=
  resume_keeps (P := Sticks s) (fun _ _ _ h hu => h.trans hu.sticks) (fun _ _ _ h ht => h.trans ht.sticks) s
    (sticks_of_eq rfl rfl)

/-- `SINIT` is the only command that clears `ESTICKY` and opens the link (45_system.md R210). -/
theorem exec_sticks {i : Instr} (h : exec i s = .next t) (hne : i ≠ .sinit) : Sticks s t := by
  cases hi : isChannel i with
  | false =>
    cases exec_direct hi h with
    | failed c ht => subst ht; exact sticks_failed c s
    | done u hu ht =>
      subst ht
      cases hu with
      | reg _ _ _ _ | point _ _ _ _ | test _ _ _ | equal _ _ _ => exact sticks_of_eq rfl rfl
      | store _ b off _ bytes _ => rw [memWrite_eq_buf]; exact sticks_of_eq rfl rfl
      | sinit => exact absurd rfl hne
  | true =>
    rcases exec_channel_cases hi h with ⟨_, rfl⟩ | ⟨_, rfl⟩
    · exact sticks_failed _ s
    · have hentry : Sticks s (entry i (accept i s)) := by rw [entry_same]; exact sticks_of_eq rfl rfl
      exact hentry.trans (resume_sticks _)

/-- If the link is failed, it is by one of the three errors that abort the session, just raised
(60_exceptions.md R260). -/
def JustAborted (s : State) : Prop :=
  s.link = .failed → s.err = true ∧
    (s.ecause = some .transportError ∨ s.ecause = some .framingError ∨ s.ecause = some .protocolError)

theorem justAborted_of_opened (h : s.link = .opened) : JustAborted s := fun hf => by rw [h] at hf; cases hf

theorem justAborted_raise (c : Cause) (h : c.aborts = true ∨ s.link = .opened) : JustAborted (raise c s) := by
  intro hf
  cases c with
  | transportError => exact ⟨rfl, .inl rfl⟩
  | framingError => exact ⟨rfl, .inr (.inl rfl)⟩
  | protocolError => exact ⟨rfl, .inr (.inr rfl)⟩
  | _ =>
    rcases h with h | h
    · cases h
    · rw [raise_link, h] at hf
      cases hf

theorem justAborted_failed (c : Cause) (h : s.link = .opened) : JustAborted (s.failed c).settled := by
  rw [← raise_accept .sinit]
  exact justAborted_raise c (.inr h)

theorem JustAborted.took (h : JustAborted s) (hu : Took s u) : JustAborted u := by rw [hu.same]; exact h

theorem JustAborted.came (h : JustAborted s) (ht : Came s t) : JustAborted t := by
  cases ht with
  | raised c hc ht => subst ht; exact justAborted_raise c (.inl hc)
  | finished ht | stays _ _ _ _ ht | enters _ _ _ _ _ ht _ => subst ht; exact h

theorem resume_justAborted (s : State) : JustAborted s → JustAborted (resume s) :=
  resume_keeps (fun _ _ _ h hu => h.took hu) (fun _ _ _ h ht => h.came ht) s

theorem exec_justAborted {i : Instr} (h : exec i s = .next t) (hl : s.link = .opened) : JustAborted t := by
  cases hi : isChannel i with
  | false =>
    cases exec_direct hi h with
    | failed c ht => subst ht; exact justAborted_failed c hl
    | done u hu ht =>
      subst ht
      apply justAborted_of_opened
      cases hu with
      | reg _ _ _ _ | point _ _ _ _ | test _ _ _ | equal _ _ _ => exact hl
      | store _ b off _ bytes _ => rw [memWrite_eq_buf]; exact hl
      | sinit => rfl
  | true =>
    rcases exec_channel_cases hi h with ⟨_, rfl⟩ | ⟨_, rfl⟩
    · exact justAborted_failed _ hl
    · exact resume_justAborted _ (justAborted_of_opened (by rw [entry_same]; exact hl))

/-- What the host's side holds does not matter here. -/
theorem sticks_turn {rest : List HostAction} {a : HostAnswer} (h : Sticks { s with host := rest, answer := a } t) :
    Sticks s t := ⟨h.esticky, h.link⟩

theorem step_sticks (h : step s = .next t) (hreset : ∀ rest, s.host ≠ .reset :: rest)
    (hsinit : ∀ c rest, s.busy = false → s.host = .command c :: rest → decode c ≠ .ok .sinit) : Sticks s t := by
  cases step_turn h with
  | runs rest ht => subst ht; exact sticks_turn (resume_sticks { s with host := rest })
  | replies _ _ ht | writes _ _ _ _ _ _ _ ht => subst ht; exact sticks_of_eq rfl rfl
  | illegal rest hb ht => subst ht; exact sticks_turn (sticks_raise .illegalCommand _)
  | executes rest c i hb hh hc ht =>
    have hne : i ≠ .sinit := by rintro rfl; exact hsinit c rest hb hh hc
    exact sticks_turn (exec_sticks ht hne)
  | resets rest hh _ => exact absurd hh (hreset rest)

theorem step_justAborted (h : step s = .next t) (hl : s.link = .opened) : JustAborted t := by
  cases step_turn h with
  | runs rest ht => subst ht; exact resume_justAborted { s with host := rest } (justAborted_of_opened hl)
  | replies _ _ ht | writes _ _ _ _ _ _ _ ht => subst ht; exact justAborted_of_opened hl
  | illegal rest hb ht => subst ht; exact justAborted_raise .illegalCommand (.inr hl)
  | executes rest c i hb hh hc ht => exact exec_justAborted (s := { s with host := rest, answer := .taken }) ht hl
  | resets rest hh ht => subst ht; exact justAborted_of_opened rfl

/-- Settles O57: by what a turn can do, every error only adds to `ESTICKY`, and the link fails only in an event that
raises one of the three errors. -/
theorem stickyUntilSinitOrReset : Obligations.StickyUntilSinitOrReset := by
  intro s t h
  refine ⟨fun hreset hsinit => ?_, step_justAborted h⟩
  have hs := step_sticks h hreset hsinit
  exact ⟨hs.esticky, hs.link⟩

end

/-! ## R45

Two states of one command in flight that agree on all that the rest of the command can read. -/

/-- At a place of `TXACK` or `RXACK` no item of an envelope is moved. -/
def Itemless (s : State) : Prop :=
  (s.inflight = some .txack ∧ s.fsm.phase = .ackTx) ∨ (s.inflight = some .rxack ∧ s.fsm.phase = .ackRx)

/-- The second state differs from the first in hidden registers only, and not in those that the phase reads: `WIN` in
the hunt, `STG` in a test, the item of `FSM` where one is moved. -/
inductive Alike : State → State → Prop
  | intro (s : State) (w g : Word32) (a : Point) (b : BitVec 8) (it : Item) (hw : s.fsm.phase = .hunt → w = s.win)
      (hg : s.fsm.phase = .stop ∨ s.fsm.phase = .ackRx → g = s.stg) (hit : it = s.fsm.item ∨ Itemless s) :
      Alike s { s with win := w, fsm := ⟨s.fsm.phase, it⟩, stg := g, acc := a, biti := b }

section

variable {s u t v : State}

theorem Alike.shown (h : Alike s u) : s.shown = u.shown := by cases h; rfl

theorem Alike.busy (h : Alike s u) : u.busy = s.busy := by cases h; rfl

theorem Alike.phase (h : Alike s u) : u.fsm.phase = s.fsm.phase := by cases h; rfl

theorem Alike.rx (h : Alike s u) : u.rx = s.rx := by cases h; rfl

theorem Alike.tx (h : Alike s u) : u.tx = s.tx := by cases h; rfl

theorem Alike.read (h : Alike s u) (r : List RxAnswer) : Alike { s with rx := r } { u with rx := r } := by
  cases h with
  | intro w g a b it hw hg hit => exact .intro { s with rx := r } w g a b it hw hg hit

theorem Alike.refused (h : Alike s u) (r : List TxAnswer) : Alike { s with tx := r } { u with tx := r } := by
  cases h with
  | intro w g a b it hw hg hit => exact .intro { s with tx := r } w g a b it hw hg hit

theorem Alike.wrote (h : Alike s u) (r : List TxAnswer) (o : List Byte) :
    Alike { s with tx := r, sent := o } { u with tx := r, sent := o } := by
  cases h with
  | intro w g a b it hw hg hit => exact .intro { s with tx := r, sent := o } w g a b it hw hg hit

/-- Both states take the same way. -/
theorem alike_ite {c : Prop} [Decidable c] (hs : c → Alike s u) (ht : ¬ c → Alike t v) :
    Alike (if c then s else t) (if c then u else v) := by
  split
  · exact hs ‹_›
  · exact ht ‹_›

/-- The end of a command clears all hidden registers but `WIN` (log 8). -/
theorem Alike.finish (h : Alike s u) : Alike (finish s) (finish u) := by
  cases h with
  | intro w g a b it hw hg hit => exact .intro (Machine.finish s) w 0 .infinity 0 .ident nofun nofun (.inl rfl)

theorem Alike.raise (c : Cause) (h : Alike s u) : Alike (raise c s) (raise c u) := by
  cases h with
  | intro w g a b it hw hg hit => exact .intro (Machine.raise c s) w 0 .infinity 0 .ident nofun nofun (.inl rfl)

theorem Alike.countByte (n : Nat) {f : State → State} (h : Alike s u) (hf : Alike (f s) (f u)) :
    Alike (countByte n f s) (countByte n f u) := by
  cases h with
  | intro w g a b it hw hg hit =>
    exact alike_ite (fun _ => hf) fun _ => .intro { s with cnt := s.cnt + 1 } w g a b it hw hg hit

/-- A place that reads the item: the two states have the same one. -/
theorem Alike.item (h : Alike s u) (hne : ¬ Itemless s) : ∃ w g a b,
    u = { s with win := w, stg := g, acc := a, biti := b } ∧ (s.fsm.phase = .hunt → w = s.win) ∧
      (s.fsm.phase = .stop ∨ s.fsm.phase = .ackRx → g = s.stg) := by
  cases h with
  | intro w g a b it hw hg hit =>
    obtain rfl := hit.resolve_right hne
    exact ⟨w, g, a, b, rfl, hw, hg⟩

theorem not_itemless_of_phase (h1 : s.fsm.phase ≠ .ackTx) (h2 : s.fsm.phase ≠ .ackRx) : ¬ Itemless s := by
  rintro (⟨_, h⟩ | ⟨_, h⟩)
  · exact h1 h
  · exact h2 h

theorem not_itemless_of_inflight {i : Instr} (h : s.inflight = some i) (h1 : i ≠ .txack) (h2 : i ≠ .rxack) :
    ¬ Itemless s := by
  rintro (⟨h', _⟩ | ⟨h', _⟩)
  · exact h1 (Option.some.inj (h.symm.trans h'))
  · exact h2 (Option.some.inj (h.symm.trans h'))

/-! ### What goes on at a place -/

/-- The next phase, if it reads neither `WIN` nor `STG`. -/
theorem alike_toPhase (p : Phase) (s : State) (w g : Word32) (a : Point) (b : BitVec 8) (hw : p ≠ .hunt)
    (hg : p ≠ .stop) (hg' : p ≠ .ackRx) :
    Alike (s.toPhase p) (State.toPhase { s with win := w, stg := g, acc := a, biti := b } p) :=
  .intro (s.toPhase p) w g a b s.fsm.item (fun h => absurd h hw) (fun h => absurd h (not_or.2 ⟨hg, hg'⟩)) (.inl rfl)

theorem alike_enterStop (s : State) (w g : Word32) (a : Point) (b : BitVec 8) :
    Alike (enterStop s) (enterStop { s with win := w, stg := g, acc := a, biti := b }) :=
  .intro (enterStop s) w 0 a b s.fsm.item nofun (fun _ => rfl) (.inl rfl)

theorem alike_of_plain (s : State) (w g : Word32) (a : Point) (b : BitVec 8) (hw : s.fsm.phase = .hunt → w = s.win)
    (hg : s.fsm.phase = .stop ∨ s.fsm.phase = .ackRx → g = s.stg) :
    Alike s { s with win := w, stg := g, acc := a, biti := b } := .intro s w g a b s.fsm.item hw hg (.inl rfl)

theorem Alike.huntByte (b : Byte) (h : Alike s u) (hp : s.fsm.phase = .hunt) :
    Alike (huntByte b s) (huntByte b u) := by
  obtain ⟨w, g, a, c, rfl, hw, hg⟩ := h.item (not_itemless_of_phase (by simp [hp]) (by simp [hp]))
  obtain rfl := hw hp
  refine alike_ite (fun _ => alike_ite (fun _ => ?_) fun _ => ?_) fun _ => ?_
  · exact alike_enterStop { s with win := shiftIn s.win b } _ g a c
  · exact alike_toPhase .payload { s with win := shiftIn s.win b } _ g a c nofun nofun nofun
  · exact alike_of_plain { s with win := shiftIn s.win b } _ g a c (fun _ => rfl) hg

theorem Alike.payloadByte (b : Byte) (h : Alike s u) (hp : s.fsm.phase = .payload) :
    Alike (payloadByte b s) (payloadByte b u) := by
  obtain ⟨w, g, a, c, rfl, _, _⟩ := h.item (not_itemless_of_phase (by simp [hp]) (by simp [hp]))
  have hsink : ∀ it, State.sinkByte { s with win := w, stg := g, acc := a, biti := c } it s.cnt.toNat b =
      { s.sinkByte it s.cnt.toNat b with win := w, stg := g, acc := a, biti := c } := by
    intro it
    cases it with
    | ident => rfl
    | slot c => rfl
  unfold Machine.payloadByte
  rw [hsink]
  have hst := alike_of_plain (s.sinkByte s.fsm.item s.cnt.toNat b) w g a c (by simp [sinkByte_fsm, hp])
    (by simp [sinkByte_fsm, hp])
  exact hst.countByte (s.itemLen s.fsm.item) (alike_enterStop _ w g a c)

theorem Alike.stopByte (b : Byte) (h : Alike s u) (hp : s.fsm.phase = .stop) :
    Alike (stopByte b s) (stopByte b u) := by
  obtain ⟨w, g, a, c, rfl, hw, hg⟩ := h.item (not_itemless_of_phase (by simp [hp]) (by simp [hp]))
  obtain rfl := hg (.inl hp)
  have hst := alike_of_plain { s with stg := shiftIn s.stg b } w (shiftIn s.stg b) a c hw fun _ => rfl
  refine hst.countByte _ (alike_ite (fun _ => alike_ite (fun _ => ?_) fun _ => hst.finish) fun _ => hst.raise _)
  exact alike_toPhase .ackTx { s with stg := shiftIn s.stg b } w _ a c nofun nofun nofun

theorem Alike.startByte (h : Alike s u) (hp : s.fsm.phase = .txStart) :
    Alike (Machine.countByte 4 enterTxPayload s) (Machine.countByte 4 enterTxPayload u) := by
  obtain ⟨w, g, a, c, rfl, _, _⟩ := h.item (not_itemless_of_phase (by simp [hp]) (by simp [hp]))
  refine h.countByte _ (alike_ite (fun _ => ?_) fun _ => ?_)
  · exact alike_toPhase .txStop s w g a c nofun nofun nofun
  · exact alike_toPhase .txPayload s w g a c nofun nofun nofun

theorem Alike.txPayload (h : Alike s u) (hp : s.fsm.phase = .txPayload) :
    Alike (Machine.countByte (s.itemLen s.fsm.item) enterTxStop s)
      (Machine.countByte (s.itemLen s.fsm.item) enterTxStop u) := by
  obtain ⟨w, g, a, c, rfl, _, _⟩ := h.item (not_itemless_of_phase (by simp [hp]) (by simp [hp]))
  exact h.countByte _ (alike_toPhase .txStop s w g a c nofun nofun nofun)

theorem Alike.txStop (h : Alike s u) (hp : s.fsm.phase = .txStop) :
    Alike (Machine.countByte 4 afterFrameSent s) (Machine.countByte 4 afterFrameSent u) := by
  obtain ⟨w, g, a, c, rfl, _, _⟩ := h.item (not_itemless_of_phase (by simp [hp]) (by simp [hp]))
  exact h.countByte _ (alike_ite (fun _ => alike_toPhase .pace s w g a c nofun nofun nofun) fun _ => h.finish)

/-- The next item of an envelope, where the two commands that move envelopes begin anew. -/
theorem alike_nextItem {f : Item → State → State} (s : State) (w g : Word32) (a : Point) (b : BitVec 8)
    (hf : ∀ it, Alike (f it s) (f it { s with win := w, stg := g, acc := a, biti := b }))
    (h : Alike s { s with win := w, stg := g, acc := a, biti := b }) :
    Alike (nextItem f s) (nextItem f { s with win := w, stg := g, acc := a, biti := b }) := by
  have hn : State.nextPresent { s with win := w, stg := g, acc := a, biti := b } s.fsm.item
      = s.nextPresent s.fsm.item := rfl
  unfold nextItem
  rw [hn]
  cases s.nextPresent s.fsm.item with
  | some c => exact hf _
  | none => exact h.finish

theorem Alike.ackTx (h : Alike s u) :
    Alike (Machine.countByte 3 afterTokenSent s) (Machine.countByte 3 afterTokenSent u) := by
  refine h.countByte _ ?_
  have hi : u.inflight = s.inflight := by cases h; rfl
  unfold afterTokenSent
  rw [hi]
  refine alike_ite (fun hr => ?_) fun _ => h.finish
  obtain ⟨w, g, a, c, rfl, _, _⟩ := h.item (not_itemless_of_inflight hr nofun nofun)
  refine alike_nextItem s w g a c (fun it => ?_) h
  exact .intro (enterReceive it s) 0 g a c it (fun _ => rfl) nofun (.inl rfl)

theorem Alike.tokenTest (h : Alike s u) (hst : u.stg = s.stg) : Alike (tokenTest s) (tokenTest u) := by
  have hi : u.inflight = s.inflight := by cases h; rfl
  unfold Machine.tokenTest
  rw [hst]
  refine alike_ite (fun _ => ?_) fun _ => h.raise _
  unfold afterTokenReceived
  rw [hi]
  refine alike_ite (fun hr => ?_) fun _ => h.finish
  obtain ⟨w, g, a, c, rfl, _, _⟩ := h.item (not_itemless_of_inflight hr nofun nofun)
  refine alike_nextItem s w g a c (fun it => ?_) h
  exact .intro (enterSend it s) w g a c it nofun nofun (.inl rfl)

theorem Alike.tokenByte (b : Byte) (h : Alike s u) (hp : s.fsm.phase = .ackRx) :
    Alike (tokenByte b s) (tokenByte b u) := by
  cases h with
  | intro w g a c it hw hg hit =>
    obtain rfl := hg (.inr hp)
    have hst := Alike.intro { s with stg := shiftIn s.stg b } w (shiftIn s.stg b) a c it hw (fun _ => rfl) hit
    exact hst.countByte _ (hst.tokenTest rfl)

theorem Alike.enterAckRx (h : Alike s u) (hp : s.fsm.phase = .pace) : Alike (enterAckRx s) (enterAckRx u) := by
  obtain ⟨w, g, a, c, rfl, _, _⟩ := h.item (not_itemless_of_phase (by simp [hp]) (by simp [hp]))
  exact .intro (Machine.enterAckRx s) w 0 a c s.fsm.item nofun (fun _ => rfl) (.inl rfl)

/-! ### Events -/

/-- The two events are of one kind and lead to states that are alike. -/
inductive AlikeEvent : Event → Event → Prop
  | went {t v : State} (h : Alike t v) : AlikeEvent (.went t) (.went v)
  | holds {t v : State} (h : Alike t v) : AlikeEvent (.holds t) (.holds v)

theorem Alike.sendByte (b : Byte) {k : State → State} (h : Alike s u)
    (hk : ∀ r o, Alike (k { s with tx := r, sent := o }) (k { u with tx := r, sent := o })) :
    AlikeEvent (sendByte b k s) (sendByte b k u) := by
  have hsent : u.sent = s.sent := by cases h; rfl
  rcases htx : s.tx with _ | ⟨x, r⟩
  · simp only [Machine.sendByte, chanWrite_nil b htx, chanWrite_nil b (h.tx.trans htx)]
    exact .holds h
  · have hu := h.tx.trans htx
    cases x with
    | accepted =>
      simp only [Machine.sendByte, chanWrite_accepted htx, chanWrite_accepted hu, hsent]
      exact .went (hk r _)
    | wouldBlock =>
      simp only [Machine.sendByte, chanWrite_refused htx nofun, chanWrite_refused hu nofun]
      exact .holds (h.refused r)
    | closed | hardError =>
      simp only [Machine.sendByte, chanWrite_refused htx nofun, chanWrite_refused hu nofun]
      exact .went ((h.refused r).raise _)

theorem Alike.receiveByte (c : Cause) {k : Byte → State → State} (h : Alike s u)
    (hk : ∀ b r, Alike (k b { s with rx := r }) (k b { u with rx := r })) :
    AlikeEvent (receiveByte c k s) (receiveByte c k u) := by
  rcases hrx : s.rx with _ | ⟨x, r⟩
  · simp only [Machine.receiveByte, chanRead_nil hrx, chanRead_nil (h.rx.trans hrx)]
    exact .holds h
  · have hu := h.rx.trans hrx
    simp only [Machine.receiveByte, chanRead_cons hrx, chanRead_cons hu]
    cases x with
    | byte b => exact .went (hk b r)
    | wouldBlock => exact .holds (h.read r)
    | closed | hardError => exact .went ((h.read r).raise _)

theorem Alike.cnt (h : Alike s u) : u.cnt = s.cnt := by cases h; rfl

/-- An event of alike states. -/
theorem Alike.blockEvent (h : Alike s u) : AlikeEvent (blockEvent s) (blockEvent u) := by
  have hu := h.phase
  cases hp : s.fsm.phase with
  | idle =>
    simp only [Machine.blockEvent, hu, hp]
    exact .holds h
  | hunt =>
    simp only [Machine.blockEvent, hu, hp]
    exact h.receiveByte _ fun b r => (h.read r).huntByte b hp
  | payload =>
    simp only [Machine.blockEvent, hu, hp]
    exact h.receiveByte _ fun b r => (h.read r).payloadByte b hp
  | stop =>
    simp only [Machine.blockEvent, hu, hp]
    exact h.receiveByte _ fun b r => (h.read r).stopByte b hp
  | txStart =>
    simp only [Machine.blockEvent, hu, hp]
    exact h.sendByte _ fun r o => (h.wrote r o).startByte hp
  | txPayload =>
    have hitem : u.itemByte u.fsm.item u.cnt.toNat = s.itemByte s.fsm.item s.cnt.toNat ∧
        u.itemLen u.fsm.item = s.itemLen s.fsm.item := by
      obtain ⟨w, g, a, c, rfl, _, _⟩ := h.item (not_itemless_of_phase (by simp [hp]) (by simp [hp]))
      exact ⟨rfl, rfl⟩
    simp only [Machine.blockEvent, hu, hp, hitem]
    exact h.sendByte _ fun r o => (h.wrote r o).txPayload hp
  | txStop =>
    simp only [Machine.blockEvent, hu, hp]
    exact h.sendByte _ fun r o => (h.wrote r o).txStop hp
  | ackTx =>
    simp only [Machine.blockEvent, hu, hp, h.cnt]
    exact h.sendByte _ fun r o => (h.wrote r o).ackTx
  | ackRx =>
    simp only [Machine.blockEvent, hu, hp]
    exact h.receiveByte _ fun b r => (h.read r).tokenByte b hp
  | pace =>
    simp only [Machine.blockEvent, hu, hp]
    exact .went (h.enterAckRx hp)

theorem resume_alike (s : State) : ∀ u, Alike s u → Alike (resume s) (resume u) := by
  refine resume_induction (motive := fun s t => ∀ u, Alike s u → Alike t (resume u)) ?_ ?_ ?_ s
  · intro s hb u h
    rw [resume_idle (h.busy.trans hb)]
    exact h
  · intro s t hb he u h
    have hev := h.blockEvent
    rw [he] at hev
    cases heu : blockEvent u with
    | holds v => rw [heu] at hev; rw [resume_holds (h.busy.trans hb) heu]; cases hev with | holds h => exact h
    | went v => rw [heu] at hev; cases hev
  · intro s t hb he ih u h
    have hev := h.blockEvent
    rw [he] at hev
    cases heu : blockEvent u with
    | holds v => rw [heu] at hev; cases hev
    | went v => rw [heu] at hev; rw [resume_went (h.busy.trans hb) heu]; cases hev with | went h => exact ih v h

/-! ### Commands -/

/-- A state is its visible part with its own hidden registers. -/
theorem eq_of_shown_eq (h : s.shown = u.shown) :
    u = { s with win := u.win, fsm := u.fsm, cnt := u.cnt, stg := u.stg, acc := u.acc, biti := u.biti,
                 inflight := u.inflight } :=
  congrArg (fun t : State => { t with
    win := u.win, fsm := u.fsm, cnt := u.cnt, stg := u.stg, acc := u.acc, biti := u.biti, inflight := u.inflight })
    h.symm

/-- Where a channel command begins, the hidden registers that the place reads are set (10_state.md R45). -/
theorem alike_entry {i : Instr} (hi : isChannel i = true) (h : s.shown = u.shown) :
    Alike (entry i (accept i s)) (entry i (accept i u)) := by
  rw [eq_of_shown_eq h]
  cases i with
  | txf b => exact .intro (enterSend (.slot b) (accept _ s)) u.win u.stg u.acc u.biti _ nofun nofun (.inl rfl)
  | txid | sendcall =>
    exact .intro (enterSend .ident (accept _ s)) u.win u.stg u.acc u.biti _ nofun nofun (.inl rfl)
  | rxf b =>
    exact .intro (enterReceive (.slot b) (accept _ s)) 0 u.stg u.acc u.biti _ (fun _ => rfl) nofun (.inl rfl)
  | rxid | recvcall =>
    exact .intro (enterReceive .ident (accept _ s)) 0 u.stg u.acc u.biti _ (fun _ => rfl) nofun (.inl rfl)
  | txack =>
    exact .intro (enterAckTx (accept _ s)) u.win u.stg u.acc u.biti u.fsm.item nofun nofun (.inr (.inl ⟨rfl, rfl⟩))
  | rxack =>
    exact .intro (enterAckRx (accept _ s)) u.win 0 u.acc u.biti u.fsm.item nofun (fun _ => rfl)
      (.inr (.inr ⟨rfl, rfl⟩))
  | _ => cases hi

theorem exec_channel_shown {i : Instr} (hi : isChannel i = true) (h : s.shown = u.shown)
    (ht : exec i s = .next t) (hv : exec i u = .next v) : t.shown = v.shown := by
  have hlink : s.link = u.link := (congrArg State.link h : s.shown.link = u.shown.link)
  rcases exec_channel_cases hi ht with ⟨hl, rfl⟩ | ⟨hl, rfl⟩
  · rcases exec_channel_cases hi hv with ⟨_, rfl⟩ | ⟨hl', _⟩
    · have hfail : (s.shown.failed .linkDown).shown = (u.shown.failed .linkDown).shown := by rw [h]
      exact hfail
    · rw [← hlink, hl] at hl'; cases hl'
  · rcases exec_channel_cases hi hv with ⟨hl', _⟩ | ⟨_, rfl⟩
    · rw [← hlink, hl] at hl'; cases hl'
    · exact (resume_alike _ _ (alike_entry hi h)).shown

theorem writeReg_shown (rd : RegNum) (r : Except Cause Word) (i : Instr) (s : State) :
    (writeReg rd r (accept i s.shown)).shown = (writeReg rd r (accept i s)).shown := by
  cases r with
  | ok v => rfl
  | error c => rfl

theorem writePoint_shown (qd : PointNum) (r : Except Cause Point) (i : Instr) (s : State) :
    (writePoint qd r (accept i s.shown)).shown = (writePoint qd r (accept i s)).shown := by
  cases r with
  | ok p => rfl
  | error c => rfl

theorem memWrite_shown (b : Slot) : ∀ (bytes : List Byte) (off : Nat) (s : State),
    (s.shown.memWrite b off bytes).shown = (s.memWrite b off bytes).shown
  | [], _, _ => rfl
  | v :: vs, off, s => memWrite_shown b vs (off + 1) (s.setBufByte b off v)

theorem shown_done_settled {a b : State} (h : a.shown = b.shown) :
    a.done.settled.shown = b.done.settled.shown := by
  have hd : a.shown.done.shown = b.shown.done.shown := by rw [h]
  exact hd

theorem execLdb_shown {rd : RegNum} {b : Slot} {off w : Nat} (h : execLdb rd b off w s = .next t) :
    ∃ v, execLdb rd b off w s.shown = .next v ∧ v.shown = t.shown := by
  have hin : s.shown.inRange b off w = s.inRange b off w := rfl
  unfold execLdb at h ⊢
  dsimp only at h ⊢
  rw [hin]
  split at h
  next hr => cases h; rw [if_pos hr]; exact ⟨_, rfl, writeReg_shown _ _ _ s⟩
  next hr => cases h; rw [if_neg hr]; exact ⟨_, rfl, rfl⟩

theorem execStb_shown {ra : RegNum} {b : Slot} {off w : Nat} (h : execStb ra b off w s = .next t) :
    ∃ v, execStb ra b off w s.shown = .next v ∧ v.shown = t.shown := by
  have hin : s.shown.inRange b off w = s.inRange b off w := rfl
  have hx : s.shown.getX ra = s.getX ra := rfl
  unfold execStb at h ⊢
  dsimp only at h ⊢
  rw [hin, hx]
  split at h
  next hr =>
    rw [if_pos hr]
    split at h
    next hv => cases h; rw [if_pos hv]; exact ⟨_, rfl, rfl⟩
    next hv =>
      cases h
      rw [if_neg hv]
      refine ⟨_, rfl, ?_⟩
      rw [finish_memWrite_accept, finish_memWrite_accept]
      exact shown_done_settled (memWrite_shown b _ off s)
  next hr => cases h; rw [if_neg hr]; exact ⟨_, rfl, rfl⟩

theorem execPmul_shown {qd : PointNum} {rk : RegNum} {qa : PointNum} (h : execPmul qd rk qa s = .next t) :
    ∃ v, execPmul qd rk qa s.shown = .next v ∧ v.shown = t.shown := by
  have hr : pointScalarMul (s.shown.getX rk) (s.shown.getQ qa) = pointScalarMul (s.getX rk) (s.getQ qa) := rfl
  rw [execPmul_eq] at h
  cases h
  refine ⟨_, execPmul_eq qd rk qa s.shown, ?_⟩
  rw [hr]
  cases pointScalarMul (s.getX rk) (s.getQ qa) with
  | ok p => rfl
  | error c => rfl

/-- The commands that use no channel read no hidden register. -/
theorem exec_direct_shown {i : Instr} (hi : isChannel i = false) (h : exec i s = .next t) :
    ∃ v, exec i s.shown = .next v ∧ v.shown = t.shown := by
  cases i with
  | fadd _ _ _ | fsub _ _ _ | fmul _ _ _ | fred _ _ | finv _ _ =>
    cases h; exact ⟨_, rfl, writeReg_shown _ _ _ s⟩
  | padd _ _ _ => cases h; exact ⟨_, rfl, writePoint_shown _ _ _ s⟩
  | btst _ _ | peq _ _ | sinit => cases h; exact ⟨_, rfl, rfl⟩
  | pmul qd rk qa => exact execPmul_shown h
  | ldb rd b off w => exact execLdb_shown h
  | stb ra b off w => exact execStb_shown h
  | txf _ | txid | rxf _ | rxid | txack | rxack | sendcall | recvcall => cases hi

theorem exec_shown {i : Instr} (h : s.shown = u.shown) (ht : exec i s = .next t) (hv : exec i u = .next v) :
    t.shown = v.shown := by
  cases hi : isChannel i with
  | true => exact exec_channel_shown hi h ht hv
  | false =>
    obtain ⟨a, ha, hat⟩ := exec_direct_shown hi ht
    obtain ⟨b, hb, hbv⟩ := exec_direct_shown hi hv
    rw [h, hb] at ha
    cases ha
    exact hat.symm.trans hbv

/-! ### What is left of the hidden registers -/

/-- An idle block holds nothing in the hidden registers but `WIN` (log 8). -/
def Cleared (s : State) : Prop :=
  s.busy = false → s.fsm.phase = .idle ∧ s.cnt = 0 ∧ s.stg = 0 ∧ s.acc = ⟨0, 0⟩ ∧ s.biti = 0 ∧ s.inflight = none

theorem cleared_settled (s : State) : Cleared s.settled := fun _ => ⟨rfl, rfl, rfl, rfl, rfl, rfl⟩

theorem cleared_of_busy (h : s.busy = true) : Cleared s := fun hb => absurd h (by simp [hb])

theorem Came.cleared (h : Came s t) (hb : s.busy = true) : Cleared t := by
  cases h with
  | raised _ _ ht | finished ht => subst ht; exact fun _ => ⟨rfl, rfl, rfl, rfl, rfl, rfl⟩
  | stays _ _ _ _ ht | enters _ _ _ _ _ ht _ => subst ht; exact cleared_of_busy hb

/-- A command that has ended has cleared them. -/
theorem exec_cleared {i : Instr} (h : exec i s = .next t) : Cleared t := by
  cases hi : isChannel i with
  | false =>
    cases exec_direct hi h with
    | done u _ ht => subst ht; exact cleared_settled _
    | failed c ht => subst ht; exact cleared_settled _
  | true =>
    rcases exec_channel_cases hi h with ⟨_, rfl⟩ | ⟨_, rfl⟩
    · exact cleared_settled _
    · refine resume_keeps (fun _ _ hb _ hu => cleared_of_busy (hu.busy.trans hb)) (fun _ _ hb _ ht => ht.cleared hb)
        _ (cleared_of_busy ?_)
      rw [entry_same]
      rfl

/-- Settles O60: a command that uses no channel reads no hidden register; a channel command sets each one before a
place that reads it, so that the two runs stay alike event by event. -/
theorem hiddenStateDoesNotMatter : Obligations.HiddenStateDoesNotMatter :=
  fun _ _ _ _ _ h ht hv => ⟨exec_shown h ht hv, exec_cleared ht⟩

end
end Sys2Proof.Machine
end

section
/-! Proofs of 20_memory.md: the two memory primitives (R63, O33), the streams (R67, R68, R71, R73, O58), answers that
come later (R69, R70, O50). -/

namespace Sys2Proof.Machine

open Sys2Proof

/-! ## R63 -/

theorem inRange_iff {s : State} {b : Slot} {o w : Nat} : s.inRange b o w = true ↔ o + w ≤ s.plenAt b := by
  simp only [State.inRange, decide_eq_true_eq]

/-- What `MemWrite` wrote, `MemRead` gives back. -/
theorem memRead_memWrite (b : Slot) (bytes : List Byte) (o : Nat) {s : State} (h : Memory.wf s.buf = true) :
    (s.memWrite b o bytes).memRead b o bytes.length = bytes := by
  refine List.ext_getElem (memRead_length _ b o _) fun i _ hi => ?_
  simpa [State.memRead, State.bufByte] using memWrite_same b bytes o s h i hi

/-- `MemWrite` leaves the other slots alone, and in its own slot the offsets before and after the bytes it names. -/
theorem bufByte_memWrite_other {b c : Slot} {bytes : List Byte} {o p : Nat} {s : State}
    (hin : o + bytes.length ≤ s.plenAt b) (hp : p ≤ 254) (hout : c ≠ b ∨ p < o ∨ o + bytes.length ≤ p) :
    (s.memWrite b o bytes).bufByte c p = s.bufByte c p := by
  have hlen := plenAt_le s b
  refine memWrite_other b (bufKey c p) bytes o s fun i hi hkey => ?_
  obtain ⟨hc, hpo⟩ := bufKey_inj (by omega) (by omega) hkey
  rcases hout with hne | hlt | hle
  · exact hne hc
  · omega
  · omega

/-- Settles O33: by the laws of the two primitives; a byte that exists and is not named has a key of its own. -/
theorem memWriteThenMemRead : Obligations.MemWriteThenMemRead := by
  intro s b o bytes hwf hin
  exact ⟨memRead_memWrite b bytes o hwf, fun _ _ hp hout => bufByte_memWrite_other (inRange_iff.1 hin) hp hout,
    memWrite_eq_buf b bytes o s, memWrite_wf b bytes o s hwf⟩

/-! ## R67, R68, R71, R73 -/

/-- From `s` to `t` answers are taken from the front of the two lists, and one byte is appended to the TX stream for
each `Accepted` taken. -/
def InOrder (s t : State) : Prop :=
  ∃ a b w, s.rx = a ++ t.rx ∧ s.tx = b ++ t.tx ∧ t.sent = s.sent ++ w ∧ w.length = b.count .accepted

section

variable {s t u : State}

theorem inOrder_of_eq (hr : t.rx = s.rx) (ht : t.tx = s.tx) (hs : t.sent = s.sent) : InOrder s t :=
  ⟨[], [], [], hr.symm, ht.symm, by rw [hs, List.append_nil], rfl⟩

theorem Keeps.inOrder (k : Keeps s t) : InOrder s t := inOrder_of_eq k.rx k.tx k.sent

theorem InOrder.trans (h : InOrder s t) (k : InOrder t u) : InOrder s u := by
  obtain ⟨a, b, w, hr, ht, hs, hw⟩ := h
  obtain ⟨a', b', w', hr', ht', hs', hw'⟩ := k
  refine ⟨a ++ a', b ++ b', w ++ w', ?_, ?_, ?_, ?_⟩
  · rw [hr, hr', List.append_assoc]
  · rw [ht, ht', List.append_assoc]
  · rw [hs', hs, List.append_assoc]
  · rw [List.length_append, List.count_append, hw, hw']

/-- One answer of the RX port is taken. -/
theorem inOrder_read {a : RxAnswer} {r : List RxAnswer} (h : s.rx = a :: r) : InOrder s { s with rx := r } :=
  ⟨[a], [], [], h, rfl, (List.append_nil _).symm, rfl⟩

/-- One `Accepted` of the TX port is taken, and the byte goes out. -/
theorem inOrder_wrote (b : Byte) {r : List TxAnswer} (h : s.tx = .accepted :: r) :
    InOrder s { s with tx := r, sent := s.sent ++ [b] } :=
  ⟨[], [.accepted], [b], rfl, h, rfl, rfl⟩

/-- Any other answer of the TX port is taken, and no byte goes out. -/
theorem inOrder_refused {a : TxAnswer} {r : List TxAnswer} (h : s.tx = a :: r) (ha : a ≠ .accepted) :
    InOrder s { s with tx := r } := by
  refine ⟨[], [a], [], rfl, h, (List.append_nil _).symm, ?_⟩
  rw [List.count_eq_zero_of_not_mem (by simpa using ha.symm)]
  rfl

theorem Used.inOrder (h : Used s t) : InOrder s t := by
  cases h with
  | pacing _ k _ => exact k.inOrder
  | read _ _ hr k => exact (inOrder_read hr).trans k.inOrder
  | wrote b _ hr k => exact (inOrder_wrote b hr).trans k.inOrder
  | refused _ _ hr ha k => exact (inOrder_refused hr ha).trans k.inOrder

theorem blockEvent_holds_inOrder (h : blockEvent s = .holds t) : InOrder s t := by
  rcases blockEvent_holds h with rfl | ⟨r, hr, rfl⟩ | ⟨r, hr, rfl⟩
  · exact inOrder_of_eq rfl rfl rfl
  · exact inOrder_read hr
  · exact inOrder_refused hr nofun

theorem resume_inOrder (s : State) : InOrder s (resume s) :=
  resume_induction (motive := InOrder) (fun _ _ => inOrder_of_eq rfl rfl rfl)
    (fun _ _ _ h => blockEvent_holds_inOrder h) (fun _ _ _ h ih => (blockEvent_used h).inOrder.trans ih) s

theorem exec_inOrder {i : Instr} (h : exec i s = .next t) : InOrder s t := by
  cases hi : isChannel i with
  | false =>
    have ho := (exec_direct hi h).offline
    exact inOrder_of_eq ho.rx ho.tx ho.sent
  | true =>
    rcases exec_channel_cases hi h with ⟨_, rfl⟩ | ⟨_, rfl⟩
    · exact inOrder_of_eq rfl rfl rfl
    · have hentry : InOrder s (entry i (accept i s)) := (keeps_entry i (accept i s)).inOrder
      exact hentry.trans (resume_inOrder _)

/-- Settles O58: only the block's turn and a channel command use the ports, one answer an event. -/
theorem streamsAreUsedInOrder : Obligations.StreamsAreUsedInOrder := by
  intro s t h
  change InOrder s t
  cases step_turn h with
  | runs rest ht => subst ht; exact resume_inOrder { s with host := rest }
  | replies _ _ ht | writes _ _ _ _ _ _ _ ht | illegal _ _ ht | resets _ _ ht =>
    subst ht; exact inOrder_of_eq rfl rfl rfl
  | executes rest _ _ _ _ _ ht => exact exec_inOrder (s := { s with host := rest, answer := .taken }) ht

end

/-! ## R69, R70, R181: answers that come later

What follows an attempt does not read the answers still in store, so an event that goes on takes the same course with
more answers behind them. -/

/-- What `f` does is the same with more answers in store, and it leaves them there. -/
def Blind (f : State → State) : Prop := ∀ s r u, f (s.feed r u) = (f s).feed r u

theorem blind_ite {c : State → Prop} [DecidablePred c] {f g : State → State}
    (hc : ∀ s r u, c (State.feed s r u) ↔ c s) (hf : Blind f) (hg : Blind g) :
    Blind fun s => if c s then f s else g s := by
  intro s r u
  dsimp only
  by_cases h : c s
  · rw [if_pos h, if_pos ((hc s r u).2 h), hf]
  · rw [if_neg h, if_neg (mt (hc s r u).1 h), hg]

theorem blind_raise (c : Cause) : Blind (raise c) := fun _ _ _ => rfl

theorem blind_finish : Blind finish := fun _ _ _ => rfl

theorem blind_toPhase (p : Phase) : Blind (State.toPhase · p) := fun _ _ _ => rfl

theorem blind_enterStop : Blind enterStop := fun _ _ _ => rfl

theorem blind_enterTxPayload : Blind enterTxPayload :=
  blind_ite (fun _ _ _ => Iff.rfl) (blind_toPhase .txStop) (blind_toPhase .txPayload)

theorem blind_enterPayload : Blind enterPayload :=
  blind_ite (fun _ _ _ => Iff.rfl) blind_enterStop (blind_toPhase .payload)

/-- Which item is next depends on `PLEN` only. -/
theorem blind_nextItem {f : Item → State → State} (hf : ∀ it, Blind (f it)) : Blind (nextItem f) := by
  intro s r u
  have hnext : (s.feed r u).nextPresent (s.feed r u).fsm.item = s.nextPresent s.fsm.item := rfl
  unfold nextItem
  rw [hnext]
  cases s.nextPresent s.fsm.item with
  | some b => exact hf _ s r u
  | none => rfl

theorem blind_afterFrameSent : Blind afterFrameSent :=
  blind_ite (fun _ _ _ => Iff.rfl) (blind_toPhase .pace) blind_finish

theorem blind_afterTokenReceived : Blind afterTokenReceived :=
  blind_ite (fun _ _ _ => Iff.rfl) (blind_nextItem fun _ _ _ _ => rfl) blind_finish

theorem blind_afterFrameReceived : Blind afterFrameReceived :=
  blind_ite (fun _ _ _ => Iff.rfl) (blind_toPhase .ackTx) blind_finish

theorem blind_afterTokenSent : Blind afterTokenSent :=
  blind_ite (fun _ _ _ => Iff.rfl) (blind_nextItem fun _ _ _ _ => rfl) blind_finish

theorem blind_countByte (n : Nat) {f : State → State} (hf : Blind f) : Blind (countByte n f) :=
  blind_ite (fun _ _ _ => Iff.rfl) hf fun _ _ _ => rfl

theorem blind_stopTest : Blind stopTest :=
  blind_ite (fun _ _ _ => Iff.rfl) blind_afterFrameReceived (blind_raise _)

theorem blind_tokenTest : Blind tokenTest :=
  blind_ite (fun _ _ _ => Iff.rfl) blind_afterTokenReceived (blind_raise _)

theorem blind_huntByte (b : Byte) : Blind (huntByte b) :=
  blind_ite (fun _ _ _ => Iff.rfl) (fun s => blind_enterPayload { s with win := shiftIn s.win b }) fun _ _ _ => rfl

theorem blind_sinkByte (it : Item) (j : Nat) (v : Byte) : Blind (State.sinkByte · it j v) := by
  intro s r u
  cases it with
  | ident => rfl
  | slot b => rfl

theorem blind_payloadByte (b : Byte) : Blind (payloadByte b) := fun s r u =>
  (congrArg (countByte (s.itemLen s.fsm.item) enterStop) (blind_sinkByte s.fsm.item s.cnt.toNat b s r u)).trans
    (blind_countByte (s.itemLen s.fsm.item) blind_enterStop _ r u)

theorem blind_stopByte (b : Byte) : Blind (stopByte b) := fun s =>
  blind_countByte _ blind_stopTest { s with stg := shiftIn s.stg b }

theorem blind_tokenByte (b : Byte) : Blind (tokenByte b) := fun s =>
  blind_countByte _ blind_tokenTest { s with stg := shiftIn s.stg b }

theorem feed_rx_cons {s : State} {a : RxAnswer} {q : List RxAnswer} (h : s.rx = a :: q) (r : List RxAnswer)
    (u : List TxAnswer) : (s.feed r u).rx = a :: (q ++ r) := congrArg (· ++ r) h

theorem feed_tx_cons {s : State} {a : TxAnswer} {q : List TxAnswer} (h : s.tx = a :: q) (r : List RxAnswer)
    (u : List TxAnswer) : (s.feed r u).tx = a :: (q ++ u) := congrArg (· ++ u) h

section

variable {s t : State} (r : List RxAnswer) (u : List TxAnswer)

/-- An attempt to send that is answered is answered the same with more answers behind. -/
theorem sendByte_feed {b : Byte} {k : State → State} (hk : Blind k) (h : sendByte b k s = .went t) :
    sendByte b k (s.feed r u) = .went (t.feed r u) := by
  rcases sendByte_cases h with ⟨q, hq, he⟩ | ⟨_, he⟩ | ⟨q, _, he⟩ | ⟨q, hq | hq, he⟩ <;> cases he
  · rw [sendByte, chanWrite_accepted (feed_tx_cons hq r u), ← hk]
    rfl
  · rw [sendByte, chanWrite_refused (feed_tx_cons hq r u) nofun]
    rfl
  · rw [sendByte, chanWrite_refused (feed_tx_cons hq r u) nofun]
    rfl

/-- An attempt to receive that is answered is answered the same with more answers behind. -/
theorem receiveByte_feed {c : Cause} {k : Byte → State → State} (hk : ∀ b, Blind (k b))
    (h : receiveByte c k s = .went t) : receiveByte c k (s.feed r u) = .went (t.feed r u) := by
  rcases receiveByte_cases h with ⟨b, q, hq, he⟩ | ⟨_, he⟩ | ⟨q, _, he⟩ | ⟨q, hq, he⟩ | ⟨q, hq, he⟩ <;> cases he
  · rw [receiveByte, chanRead_cons (feed_rx_cons hq r u), ← hk]
    rfl
  · rw [receiveByte, chanRead_cons (feed_rx_cons hq r u)]
    rfl
  · rw [receiveByte, chanRead_cons (feed_rx_cons hq r u)]
    rfl

/-- An event that goes on takes the same course with more answers in store. -/
theorem blockEvent_feed (h : blockEvent s = .went t) : blockEvent (s.feed r u) = .went (t.feed r u) := by
  have hf : (s.feed r u).fsm.phase = s.fsm.phase := rfl
  cases hp : s.fsm.phase with
  | idle => simp only [blockEvent, hp] at h; cases h
  | hunt => simp only [blockEvent, hf, hp] at h ⊢; exact receiveByte_feed r u blind_huntByte h
  | payload => simp only [blockEvent, hf, hp] at h ⊢; exact receiveByte_feed r u blind_payloadByte h
  | stop => simp only [blockEvent, hf, hp] at h ⊢; exact receiveByte_feed r u blind_stopByte h
  | txStart =>
    simp only [blockEvent, hf, hp] at h ⊢
    exact sendByte_feed r u (blind_countByte _ blind_enterTxPayload) h
  | txPayload =>
    simp only [blockEvent, hf, hp] at h ⊢
    exact sendByte_feed r u (blind_countByte _ (blind_toPhase .txStop)) h
  | txStop =>
    simp only [blockEvent, hf, hp] at h ⊢
    exact sendByte_feed r u (blind_countByte _ blind_afterFrameSent) h
  | ackTx =>
    simp only [blockEvent, hf, hp] at h ⊢
    exact sendByte_feed r u (blind_countByte _ blind_afterTokenSent) h
  | ackRx => simp only [blockEvent, hf, hp] at h ⊢; exact receiveByte_feed r u blind_tokenByte h
  | pace => simp only [blockEvent, hf, hp] at h ⊢; cases h; rfl

/-- Without a `WouldBlock` in store a hold changes nothing. -/
theorem blockEvent_holds_same (hs : Prompt s) (h : blockEvent s = .holds t) : t = s := by
  rcases blockEvent_holds h with rfl | ⟨q, hq, _⟩ | ⟨q, hq, _⟩
  · rfl
  · exact absurd (hq ▸ List.mem_cons_self) hs.1
  · exact absurd (hq ▸ List.mem_cons_self) hs.2

/-- Where the first turn stops, the second goes on with nothing lost. -/
theorem resume_feed_resume (s : State) : Prompt s → resume ((resume s).feed r u) = resume (s.feed r u) := by
  refine resume_induction (motive := fun s t => Prompt s → resume (t.feed r u) = resume (s.feed r u)) ?_ ?_ ?_ s
  · exact fun _ _ _ => rfl
  · intro s t _ he hs
    rw [blockEvent_holds_same hs he]
  · intro s t hb he ih hs
    have hsplit : resume (s.feed r u) = resume (t.feed r u) := resume_went hb (blockEvent_feed r u he)
    rw [hsplit]
    exact ih ((blockEvent_used he).prompt hs)

end

/-- Settles O50: by the events of the first turn, each of which the fed block takes too. -/
theorem answersMayComeLater : Obligations.AnswersMayComeLater :=
  fun s r u hrx htx => resume_feed_resume r u s ⟨hrx, htx⟩

end Sys2Proof.Machine
end

section
/-! Proofs of 30_encoding.md Part A: the round trips (O1, O2) and the opcode table (O3). All three go through one
relation, `Carries c i`: the opcode of the word `c` is that of `i`, the bits the format of `i` leaves unused are zero,
and the operand fields hold the operands of `i`. The decoder reads exactly the commands a word carries, the encoder
writes a word that carries its command, and the first two clauses of the relation are the row's match and mask. -/

namespace Sys2Proof

/-! ## What a word carries -/

/-- The opcode of a command's row (R94), the number in bits 31:24. -/
def opcodeOf (i : Instr) : Nat := (rowOf i).pattern.toNat / 2 ^ 24

/-- The must-be-zero fields of a command's format (R92), each as its lowest bit and its width. -/
def zeroFields : Instr → List (Nat × Nat)
  | .fadd _ _ _ => [(0, 12)]
  | .fsub _ _ _ => [(0, 12)]
  | .fmul _ _ _ => [(0, 12)]
  | .fred _ _ => [(0, 16)]
  | .finv _ _ => [(0, 16)]
  | .btst _ _ => [(20, 4), (12, 4)]
  | .padd _ _ _ => [(23, 1), (19, 1), (15, 1), (0, 12)]
  | .pmul _ _ _ => [(23, 1), (15, 1), (0, 12)]
  | .peq _ _ => [(19, 1), (15, 1), (20, 4), (0, 12)]
  | .ldb _ _ _ _ => [(16, 4), (13, 1)]
  | .stb _ _ _ _ => [(20, 4), (13, 1)]
  | .txf _ => [(2, 22)]
  | .txid => [(0, 24)]
  | .rxf _ => [(2, 22)]
  | .rxid => [(0, 24)]
  | .txack => [(0, 24)]
  | .rxack => [(0, 24)]
  | .sendcall => [(0, 24)]
  | .recvcall => [(0, 24)]
  | .sinit => [(0, 24)]

/-- The command of the same row as `i` whose operands stand in the fields of the word `c` (R93). -/
def withOperandsOf (c : Word32) : Instr → Instr
  | .fadd _ _ _ => .fadd (regAt c 20) (regAt c 16) (regAt c 12)
  | .fsub _ _ _ => .fsub (regAt c 20) (regAt c 16) (regAt c 12)
  | .fmul _ _ _ => .fmul (regAt c 20) (regAt c 16) (regAt c 12)
  | .fred _ _ => .fred (regAt c 20) (regAt c 16)
  | .finv _ _ => .finv (regAt c 20) (regAt c 16)
  | .btst _ _ => .btst (regAt c 16) (field c 0 12)
  | .padd _ _ _ => .padd (pointAt c 20) (pointAt c 16) (pointAt c 12)
  | .pmul _ _ _ => .pmul (pointAt c 20) (regAt c 16) (pointAt c 12)
  | .peq _ _ => .peq (pointAt c 16) (pointAt c 12)
  | .ldb _ _ _ _ => .ldb (regAt c 20) (slotAt c 14) (field c 0 8) (field c 8 5 + 1)
  | .stb _ _ _ _ => .stb (regAt c 16) (slotAt c 14) (field c 0 8) (field c 8 5 + 1)
  | .txf _ => .txf (slotAt c 0)
  | .txid => .txid
  | .rxf _ => .rxf (slotAt c 0)
  | .rxid => .rxid
  | .txack => .txack
  | .rxack => .rxack
  | .sendcall => .sendcall
  | .recvcall => .recvcall
  | .sinit => .sinit

/-- The bits of `c` that its command's row fixes have the values of the row of `i`. -/
structure InRow (c : Word32) (i : Instr) : Prop where
  opcode : field c 24 8 = opcodeOf i
  zero : ∀ f ∈ zeroFields i, field c f.1 f.2 = 0

/-- The word `c` is in the row of `i` and its operand fields hold the operands of `i`. -/
structure Carries (c : Word32) (i : Instr) : Prop extends InRow c i where
  operands : withOperandsOf c i = i

@[simp] theorem rowOf_withOperandsOf (c : Word32) (i : Instr) : rowOf (withOperandsOf c i) = rowOf i := by
  cases i <;> rfl

@[simp] theorem zeroFields_withOperandsOf (c : Word32) (i : Instr) :
    zeroFields (withOperandsOf c i) = zeroFields i := by
  cases i <;> rfl

@[simp] theorem withOperandsOf_idem (c : Word32) (i : Instr) :
    withOperandsOf c (withOperandsOf c i) = withOperandsOf c i := by
  cases i <;> rfl

/-- A word in a row carries the command of that row that its operand fields spell. -/
theorem InRow.carries {c : Word32} {i : Instr} (h : InRow c i) : Carries c (withOperandsOf c i) where
  opcode := by simpa [opcodeOf] using h.opcode
  zero := by simpa using h.zero
  operands := withOperandsOf_idem c i

@[simp] theorem regAt_val (c : Word32) (lo : Nat) : (regAt c lo).val = field c lo 4 := by
  simp [regAt, field]

@[simp] theorem pointAt_val (c : Word32) (lo : Nat) : (pointAt c lo).val = field c lo 3 := by
  simp [pointAt, field]

@[simp] theorem slotAt_val (c : Word32) (lo : Nat) : (slotAt c lo).val = field c lo 2 := by
  simp [slotAt, field]

/-! ## The decoder reads what a word carries -/

theorem needZero_eq_ok {v : Nat} {i j : Instr} : needZero v i = .ok j ↔ v = 0 ∧ i = j := by
  unfold needZero; split <;> simp [*]

theorem needPoint_eq_ok {v : Nat} {r : Except Illegal Instr} {j : Instr} :
    needPoint v r = .ok j ↔ v = 0 ∧ r = .ok j := by
  unfold needPoint; split <;> simp [*]

/-- Under an opcode of the table the decoder checks the zero fields of that opcode's format and reads its operands. -/
theorem decode_of_opcode {c : Word32} {i j : Instr} (hop : field c 24 8 = opcodeOf i) :
    decode c = .ok j ↔ (∀ f ∈ zeroFields i, field c f.1 f.2 = 0) ∧ withOperandsOf c i = j := by
  cases i
  all_goals
    simp [opcodeOf, rowOf] at hop
    simp [decode, hop, zeroFields, withOperandsOf, needZero_eq_ok, needPoint_eq_ok, and_assoc]

/-- Any other opcode is illegal. -/
theorem decode_of_other_opcode {c : Word32} (h : ∀ i ∈ rowSamples, field c 24 8 ≠ opcodeOf i) :
    decode c = .error .opcode := by
  simp [rowSamples, opcodeOf, rowOf] at h
  simp [decode, h]

/-- The decoder reads from a word exactly the commands that the word carries. -/
theorem decode_eq_ok_iff {c : Word32} {i : Instr} : decode c = .ok i ↔ Carries c i := by
  constructor
  · intro h
    by_cases hop : ∃ k ∈ rowSamples, field c 24 8 = opcodeOf k
    · obtain ⟨k, -, hk⟩ := hop
      obtain ⟨hz, rfl⟩ := (decode_of_opcode hk).1 h
      exact InRow.carries ⟨hk, hz⟩
    · rw [decode_of_other_opcode fun k hk he => hop ⟨k, hk, he⟩] at h
      cases h
  · intro h
    exact (decode_of_opcode h.opcode).2 ⟨h.zero, h.operands⟩

/-! ## The encoder writes a word that carries its command -/

/-- Each command's opcode law, for every command. -/
theorem opcodeField (i : Instr) : Laws.OpcodeField.Statement i := by
  cases i with
  | fadd rd ra rb => exact Laws.OpcodeField.fadd rd ra rb
  | fsub rd ra rb => exact Laws.OpcodeField.fsub rd ra rb
  | fmul rd ra rb => exact Laws.OpcodeField.fmul rd ra rb
  | fred rd ra => exact Laws.OpcodeField.fred rd ra
  | finv rd ra => exact Laws.OpcodeField.finv rd ra
  | btst ra idx => exact Laws.OpcodeField.btst ra idx
  | padd qd qa qb => exact Laws.OpcodeField.padd qd qa qb
  | pmul qd rk qa => exact Laws.OpcodeField.pmul qd rk qa
  | peq qa qb => exact Laws.OpcodeField.peq qa qb
  | ldb rd b off w => exact Laws.OpcodeField.ldb rd b off w
  | stb ra b off w => exact Laws.OpcodeField.stb ra b off w
  | txf b => exact Laws.OpcodeField.txf b
  | txid => exact Laws.OpcodeField.txid
  | rxf b => exact Laws.OpcodeField.rxf b
  | rxid => exact Laws.OpcodeField.rxid
  | txack => exact Laws.OpcodeField.txack
  | rxack => exact Laws.OpcodeField.rxack
  | sendcall => exact Laws.OpcodeField.sendcall
  | recvcall => exact Laws.OpcodeField.recvcall
  | sinit => exact Laws.OpcodeField.sinit

theorem encodeNat_lt {i : Instr} (h : i.wellFormed = true) : encodeNat i < 2 ^ 32 := (opcodeField i h).1

theorem field_encode {i : Instr} (h : i.wellFormed = true) (lo width : Nat) :
    field (encode i) lo width = encodeNat i / 2 ^ lo % 2 ^ width :=
  field_ofNat (encodeNat_lt h)

/-- The encoder leaves the bits zero that the format does not use. -/
theorem zeroFields_encode {i : Instr} (h : i.wellFormed = true) :
    ∀ f ∈ zeroFields i, field (encode i) f.1 f.2 = 0 := by
  simp only [field_encode h]
  cases i <;>
    simp [zeroFields, encodeNat, pack, packLS, Instr.wellFormed] at h ⊢ <;> omega

/-- The operand fields of an encoding hold the operands. -/
theorem withOperandsOf_encode {i : Instr} (h : i.wellFormed = true) : withOperandsOf (encode i) i = i := by
  have hf := field_encode h
  cases i <;>
    simp [withOperandsOf, Fin.ext_iff, hf, encodeNat, pack, packLS, Instr.wellFormed] at h ⊢ <;> omega

theorem carries_encode {i : Instr} (h : i.wellFormed = true) : Carries (encode i) i where
  opcode := (opcodeField i h).2
  zero := zeroFields_encode h
  operands := withOperandsOf_encode h

/-- Operands read from fields are in the fields' ranges. -/
theorem wellFormed_withOperandsOf (c : Word32) (i : Instr) : (withOperandsOf c i).wellFormed = true := by
  cases i <;> simp [withOperandsOf, Instr.wellFormed, field] <;> omega

/-- The opcode, the operand fields and the zero fields of a format together are the whole word: in each format they
cover bits 31:0 without overlap, so the number of the word is the sum that the encoder writes. -/
theorem InRow.encodeNat_eq {c : Word32} {i : Instr} (h : InRow c i) :
    encodeNat (withOperandsOf c i) = c.toNat := by
  have hc := c.isLt
  obtain ⟨hop, hz⟩ := h
  cases i <;>
    simp [withOperandsOf, encodeNat, pack, packLS, zeroFields, opcodeOf, rowOf, field] at hop hz ⊢ <;> omega

theorem Carries.wellFormed {c : Word32} {i : Instr} (h : Carries c i) : i.wellFormed = true :=
  h.operands ▸ wellFormed_withOperandsOf c i

theorem Carries.encode_eq {c : Word32} {i : Instr} (h : Carries c i) : encode i = c := by
  have hn : encodeNat i = c.toNat := h.operands ▸ h.toInRow.encodeNat_eq
  rw [encode, hn, BitVec.ofNat_toNat, BitVec.setWidth_eq]

/-- Settles O1: an encoding carries its command, and the decoder reads what a word carries. -/
theorem decodeOfEncode : Obligations.DecodeOfEncode :=
  fun _ h => decode_eq_ok_iff.2 (carries_encode h)

/-- Settles O2: the word carries the command read from it, and a word is what its command's row, operands and zero
fields make it. -/
theorem encodeOfDecode : Obligations.EncodeOfDecode := by
  intro c i h
  have hc : Carries c i := decode_eq_ok_iff.1 h
  exact ⟨hc.wellFormed, hc.encode_eq⟩

/-! ## Match and mask of a row -/

/-- The bits a row fixes: the opcode and the zero fields of its format. -/
def fixedFields (i : Instr) : List (Nat × Nat) := (24, 8) :: zeroFields i

theorem testBit_field (c : Word32) (lo width j : Nat) :
    (field c lo width).testBit j = (decide (j < width) && c.getLsbD (lo + j)) := by
  rw [field, Nat.testBit_mod_two_pow, Nat.testBit_div_two_pow, BitVec.testBit_toNat, Nat.add_comm]

/-- A field of two words is equal iff its bits are. -/
theorem field_eq_iff {c d : Word32} {lo width : Nat} :
    field c lo width = field d lo width ↔ ∀ k, lo ≤ k → k < lo + width → c.getLsbD k = d.getLsbD k := by
  constructor
  · intro h k hlo hk
    have hbit := congrArg (Nat.testBit · (k - lo)) h
    simpa [testBit_field, show k - lo < width by omega, show lo + (k - lo) = k by omega] using hbit
  · intro h
    refine Nat.eq_of_testBit_eq fun j => ?_
    rw [testBit_field, testBit_field]
    by_cases hj : j < width
    · rw [h (lo + j) (by omega) (by omega)]
    · simp [hj]

/-- The mask of R94 has its ones in the fixed fields. -/
theorem mask_getLsbD (i : Instr) :
    ∀ k < 32, ((rowOf i).mask.getLsbD k = true ↔ ∃ f ∈ fixedFields i, f.1 ≤ k ∧ k < f.1 + f.2) := by
  cases i <;> simp only [rowOf, fixedFields, zeroFields] <;> decide

theorem pattern_and_mask (i : Instr) : (rowOf i).pattern &&& (rowOf i).mask = (rowOf i).pattern := by
  cases i <;> simp only [rowOf] <;> decide

/-- The match of R94 is a word of its own row. -/
theorem inRow_pattern (i : Instr) : InRow (rowOf i).pattern i where
  opcode := by
    have hp := (rowOf i).pattern.isLt
    rw [field, opcodeOf]
    omega
  zero := by cases i <;> simp only [rowOf, zeroFields] <;> decide

/-- Masked equality is equality at the ones of the mask. -/
theorem and_eq_iff {c m p : Word32} (hp : p &&& m = p) :
    c &&& m = p ↔ ∀ k < 32, m.getLsbD k = true → c.getLsbD k = p.getLsbD k := by
  rw [← hp, BitVec.eq_of_getLsbD_eq_iff]
  refine forall₂_congr fun k _ => ?_
  rw [BitVec.getLsbD_and, BitVec.getLsbD_and]
  cases m.getLsbD k <;> simp

/-- Being in a row is having the fixed fields of the row's match. -/
theorem inRow_iff {c : Word32} {i : Instr} :
    InRow c i ↔ ∀ f ∈ fixedFields i, field c f.1 f.2 = field (rowOf i).pattern f.1 f.2 := by
  obtain ⟨hop, hz⟩ := inRow_pattern i
  rw [fixedFields, List.forall_mem_cons, hop]
  constructor
  · exact fun h => ⟨h.opcode, fun f hf => (h.zero f hf).trans (hz f hf).symm⟩
  · exact fun h => ⟨h.1, fun f hf => (h.2 f hf).trans (hz f hf)⟩

/-- R94: a word matches a row iff it has the row's opcode and the zero fields of its format. -/
theorem matches_iff_inRow {c : Word32} {i : Instr} : (rowOf i).matches c = true ↔ InRow c i := by
  rw [Row.matches, beq_iff_eq, and_eq_iff (pattern_and_mask i), inRow_iff]
  simp only [field_eq_iff]
  constructor
  · intro h f hf k hlo hk
    by_cases h32 : k < 32
    · exact h k h32 ((mask_getLsbD i k h32).2 ⟨f, hf, hlo, hk⟩)
    · rw [BitVec.getLsbD_of_ge _ _ (by omega), BitVec.getLsbD_of_ge _ _ (by omega)]
  · intro h k h32 hm
    obtain ⟨f, hf, hlo, hk⟩ := (mask_getLsbD i k h32).1 hm
    exact h f hf k hlo hk

theorem rowOf_mem_opcodeTable (i : Instr) : rowOf i ∈ opcodeTable := by
  cases i <;> simp [opcodeTable, rowSamples, rowOf]

/-- A word matches a row of the table iff it carries a command of that row. -/
theorem matches_iff_decode {c : Word32} {r : Row} (hr : r ∈ opcodeTable) :
    r.matches c = true ↔ ∃ i, decode c = .ok i ∧ rowOf i = r := by
  obtain ⟨s, -, rfl⟩ := List.mem_map.1 hr
  constructor
  · intro h
    exact ⟨withOperandsOf c s, decode_eq_ok_iff.2 (matches_iff_inRow.1 h).carries, rowOf_withOperandsOf c s⟩
  · rintro ⟨i, hi, hrow⟩
    exact hrow ▸ matches_iff_inRow.2 (decode_eq_ok_iff.1 hi).toInRow

/-- Two rows that a word matches are both the row of the one command the decoder reads. -/
theorem row_unique {c : Word32} {r q : Row} (hr : r ∈ opcodeTable) (hq : q ∈ opcodeTable)
    (hcr : r.matches c = true) (hcq : q.matches c = true) : r = q := by
  obtain ⟨i, hi, rfl⟩ := (matches_iff_decode hr).1 hcr
  obtain ⟨j, hj, rfl⟩ := (matches_iff_decode hq).1 hcq
  rw [hi] at hj
  cases hj
  rfl

theorem decode_error_iff_no_row {c : Word32} :
    (∃ e, decode c = .error e) ↔ ∀ r ∈ opcodeTable, r.matches c = false := by
  constructor
  · rintro ⟨e, he⟩ r hr
    refine Bool.eq_false_iff.2 fun hm => ?_
    obtain ⟨i, hi, -⟩ := (matches_iff_decode hr).1 hm
    simp [he] at hi
  · intro h
    cases hd : decode c with
    | error e => exact ⟨e, rfl⟩
    | ok i =>
      have hm : (rowOf i).matches c = true := (matches_iff_decode (rowOf_mem_opcodeTable i)).2 ⟨i, hd, rfl⟩
      simp [h _ (rowOf_mem_opcodeTable i)] at hm

/-- Settles O3: match and mask say that the word is in the row, and the decoder reads what a word in a row carries. -/
theorem decoderAgreesWithOpcodeTable : Obligations.DecoderAgreesWithOpcodeTable :=
  ⟨fun _ _ => matches_iff_decode, fun _ _ _ => row_unique, fun _ => decode_error_iff_no_row⟩

end Sys2Proof
end

section
/-! Proofs of 40_field.md: the words of R121 to R126 (O4, O15 to O20), what the commands write, and that the field
operations read their operands modulo `P` only (O21). A register result is `modP` of an integer or the inverse; each
function of the unit is first described by the number it gives, and the commands are read off from that. -/

namespace Sys2Proof.Machine

open Sys2Proof

/-! ## The words of the unit's commands (30_encoding.md R92, R93) -/

@[simp] theorem at32_zero (lo : Nat) : at32 0 lo = 0#32 := by simp [at32]

/-- A word of three register fields. -/
theorem word_of_registers (op : Nat) (a b c : RegNum) :
    BitVec.ofNat 32 (pack op a b c 0) = at32 op 24 ||| at32 a 20 ||| at32 b 16 ||| at32 c 12 := by
  simpa using pack_eq_or (op := op) a.isLt b.isLt c.isLt (show 0 < 2 ^ 12 by decide)

/-- A word of two register fields. -/
theorem word_of_two_registers (op : Nat) (a b : RegNum) :
    BitVec.ofNat 32 (pack op a b 0 0) = at32 op 24 ||| at32 a 20 ||| at32 b 16 := by
  simpa using word_of_registers op a b 0

/-- A word of one register field and a bit index. -/
theorem word_of_register_index (op : Nat) (b : RegNum) {idx : Nat} (h : idx ≤ 4095) :
    BitVec.ofNat 32 (pack op 0 b 0 idx) = at32 op 24 ||| at32 b 16 ||| at32 idx 0 := by
  simpa using pack_eq_or (op := op) (a := 0) (c := 0) (by decide) b.isLt (by decide) (show idx < 2 ^ 12 by omega)

/-- Settles O4: each word is the encoding of its command. -/
theorem sampleWordsDecode : Obligations.SampleWordsDecode :=
  ⟨decodeOfEncode (.fadd 3 1 2) rfl, decodeOfEncode (.finv 2 1) rfl, decodeOfEncode (.btst 1 2) rfl,
   decodeOfEncode (.padd 1 0 0) rfl, decodeOfEncode (.pmul 1 4 0) rfl, decodeOfEncode (.peq 1 2) rfl,
   decodeOfEncode (.ldb 4 2 0 32) rfl, decodeOfEncode (.ldb 5 2 30 2) rfl, decodeOfEncode (.stb 1 0 0 32) rfl,
   decodeOfEncode (.rxf 1) rfl, decodeOfEncode .txack rfl, decodeOfEncode .sendcall rfl,
   decodeOfEncode .sinit rfl⟩

/-! ## What a register result leaves visible -/

theorem writeReg_ok_visible (rd : RegNum) (v : Word) (i : Instr) (s : State) :
    (writeReg rd (.ok v) (accept i s)).shown = ((s.setX rd v).done).shown := rfl

theorem writeReg_error_visible (rd : RegNum) (c : Cause) (i : Instr) (s : State) :
    (writeReg rd (.error c) (accept i s)).shown = (s.failed c).shown := by
  rw [writeReg, raise_accept, settled_shown]

/-! ## The residue of an integer (00_scope.md R10) -/

/-- The unit's reduction is the residue of the statements. -/
theorem modP_eq_residue (v : Int) : modP v = residue v := by
  have h0 : 0 ≤ v % (Config.P : Int) := Int.emod_nonneg _ (by exact_mod_cast P_pos.ne')
  rw [modP, residue, ← BitVec.ofInt_natCast, Int.toNat_of_nonneg h0]

/-- A command that writes a reduced integer. -/
theorem writeReg_modP_visible (rd : RegNum) (v : Int) (i : Instr) (s : State) :
    (writeReg rd (.ok (modP v)) (accept i s)).shown = ((s.setX rd (residue v)).done).shown := by
  rw [writeReg_ok_visible, modP_eq_residue]

/-- Settles O15: the unit reduces the sum of the two operands as integers. -/
theorem faddWritesTheSum : Obligations.FaddWritesTheSum := fun rd ra rb s =>
  ⟨word_of_registers 0x10 rd ra rb, _, rfl, writeReg_modP_visible rd (s.intX ra + s.intX rb) _ s⟩

/-- Settles O16: the difference is an integer, negative or not, before it is reduced. -/
theorem fsubWritesTheDifference : Obligations.FsubWritesTheDifference := fun rd ra rb s =>
  ⟨word_of_registers 0x11 rd ra rb, _, rfl, writeReg_modP_visible rd (s.intX ra - s.intX rb) _ s⟩

/-- Settles O17: the product is reduced whole. -/
theorem fmulWritesTheProduct : Obligations.FmulWritesTheProduct := fun rd ra rb s =>
  ⟨word_of_registers 0x12 rd ra rb, _, rfl, writeReg_modP_visible rd (s.intX ra * s.intX rb) _ s⟩

/-! ## The residue of a register (R124) -/

theorem intOf_fieldRed (a : Word) : intOf (fieldRed a) = intOf a % (Config.P : Int) := modP_toNat (intOf a)

theorem fieldRed_toNat (a : Word) : (fieldRed a).toNat = a.toNat % Config.P := by
  have h : ((fieldRed a).toNat : Int) = (a.toNat : Int) % (Config.P : Int) := intOf_fieldRed a
  exact_mod_cast h

/-- `P` is above half of what a register can hold, so that reducing a register subtracts `P` at most once. -/
theorem word_mod_P (a : Word) :
    a.toNat % Config.P = if a.toNat < Config.P then a.toNat else a.toNat - Config.P := by
  have hP : 2 ^ 256 < 2 * Config.P := by decide
  have ha := a.isLt
  split
  next h => exact Nat.mod_eq_of_lt h
  next h => rw [Nat.mod_eq_sub_mod (by omega), Nat.mod_eq_of_lt (by omega)]

/-- The two register values that have no inverse (R125). -/
theorem word_mod_P_eq_zero_iff (a : Word) : a.toNat % Config.P = 0 ↔ a.toNat = 0 ∨ a.toNat = Config.P := by
  have hP := P_pos
  rw [word_mod_P]
  split <;> omega

/-- Settles O18: the residue of a register is the register less at most one `P`. -/
theorem fredWritesTheResidue : Obligations.FredWritesTheResidue := fun rd ra s =>
  ⟨word_of_two_registers 0x13 rd ra, _, fieldRed (s.getX ra), rfl, rfl, by rw [fieldRed_toNat, word_mod_P]⟩

/-! ## The inverse (R125) -/

theorem fieldInv_error {v : Word} (h : v.toNat % Config.P = 0) : fieldInv v = .error .arithmeticError := if_pos h

theorem fieldInv_ok {v : Word} (h : v.toNat % Config.P ≠ 0) : fieldInv v = .ok (inv v) := if_neg h

/-- Settles O19: the operands 0 and `P` are those with residue 0; for any other, `inv` is the inverse and no second one
lies below `P`. -/
theorem finvWritesTheInverse : Obligations.FinvWritesTheInverse := by
  intro rd ra s
  refine ⟨word_of_two_registers 0x14 rd ra, fun h => ⟨_, rfl, ?_⟩,
    fun h0 hP => ⟨_, inv (s.getX ra), rfl, ?_⟩⟩
  · rw [fieldInv_error ((word_mod_P_eq_zero_iff _).2 h), writeReg_error_visible]
  · have hv : (s.getX ra).toNat % Config.P ≠ 0 := fun h => ((word_mod_P_eq_zero_iff _).1 h).elim h0 hP
    rw [fieldInv_ok hv, writeReg_ok_visible]
    exact ⟨rfl, inv_pos hv, inv_lt _, mul_inv_mod hv, fun y _ hy hinv => inv_unique hy hinv⟩

/-! ## The bit test (R126) -/

theorem testBit_of_ge {idx : Nat} (v : Word) (h : 256 ≤ idx) : testBit v idx = false := if_pos h

/-- From index 256 on the shifted value is 0, so that the rule's two cases are one. -/
theorem testBit_eq (v : Word) (idx : Nat) : testBit v idx = decide (v.toNat / 2 ^ idx % 2 = 1) := by
  rw [← Nat.testBit_eq_decide_div_mod_eq, BitVec.testBit_toNat]
  by_cases h : 256 ≤ idx
  · rw [testBit_of_ge v h, BitVec.getLsbD_of_ge v idx h]
  · exact if_neg h

theorem finish_accept_setT (i : Instr) (s : State) (v : Bool) :
    finish ((accept i s).setT v) = (s.setT v).done.settled := rfl

/-- Settles O20: the tested bit is the quotient's parity at every index. -/
theorem btstTestsTheBit : Obligations.BtstTestsTheBit := by
  intro ra idx s hidx
  refine ⟨word_of_register_index 0x18 ra hidx, _, rfl, ?_, fun h => testBit_of_ge (s.getX ra) h⟩
  rw [finish_accept_setT, settled_shown, testBit_eq]

/-! ## The operations read their operands modulo `P` (R120, R125) -/

theorem fieldInv_congr {u v : Word} (h : u.toNat % Config.P = v.toNat % Config.P) : fieldInv u = fieldInv v := by
  rw [fieldInv, fieldInv, inv, inv, h]

/-- Settles O21: reducing an operand keeps its residue, and the operations depend on nothing else. -/
theorem reducingOperandsFirst : Obligations.ReducingOperandsFirst := by
  intro a b
  refine ⟨modP_eq ?_, modP_eq ?_, modP_eq ?_, fieldInv_congr ?_⟩
  · rw [intOf_fieldRed, intOf_fieldRed, ← Int.add_emod]
  · rw [intOf_fieldRed, intOf_fieldRed, ← Int.sub_emod]
  · rw [intOf_fieldRed, intOf_fieldRed, ← Int.mul_emod]
  · rw [fieldRed_toNat, Nat.mod_mod]

end Sys2Proof.Machine
end

section
/-! Proofs of 41_point.md: `PointAdd` by the slope (O22 to O24), the curve it keeps (O25), scalar multiplication (O27,
O28), and the three commands (O26, O29, O30). `chord` divides two reduced integers; it is described once by the slope
it finds, an integer `lam` with `lam * den = num` modulo `P`, and the rest is arithmetic in the field `ZMod P`. -/

namespace Sys2Proof.Machine

open Sys2Proof

/-! ## The words of the unit's commands (30_encoding.md R92, R93) -/

/-- A point number as a number of four bits, whose top bit is zero (R95). -/
def PointNum.wide (q : PointNum) : RegNum := q.castLE (by decide)

theorem word_of_padd (qd qa qb : PointNum) :
    encode (.padd qd qa qb) = 0x20000000 ||| at32 qd 20 ||| at32 qa 16 ||| at32 qb 12 :=
  word_of_registers 0x20 (PointNum.wide qd) (PointNum.wide qa) (PointNum.wide qb)

theorem word_of_pmul (qd : PointNum) (rk : RegNum) (qa : PointNum) :
    encode (.pmul qd rk qa) = 0x21000000 ||| at32 qd 20 ||| at32 rk 16 ||| at32 qa 12 :=
  word_of_registers 0x21 (PointNum.wide qd) rk (PointNum.wide qa)

theorem word_of_peq (qa qb : PointNum) :
    encode (.peq qa qb) = 0x22000000 ||| at32 qa 16 ||| at32 qb 12 :=
  word_of_registers 0x22 0 (PointNum.wide qa) (PointNum.wide qb)

/-! ## What the commands leave visible (R143, R145, R146) -/

theorem writePoint_ok_visible (qd : PointNum) (p : Point) (i : Instr) (s : State) :
    (writePoint qd (.ok p) (accept i s)).shown = ((s.setQ qd p).done).shown := rfl

theorem writePoint_error_visible (qd : PointNum) (c : Cause) (i : Instr) (s : State) :
    (writePoint qd (.error c) (accept i s)).shown = (s.failed c).shown := by
  rw [writePoint, raise_accept, settled_shown]

theorem finish_accept_setEq (i : Instr) (s : State) (v : Bool) :
    finish ((accept i s).setEq v) = (s.setEq v).done.settled := rfl

/-- Settles O26: the sum is the point result that `PADD` ends with. -/
theorem paddWritesTheSum : Obligations.PaddWritesTheSum := by
  intro qd qa qb s
  refine ⟨word_of_padd qd qa qb, fun r hr => ⟨_, rfl, ?_⟩, fun c hc => ⟨_, rfl, ?_⟩⟩
  · rw [hr, writePoint_ok_visible]
  · rw [hc, writePoint_error_visible]

/-- Settles O29: the scan of the bits leaves nothing behind but its point or its error. -/
theorem pmulWritesTheMultiple : Obligations.PmulWritesTheMultiple := by
  intro qd rk qa s
  refine ⟨word_of_pmul qd rk qa, fun r hr => ⟨_, execPmul_eq qd rk qa s, ?_⟩,
    fun c hc => ⟨_, execPmul_eq qd rk qa s, ?_⟩⟩
  · simp only [hr, settled_shown]
  · simp only [hc, settled_shown]

/-- Settles O30: the two comparisons are one, of the coordinates as they stand in the registers. -/
theorem peqComparesRawCoordinates : Obligations.PeqComparesRawCoordinates := by
  intro qa qb s
  refine ⟨word_of_peq qa qb, _, rfl, ?_⟩
  rw [finish_accept_setEq, settled_shown, pointsEqual, ← Bool.decide_and]
  rfl

/-! ## Residues as elements of the field `ZMod P` -/

/-- The field of 40_field.md R120. -/
abbrev FieldP : Type := ZMod Config.P

theorem emod_P_eq_iff {u v : Int} :
    u % (Config.P : Int) = v % (Config.P : Int) ↔ (u : FieldP) = (v : FieldP) :=
  (ZMod.intCast_eq_intCast_iff u v Config.P).symm

theorem emod_P_eq_zero_iff {v : Int} : v % (Config.P : Int) = 0 ↔ (v : FieldP) = 0 := by
  rw [ZMod.intCast_zmod_eq_zero_iff_dvd, Int.dvd_iff_emod_eq_zero]

@[simp] theorem cast_emod_P (v : Int) : ((v % (Config.P : Int) : Int) : FieldP) = (v : FieldP) :=
  emod_P_eq_iff.1 (Int.emod_emod _ _)

/-- A reduced register stands for the integer that was reduced. -/
@[simp] theorem cast_residue (v : Int) : ((residue v).toNat : FieldP) = (v : FieldP) := by
  rw [← modP_eq_residue, ← Int.cast_natCast, modP_toNat, cast_emod_P]

theorem residue_congr {u v : Int} (h : (u : FieldP) = (v : FieldP)) : residue u = residue v := by
  rw [residue, residue, emod_P_eq_iff.2 h]

/-- The field has no zero divisors, `P` being prime. -/
theorem fieldP_cancel {d u v : FieldP} (hd : d ≠ 0) (h : u * d = v * d) : u = v := by
  have : Fact (Nat.Prime Config.P) := ⟨P_prime⟩
  exact mul_right_cancel₀ hd h

theorem modP_eq_zero_iff (v : Int) : modP v = 0 ↔ v % (Config.P : Int) = 0 := by
  rw [← modP_toNat v]
  constructor
  · intro h; rw [h]; rfl
  · intro h; exact BitVec.eq_of_toNat_eq (by simpa using h)

/-! ## The slope (R142 step 5) -/

/-- `lam` is the representative in `[0, P)` of `num / den`. -/
structure IsSlope (lam num den : Int) : Prop where
  nonneg : 0 ≤ lam
  lt : lam < (Config.P : Int)
  mul_den : lam * den % (Config.P : Int) = num % (Config.P : Int)

theorem IsSlope.cast_mul {lam num den : Int} (h : IsSlope lam num den) :
    (lam : FieldP) * (den : FieldP) = (num : FieldP) := by
  rw [← Int.cast_mul]
  exact emod_P_eq_iff.1 h.mul_den

/-- There is one slope. -/
theorem IsSlope.unique {lam mu num den : Int} (hl : IsSlope lam num den) (hm : IsSlope mu num den)
    (hd : den % (Config.P : Int) ≠ 0) : lam = mu := by
  have hcast : (lam : FieldP) = (mu : FieldP) :=
    fieldP_cancel (mt emod_P_eq_zero_iff.2 hd) (hl.cast_mul.trans hm.cast_mul.symm)
  have hmod := emod_P_eq_iff.2 hcast
  rwa [Int.emod_eq_of_lt hl.nonneg hl.lt, Int.emod_eq_of_lt hm.nonneg hm.lt] at hmod

/-- Traversing the chord the other way leaves its slope. -/
theorem IsSlope.neg {lam num den : Int} (h : IsSlope lam num den) : IsSlope lam (-num) (-den) := by
  refine ⟨h.nonneg, h.lt, emod_P_eq_iff.2 ?_⟩
  push_cast
  rw [mul_neg, h.cast_mul]

/-- What `inv` gives for a residue other than 0 is its inverse in the field. -/
theorem cast_inv_mul {d : Int} (hd : d % (Config.P : Int) ≠ 0) :
    ((inv (modP d)).toNat : FieldP) * (d : FieldP) = 1 := by
  have hne : (modP d).toNat % Config.P ≠ 0 := by
    rw [Nat.mod_eq_of_lt (modP_lt d)]
    intro h
    exact hd (by rw [← modP_toNat, h]; rfl)
  have hmod : (((modP d).toNat * (inv (modP d)).toNat : Nat) : FieldP) = ((1 : Nat) : FieldP) := by
    rw [ZMod.natCast_eq_natCast_iff, Nat.ModEq, mul_inv_mod hne, Nat.mod_eq_of_lt P_prime.one_lt]
  rw [Nat.cast_mul, modP_eq_residue, cast_residue, Nat.cast_one] at hmod
  rw [mul_comm, modP_eq_residue]
  exact hmod

/-- The quotient the unit computes is the slope. -/
theorem isSlope_quotient (n : Int) {d : Int} (hd : d % (Config.P : Int) ≠ 0) :
    IsSlope (modP (intOf (modP n) * intOf (inv (modP d)))).toNat n d := by
  refine ⟨Int.natCast_nonneg _, Int.ofNat_lt.2 (modP_lt _), emod_P_eq_iff.2 ?_⟩
  have hquot : (((modP (intOf (modP n) * intOf (inv (modP d)))).toNat : Int) : FieldP)
      = (n : FieldP) * ((inv (modP d)).toNat : FieldP) := by
    simp [modP_eq_residue, intOf]
  rw [Int.cast_mul, hquot, mul_assoc, cast_inv_mul hd, mul_one]

/-! ## Steps 4 to 8 of `PointAdd` -/

theorem chord_error (n : Int) {d : Int} (a b : Point) (hd : d % (Config.P : Int) = 0) :
    chord (modP n) (modP d) a b = .error .arithmeticError :=
  if_pos ((modP_eq_zero_iff d).2 hd)

theorem chord_ok (n : Int) {d : Int} (a b : Point) (hd : d % (Config.P : Int) ≠ 0) :
    ∃ lam, IsSlope lam n d ∧ chord (modP n) (modP d) a b = .ok (thirdPoint lam a b) := by
  refine ⟨_, isSlope_quotient n hd, (if_neg (mt (modP_eq_zero_iff d).1 hd)).trans ?_⟩
  simp only [thirdPoint, ← modP_eq_residue, intOf]

theorem chord_eq_error_iff (n d : Int) (a b : Point) (c : Cause) :
    chord (modP n) (modP d) a b = .error c ↔ c = .arithmeticError ∧ d % (Config.P : Int) = 0 := by
  by_cases hd : d % (Config.P : Int) = 0
  · simp [chord_error n a b hd, hd, eq_comm]
  · obtain ⟨lam, -, h⟩ := chord_ok n a b hd
    simp [h, hd]

/-- A result of the division is the third point of the slope. -/
theorem chord_eq_ok {n d : Int} {a b r : Point} (h : chord (modP n) (modP d) a b = .ok r) :
    d % (Config.P : Int) ≠ 0 ∧ ∃ lam, IsSlope lam n d ∧ r = thirdPoint lam a b := by
  have hd : d % (Config.P : Int) ≠ 0 := by
    intro hd
    rw [chord_error n a b hd] at h
    cases h
  obtain ⟨lam, hs, hok⟩ := chord_ok n a b hd
  exact ⟨hd, lam, hs, Except.ok.inj (h.symm.trans hok)⟩

/-! ## The cases of `PointAdd` (R142) -/

theorem pointAdd_infinity_left (b : Point) : pointAdd .infinity b = .ok b := if_pos rfl

theorem pointAdd_infinity_right (a : Point) : pointAdd a .infinity = .ok a := by
  by_cases ha : a = .infinity
  · rw [ha, pointAdd_infinity_left]
  · rw [pointAdd, if_neg ha, if_pos rfl]

/-- The numerator of the slope of a chord (R142 step 3). -/
def chordRise (a b : Point) : Int := (b.y.toNat : Int) - (a.y.toNat : Int)

/-- The denominator of the slope of a chord (R142 step 3). -/
def chordRun (a b : Point) : Int := (b.x.toNat : Int) - (a.x.toNat : Int)

theorem chordRise_swap (a b : Point) : chordRise b a = -chordRise a b := (neg_sub _ _).symm

theorem chordRun_swap (a b : Point) : chordRun b a = -chordRun a b := (neg_sub _ _).symm

@[simp] theorem cast_chordRise (a b : Point) : (chordRise a b : FieldP) = b.y.toNat - a.y.toNat := by simp [chordRise]

@[simp] theorem cast_chordRun (a b : Point) : (chordRun a b : FieldP) = b.x.toNat - a.x.toNat := by simp [chordRun]

section

variable {a b : Point}

theorem pointAdd_opposite (ha : a ≠ .infinity) (hb : b ≠ .infinity) (hx : a.x = b.x) (hy : a.y ≠ b.y) :
    pointAdd a b = .ok .infinity := by
  rw [pointAdd, if_neg ha, if_neg hb, if_pos hx, if_neg hy]

theorem pointAdd_double (ha : a ≠ .infinity) :
    pointAdd a a
      = chord (modP (3 * (a.x.toNat : Int) * (a.x.toNat : Int) - 3)) (modP (2 * (a.y.toNat : Int))) a a := by
  rw [pointAdd, if_neg ha, if_neg ha, if_pos rfl, if_pos rfl]
  rfl

theorem pointAdd_unequal (ha : a ≠ .infinity) (hb : b ≠ .infinity) (hx : a.x ≠ b.x) :
    pointAdd a b = chord (modP (chordRise a b)) (modP (chordRun a b)) a b := by
  rw [pointAdd, if_neg ha, if_neg hb, if_neg hx]
  rfl

end

/-- The operands of `PointAdd` fall under one of the five cases of the lemmas above. -/
theorem operand_cases (a b : Point) :
    a = .infinity ∨ b = .infinity ∨
      (a ≠ .infinity ∧ b ≠ .infinity ∧ (a.x = b.x ∧ a.y ≠ b.y ∨ a = b ∨ a.x ≠ b.x)) := by
  by_cases ha : a = .infinity
  · exact .inl ha
  by_cases hb : b = .infinity
  · exact .inr (.inl hb)
  refine .inr (.inr ⟨ha, hb, ?_⟩)
  by_cases hx : a.x = b.x
  · by_cases hy : a.y = b.y
    · exact .inr (.inl (congrArg₂ Point.mk hx hy))
    · exact .inl ⟨hx, hy⟩
  · exact .inr (.inr hx)

/-- Settles O22: the cases of `PointAdd`, in the last four what `chord` gives for their denominator. -/
theorem pointAddByTheSlope : Obligations.PointAddByTheSlope := by
  intro a b
  refine ⟨?_, ?_, fun ha hb hx hy => pointAdd_opposite ha hb hx hy, ?_, ?_, ?_, ?_⟩
  · rintro rfl; exact pointAdd_infinity_left b
  · rintro - rfl; exact pointAdd_infinity_right a
  · rintro ha rfl hd; exact (pointAdd_double ha).trans (chord_error _ a a hd)
  · rintro ha rfl hd
    obtain ⟨lam, hs, h⟩ := chord_ok _ a a hd
    exact ⟨lam, hs.nonneg, hs.lt, hs.mul_den, (pointAdd_double ha).trans h⟩
  · intro ha hb hx hd; exact (pointAdd_unequal ha hb hx).trans (chord_error _ a b hd)
  · intro ha hb hx hd
    obtain ⟨lam, hs, h⟩ := chord_ok (chordRise a b) (d := chordRun a b) a b hd
    exact ⟨lam, hs.nonneg, hs.lt, hs.mul_den, (pointAdd_unequal ha hb hx).trans h⟩

/-! ## When `PointAdd` raises (R148) -/

/-- The doubling slope has denominator 0 where `y` is 0 or `P`, `P` being odd. -/
theorem double_mod_P_eq_zero_iff (y : Word) :
    2 * (y.toNat : Int) % (Config.P : Int) = 0 ↔ y.toNat = 0 ∨ y.toNat = Config.P := by
  have hodd : Nat.Coprime Config.P 2 := by decide
  rw [← word_mod_P_eq_zero_iff, ← Nat.dvd_iff_mod_eq_zero, ← hodd.dvd_mul_left, Nat.dvd_iff_mod_eq_zero]
  norm_cast

/-- Two different registers are equal modulo `P` where they differ by `P`: there is no room for `2 * P`. -/
theorem chordRun_mod_P_eq_zero_iff {a b : Point} (h : a.x ≠ b.x) :
    chordRun a b % (Config.P : Int) = 0 ↔
      a.x.toNat + Config.P = b.x.toNat ∨ b.x.toNat + Config.P = a.x.toNat := by
  have hP : 2 ^ 256 < 2 * Config.P := by decide
  have ha := a.x.isLt
  have hb := b.x.isLt
  have hne : a.x.toNat ≠ b.x.toNat := mt BitVec.eq_of_toNat_eq h
  rw [chordRun, ← Int.emod_eq_emod_iff_emod_sub_eq_zero, ← Int.natCast_mod, ← Int.natCast_mod, Int.ofNat_inj,
    word_mod_P, word_mod_P]
  split <;> split <;> omega

/-- Settles O23: of the five cases of the operands the last two divide, and they raise where the denominator is 0. -/
theorem pointAddRaisesExactlyThere : Obligations.PointAddRaisesExactlyThere := by
  intro a b c
  change _ ↔ c = .arithmeticError ∧ a ≠ .infinity ∧ b ≠ .infinity ∧ _
  obtain rfl | rfl | ⟨ha, hb, ⟨hx, hy⟩ | rfl | hx⟩ := operand_cases a b
  · simp [pointAdd_infinity_left]
  · simp [pointAdd_infinity_right]
  · have hab : a ≠ b := fun h => hy (congrArg Point.y h)
    simp [pointAdd_opposite ha hb hx hy, hx, hab]
  · rw [pointAdd_double ha, chord_eq_error_iff, double_mod_P_eq_zero_iff]
    simp [ha]
  · have hab : a ≠ b := fun h => hx (congrArg Point.x h)
    rw [pointAdd_unequal ha hb hx, chord_eq_error_iff, chordRun_mod_P_eq_zero_iff hx]
    simp [ha, hb, hx, hab]

/-! ## The third point and commutativity (R143) -/

theorem thirdPoint_x_cast (lam : Int) (a b : Point) :
    ((thirdPoint lam a b).x.toNat : FieldP) = (lam : FieldP) ^ 2 - a.x.toNat - b.x.toNat := by
  simp [thirdPoint, pow_two]

theorem thirdPoint_y_cast (lam : Int) (a b : Point) :
    ((thirdPoint lam a b).y.toNat : FieldP)
      = lam * (a.x.toNat - (thirdPoint lam a b).x.toNat) - a.y.toNat := by
  simp [thirdPoint]

/-- Both ends of a chord give one third point. -/
theorem thirdPoint_comm {lam : Int} {a b : Point} (hs : IsSlope lam (chordRise a b) (chordRun a b)) :
    thirdPoint lam a b = thirdPoint lam b a := by
  have hline := hs.cast_mul
  rw [cast_chordRun, cast_chordRise] at hline
  simp only [thirdPoint, sub_right_comm (lam * lam)]
  congr 1
  refine residue_congr ?_
  push_cast
  linear_combination -hline

/-- Settles O24: the chord the other way has the same denominator up to sign, the same slope and so the same third
point. -/
theorem pointAddCommutes : Obligations.PointAddCommutes := by
  intro a b ha hb hx
  rw [pointAdd_unequal ha hb hx, pointAdd_unequal hb ha (Ne.symm hx)]
  have hswap : chordRun b a % (Config.P : Int) = 0 ↔ chordRun a b % (Config.P : Int) = 0 := by
    rw [chordRun_swap, emod_P_eq_zero_iff, emod_P_eq_zero_iff, Int.cast_neg, neg_eq_zero]
  by_cases hd : chordRun a b % (Config.P : Int) = 0
  · rw [chord_error _ a b hd, chord_error _ b a (hswap.2 hd)]
  · obtain ⟨lam, hl, hab⟩ := chord_ok (chordRise a b) a b hd
    obtain ⟨mu, hm, hba⟩ := chord_ok (chordRise b a) b a (mt hswap.1 hd)
    have hmu : IsSlope mu (chordRise a b) (chordRun a b) := by
      rw [chordRise_swap b a, chordRun_swap b a]
      exact hm.neg
    rw [hab, hba, ← hl.unique hmu hd, thirdPoint_comm hl]

/-! ## The curve (R140) -/

theorem onCurve_iff (c : Int) (a : Point) :
    onCurve c a ↔ (a.y.toNat : FieldP) ^ 2 = (a.x.toNat : FieldP) ^ 3 - 3 * a.x.toNat + c := by
  rw [onCurve, emod_P_eq_zero_iff, ← sub_eq_zero (b := _ + (c : FieldP))]
  push_cast
  rfl

/-- The line of slope `l` through a point `(xa, ya)` of the curve meets it again at `xb`: the cubic that is left of the
curve's equation on the line, divided by `x - xa`, has the root `xb`. -/
def MeetsAgain (l xa ya xb : FieldP) : Prop :=
  xa ^ 2 + xa * xb + xb ^ 2 - 3 = l ^ 2 * (xb - xa) + 2 * l * ya

/-- Divided by `x - xb` too, the cubic has its last root at `l ^ 2 - xa - xb`, which is the third point's. -/
theorem thirdPoint_onCurve {c lam : Int} {a b : Point} (ha : onCurve c a)
    (h : MeetsAgain lam a.x.toNat a.y.toNat b.x.toNat) : onCurve c (thirdPoint lam a b) := by
  rw [onCurve_iff] at ha ⊢
  rw [thirdPoint_y_cast, thirdPoint_x_cast]
  unfold MeetsAgain at h
  generalize (a.x.toNat : FieldP) = xa at *
  generalize (b.x.toNat : FieldP) = xb at *
  linear_combination ha - ((lam : FieldP) ^ 2 - 2 * xa - xb) * h

/-- The tangent meets the curve twice at its own point. -/
theorem tangent_meetsAgain {lam : Int} {a : Point}
    (hs : IsSlope lam (3 * (a.x.toNat : Int) * (a.x.toNat : Int) - 3) (2 * (a.y.toNat : Int))) :
    MeetsAgain lam a.x.toNat a.y.toNat a.x.toNat := by
  have hline := hs.cast_mul
  push_cast at hline
  unfold MeetsAgain
  linear_combination -hline

/-- The chord through two points of the curve meets it at both. -/
theorem chord_meetsAgain {c lam : Int} {a b : Point} (ha : onCurve c a) (hb : onCurve c b)
    (hs : IsSlope lam (chordRise a b) (chordRun a b)) (hd : chordRun a b % (Config.P : Int) ≠ 0) :
    MeetsAgain lam a.x.toNat a.y.toNat b.x.toNat := by
  have hline := hs.cast_mul
  have hne := mt emod_P_eq_zero_iff.2 hd
  rw [cast_chordRun] at hne
  rw [cast_chordRun, cast_chordRise] at hline
  rw [onCurve_iff] at ha hb
  refine fieldP_cancel hne ?_
  generalize (a.x.toNat : FieldP) = xa at *
  generalize (b.x.toNat : FieldP) = xb at *
  generalize (a.y.toNat : FieldP) = ya at *
  generalize (b.y.toNat : FieldP) = yb at *
  linear_combination ha - hb - (yb + ya + (lam : FieldP) * (xb - xa)) * hline

/-- The operands and results of the point operations on a curve: infinity, or a pair that satisfies the equation. -/
def InfinityOrOnCurve (c : Int) (a : Point) : Prop := a = .infinity ∨ onCurve c a

theorem pointAdd_infinityOrOnCurve {c : Int} {a b r : Point} (ha : InfinityOrOnCurve c a)
    (hb : InfinityOrOnCurve c b) (h : pointAdd a b = .ok r) : InfinityOrOnCurve c r := by
  obtain rfl | rfl | ⟨hna, hnb, ⟨hx, hy⟩ | rfl | hx⟩ := operand_cases a b
  · rw [pointAdd_infinity_left] at h; cases h; exact hb
  · rw [pointAdd_infinity_right] at h; cases h; exact ha
  · rw [pointAdd_opposite hna hnb hx hy] at h; cases h; exact .inl rfl
  · rw [pointAdd_double hna] at h
    obtain ⟨-, lam, hs, rfl⟩ := chord_eq_ok h
    exact .inr (thirdPoint_onCurve (ha.resolve_left hna) (tangent_meetsAgain hs))
  · rw [pointAdd_unequal hna hnb hx] at h
    obtain ⟨hd, lam, hs, rfl⟩ := chord_eq_ok h
    have hca := ha.resolve_left hna
    exact .inr (thirdPoint_onCurve hca (chord_meetsAgain hca (hb.resolve_left hnb) hs hd))

/-! ## The loop of `PointScalarMul` (R144) -/

/-- One pass of the loop: a doubling that the highest bit goes without, then an addition if the bit is set. -/
theorem mulBit_eq_bind (k : Word) (pt : Point) (i : Nat) (acc : Point) :
    mulBit k pt i acc = (if i + 1 = bitlen k then .ok acc else pointAdd acc acc) >>= fun a =>
      if k.getLsbD i then pointAdd a pt else .ok a := by
  rw [mulBit]
  cases (if i + 1 = bitlen k then .ok acc else pointAdd acc acc) <;> rfl

theorem mulBits_succ (k : Word) (pt : Point) (i : Nat) (acc : Point) :
    mulBits k pt (i + 1) acc = mulBit k pt i acc >>= mulBits k pt i := by
  rw [mulBits]
  cases mulBit k pt i acc <;> rfl

/-- The loop as a fold over the bit numbers from the top down. -/
theorem mulBits_eq_foldlM (k : Word) (pt : Point) : ∀ (n : Nat) (acc : Point),
    mulBits k pt n acc = (List.range n).reverse.foldlM (fun a i => mulBit k pt i a) acc
  | 0, acc => rfl
  | n + 1, acc => by
    rw [mulBits_succ, List.range_succ, List.reverse_append, List.reverse_singleton, List.singleton_append,
      List.foldlM_cons, funext (mulBits_eq_foldlM k pt n)]

theorem bind_eq_ok {α β : Type} {x : Except Cause α} {f : α → Except Cause β} {r : β} (h : x >>= f = .ok r) :
    ∃ a, x = .ok a ∧ f a = .ok r := by
  cases x with
  | error c => cases h
  | ok a => exact ⟨a, rfl, h⟩

theorem bind_eq_error {α β : Type} {x : Except Cause α} {f : α → Except Cause β} {c : Cause}
    (h : x >>= f = .error c) : x = .error c ∨ ∃ a, f a = .error c := by
  cases x with
  | error d => cases h; exact .inl rfl
  | ok a => exact .inr ⟨a, h⟩

/-- What additions keep, a pass of the loop keeps. -/
theorem mulBit_keeps {motive : Point → Prop}
    (hadd : ∀ {a b r}, motive a → motive b → pointAdd a b = .ok r → motive r)
    {k : Word} {pt acc r : Point} {i : Nat} (hpt : motive pt) (hacc : motive acc) (h : mulBit k pt i acc = .ok r) :
    motive r := by
  rw [mulBit_eq_bind] at h
  obtain ⟨a, hdouble, hlast⟩ := bind_eq_ok h
  have ha : motive a := by
    split at hdouble
    · cases hdouble; exact hacc
    · exact hadd hacc hacc hdouble
  split at hlast
  · exact hadd ha hpt hlast
  · cases hlast; exact ha

/-- What additions keep, the loop keeps. -/
theorem mulBits_keeps {motive : Point → Prop}
    (hadd : ∀ {a b r}, motive a → motive b → pointAdd a b = .ok r → motive r) {k : Word} {pt : Point}
    (hpt : motive pt) : ∀ (n : Nat) {acc r : Point}, motive acc → mulBits k pt n acc = .ok r → motive r
  | 0, _, _, hacc, h => by cases h; exact hacc
  | n + 1, _, _, hacc, h => by
    rw [mulBits_succ] at h
    obtain ⟨a, hbit, hrest⟩ := bind_eq_ok h
    exact mulBits_keeps hadd hpt n (mulBit_keeps hadd hpt hacc hbit) hrest

/-- Settles O25: the third point is the last root of the curve's equation on the line, and a multiple is a chain of
sums. -/
theorem pointOperationsKeepTheCurve : Obligations.PointOperationsKeepTheCurve := by
  refine ⟨fun c a b r => pointAdd_infinityOrOnCurve, fun c k a r ha h => ?_⟩
  rw [pointScalarMul_eq] at h
  exact mulBits_keeps (motive := InfinityOrOnCurve c) pointAdd_infinityOrOnCurve ha (bitlen k) (.inl rfl) h

/-- `bitlen` of a scalar other than 0 is the number of its top bit and one. -/
theorem bitlen_eq_log2 {k : Word} (hk : k ≠ 0) : bitlen k = Nat.log2 k.toNat + 1 := by
  have hn : k.toNat ≠ 0 := fun h => hk (BitVec.eq_of_toNat_eq h)
  exact le_antisymm (Nat.size_le.2 Nat.lt_log2_self) (Nat.lt_size.2 (Nat.log2_self_le hn))

theorem getLsbD_eq_decide (k : Word) (i : Nat) : k.getLsbD i = decide (k.toNat / 2 ^ i % 2 = 1) := by
  rw [← BitVec.testBit_toNat, Nat.testBit_eq_decide_div_mod_eq]

/-- Settles O27: the loop is the fold of its passes, and a pass is the rule's body. -/
theorem scalarMulIsDoubleAndAdd : Obligations.ScalarMulIsDoubleAndAdd := by
  intro k pt
  by_cases hk : k = 0
  · rw [if_pos hk, hk]; rfl
  · rw [if_neg hk, pointScalarMul_eq, mulBits_eq_foldlM, bitlen_eq_log2 hk]
    refine congrArg (List.foldlM · Point.infinity _) (funext fun acc => funext fun i => ?_)
    rw [mulBit_eq_bind, bitlen_eq_log2 hk]
    simp only [Nat.add_right_cancel_iff, getLsbD_eq_decide, decide_eq_true_eq, ite_not]
    split <;> rfl

/-! ## Small multiples, infinity and the only error (R145) -/

theorem pointAdd_error {a b : Point} {c : Cause} (h : pointAdd a b = .error c) : c = .arithmeticError :=
  ((pointAddRaisesExactlyThere a b c).1 h).1

theorem mulBit_error {k : Word} {pt acc : Point} {i : Nat} {c : Cause} (h : mulBit k pt i acc = .error c) :
    c = .arithmeticError := by
  rw [mulBit_eq_bind] at h
  obtain hdouble | ⟨a, hlast⟩ := bind_eq_error h
  · split at hdouble
    · cases hdouble
    · exact pointAdd_error hdouble
  · split at hlast
    · exact pointAdd_error hlast
    · cases hlast

theorem mulBits_error {k : Word} {pt : Point} {c : Cause} : ∀ (n : Nat) {acc : Point},
    mulBits k pt n acc = .error c → c = .arithmeticError
  | 0, _, h => by cases h
  | n + 1, _, h => by
    rw [mulBits_succ] at h
    obtain hbit | ⟨a, hrest⟩ := bind_eq_error h
    · exact mulBit_error hbit
    · exact mulBits_error n hrest

/-- Every pass over infinity adds infinity to infinity. -/
theorem mulBits_infinity (k : Word) : ∀ n, mulBits k .infinity n .infinity = .ok .infinity
  | 0 => rfl
  | n + 1 => by
    have hbit : mulBit k .infinity n .infinity = .ok .infinity := by
      simp [mulBit, pointAdd_infinity_left]
    rw [mulBits_succ, hbit]
    exact mulBits_infinity k n

/-- The pass of the highest bit, from infinity, gives the point. -/
theorem mulBit_top {k : Word} (pt : Point) {i : Nat} (hi : i + 1 = bitlen k) (hbit : k.getLsbD i = true) :
    mulBit k pt i .infinity = .ok pt := by
  simp [mulBit, hi, hbit, pointAdd_infinity_left]

/-- The pass of a lower bit that is not set only doubles. -/
theorem mulBit_clear {k : Word} (pt acc : Point) {i : Nat} (hi : i + 1 ≠ bitlen k) (hbit : k.getLsbD i = false) :
    mulBit k pt i acc = pointAdd acc acc := by
  rw [mulBit, if_neg hi, hbit]
  cases pointAdd acc acc <;> rfl

/-- The pass of bit 0 is the last. -/
theorem mulBits_one (k : Word) (pt acc : Point) : mulBits k pt 1 acc = mulBit k pt 0 acc := by
  rw [mulBits_succ]
  cases mulBit k pt 0 acc <;> rfl

theorem pointScalarMul_one (pt : Point) : pointScalarMul 1 pt = .ok pt := by
  have hlen : bitlen 1 = 1 := bitlen_eq_log2 (by decide)
  rw [pointScalarMul_eq, hlen, mulBits_one, mulBit_top pt hlen.symm rfl]

theorem pointScalarMul_two (pt : Point) : pointScalarMul 2 pt = pointAdd pt pt := by
  have hlen : bitlen 2 = 2 := bitlen_eq_log2 (by decide)
  rw [pointScalarMul_eq, hlen, mulBits_succ, mulBit_top pt hlen.symm rfl]
  change mulBits 2 pt 1 pt = _
  rw [mulBits_one, mulBit_clear pt pt (by rw [hlen]; decide) rfl]

/-- Settles O28: the loop run for the small scalars, and an induction over its passes for infinity and the error. -/
theorem scalarMulSmallMultiples : Obligations.ScalarMulSmallMultiples := fun pt k =>
  ⟨rfl, pointScalarMul_one pt, pointScalarMul_two pt, (pointScalarMul_eq k _).trans (mulBits_infinity k _),
   fun _ h => mulBits_error (bitlen k) ((pointScalarMul_eq k pt).symm.trans h)⟩

end Sys2Proof.Machine
end

section
/-! Proofs of 42_loadstore.md: the load (R161, O31), the store (R162, O32), the round trips (R162, O34), and the frame of
the buffers (O55). Each outcome of the two commands is one equation for `exec`; the statements are read off from these.
The frame of the buffers turns on the one place where a channel command stores a byte. -/

namespace Sys2Proof.Machine

open Sys2Proof

/-! ## The words of the two commands (30_encoding.md R92, R93) -/

section

variable {r : RegNum} {b : Slot} {off w : Nat} {s : State}

theorem word_of_ldb (rd : RegNum) (b : Slot) (ho : off ≤ 255) (h1 : 1 ≤ w) (hw : w ≤ 32) :
    encode (.ldb rd b off w) = 0x30000000 ||| at32 rd 20 ||| at32 b 14 ||| at32 (w - 1) 8 ||| at32 off 0 := by
  have h := packLS_eq_or (op := 0x30) (b := 0) (s := b) rd.isLt (by decide) (Nat.lt_succ_of_le ho) h1 hw
  rw [at32_zero, BitVec.or_zero] at h
  exact h

theorem word_of_stb (ra : RegNum) (b : Slot) (ho : off ≤ 255) (h1 : 1 ≤ w) (hw : w ≤ 32) :
    encode (.stb ra b off w) = 0x31000000 ||| at32 ra 16 ||| at32 b 14 ||| at32 (w - 1) 8 ||| at32 off 0 := by
  have h := packLS_eq_or (op := 0x31) (a := 0) (s := b) (by decide) ra.isLt (Nat.lt_succ_of_le ho) h1 hw
  rw [at32_zero, BitVec.or_zero] at h
  exact h

/-! ## The outcomes of the two commands (R160 to R162) -/

theorem inRange_false_iff : s.inRange b off w = false ↔ s.plenAt b < off + w := by
  rw [← Bool.not_eq_true, inRange_iff, Nat.not_le]

theorem exec_ldb_inRange (rd : RegNum) (h : off + w ≤ s.plenAt b) :
    exec (.ldb rd b off w) s = .next (s.setX rd (loadValue (s.memRead b off w))).done.settled :=
  if_pos (inRange_iff.2 h)

theorem exec_ldb_outOfRange (rd : RegNum) (h : s.plenAt b < off + w) :
    exec (.ldb rd b off w) s = .next (s.failed .boundsError).settled := by
  rw [← raise_accept (.ldb rd b off w)]
  exact if_neg (by rw [inRange_false_iff.2 h]; decide)

theorem exec_stb_fits (h : off + w ≤ s.plenAt b) (hv : (s.getX r).toNat < 2 ^ (8 * w)) :
    exec (.stb r b off w) s = .next (s.memWrite b off (be (s.getX r).toNat w)).done.settled := by
  rw [← finish_memWrite_accept (.stb r b off w)]
  exact (if_pos (inRange_iff.2 h)).trans (if_neg (Nat.not_le.2 hv))

theorem exec_stb_tooLarge (h : off + w ≤ s.plenAt b) (hv : 2 ^ (8 * w) ≤ (s.getX r).toNat) :
    exec (.stb r b off w) s = .next (s.failed .rangeError).settled := by
  rw [← raise_accept (.stb r b off w)]
  exact (if_pos (inRange_iff.2 h)).trans (if_pos hv)

theorem exec_stb_outOfRange (r : RegNum) (h : s.plenAt b < off + w) :
    exec (.stb r b off w) s = .next (s.failed .boundsError).settled := by
  rw [← raise_accept (.stb r b off w)]
  exact if_neg (by rw [inRange_false_iff.2 h]; decide)

/-! ## The number a load gives (R161) -/

theorem intBE_memRead_lt (s : State) (b : Slot) (off w : Nat) : intBE (s.memRead b off w) < 2 ^ (8 * w) := by
  simpa [Nat.pow_mul] using intBE_lt (s.memRead b off w)

/-- Up to 32 bytes fill no more than the register. -/
theorem loadValue_memRead_toNat (s : State) (b : Slot) (off : Nat) (hw : w ≤ 32) :
    (loadValue (s.memRead b off w)).toNat = intBE (s.memRead b off w) := by
  have hlt := intBE_memRead_lt s b off w
  have hle : 2 ^ (8 * w) ≤ 2 ^ 256 := Nat.pow_le_pow_right (by decide) (by omega)
  rw [loadValue, BitVec.toNat_ofNat, Nat.mod_eq_of_lt (hlt.trans_le hle)]

end

/-- Settles O31: the number of the bytes has `8w` bits, so the register holds it whole. -/
theorem ldbLoadsBigEndian : Obligations.LdbLoadsBigEndian := by
  intro rd b off w s ho h1 hw
  refine ⟨word_of_ldb rd b ho h1 hw, fun hin => ?_, fun hout => ⟨_, exec_ldb_outOfRange rd hout, settled_shown _⟩⟩
  have hv := loadValue_memRead_toNat s b off hw
  exact ⟨_, _, exec_ldb_inRange rd hin, settled_shown _, hv, hv ▸ intBE_memRead_lt s b off w⟩

/-- Settles O32: one outcome after the other, in the order of the rule's tests. -/
theorem stbStoresBigEndian : Obligations.StbStoresBigEndian := by
  intro ra b off w s ho h1 hw
  exact ⟨word_of_stb ra b ho h1 hw,
    fun hin hv => ⟨_, exec_stb_fits hin hv, settled_shown _⟩,
    fun hin hv => ⟨_, exec_stb_tooLarge hin hv, settled_shown _⟩,
    fun hout => ⟨_, exec_stb_outOfRange ra hout, settled_shown _⟩⟩

/-! ## The round trips (R162) -/

section

variable {b : Slot} {off w : Nat} {s : State}

/-- Writing the byte that is there changes nothing: the canonical form lists it or not, as before. -/
theorem Memory.write_read (a : Nat) : ∀ m : Memory, Memory.wf m = true → Memory.write m a (Memory.read m a) = m
  | [], _ => rfl
  | (k, c) :: m, hm => by
    have hm' := hm
    simp only [Memory.wf, Bool.and_eq_true, bne_iff_ne, ne_eq] at hm'
    obtain ⟨hc, hab⟩ := hm'
    unfold Memory.write
    split
    next hlt =>
      have habove : Memory.above a ((k, c) :: m) = true := by simp [Memory.above, hlt, hc, hab]
      rw [Memory.read_of_above (Nat.le_refl a) _ habove, Memory.push, if_pos rfl]
    next =>
      split
      next heq => subst heq; simp [Memory.read, Memory.push, hc]
      next hne =>
        rw [Memory.read, if_neg hne, Memory.write_read a m (Memory.wf_of_above m hab)]

theorem setBufByte_bufByte (b : Slot) (o : Nat) (h : Memory.wf s.buf = true) :
    s.setBufByte b o (s.bufByte b o) = s := by
  rw [State.setBufByte, State.bufByte, Memory.write_read _ _ h]

theorem memRead_succ (s : State) (b : Slot) (o w : Nat) :
    s.memRead b o (w + 1) = s.bufByte b o :: s.memRead b (o + 1) w := by
  simp [State.memRead, List.range_succ_eq_map, Function.comp_def, Nat.add_right_comm, Nat.add_assoc]

/-- What `MemRead` gave, `MemWrite` puts back. -/
theorem memWrite_memRead (b : Slot) (h : Memory.wf s.buf = true) :
    ∀ w o : Nat, s.memWrite b o (s.memRead b o w) = s
  | 0, _ => rfl
  | w + 1, o => by
    rw [memRead_succ, State.memWrite, setBufByte_bufByte b o h]
    exact memWrite_memRead b h w (o + 1)

/-! ### What the end of a command leaves to the next load or store -/

@[simp] theorem plenAt_memWrite (b c : Slot) (o : Nat) (bytes : List Byte) (s : State) :
    (s.memWrite b o bytes).plenAt c = s.plenAt c := by rw [memWrite_eq_buf]; rfl

@[simp] theorem plenAt_done_settled (s : State) (b : Slot) : s.done.settled.plenAt b = s.plenAt b := rfl

@[simp] theorem memRead_done_settled (s : State) (b : Slot) (o w : Nat) :
    s.done.settled.memRead b o w = s.memRead b o w := rfl

@[simp] theorem getX_done_settled (s : State) (i : RegNum) : s.done.settled.getX i = s.getX i := rfl

/-- A load of the bytes of a number that fits gives the number. -/
theorem loadValue_be {v : Word} (h : v.toNat < 2 ^ (8 * w)) : loadValue (be v.toNat w) = v := by
  rw [loadValue, intBE_be w _ (by simpa [Nat.pow_mul] using h), BitVec.ofNat_toNat, BitVec.setWidth_eq]

/-- A store of the number of the bytes that are there puts these bytes. -/
theorem be_loadValue_memRead (s : State) (b : Slot) (off : Nat) (hw : w ≤ 32) :
    be (loadValue (s.memRead b off w)).toNat w = s.memRead b off w := by
  rw [loadValue_memRead_toNat s b off hw]
  simpa using be_intBE (s.memRead b off w)

/-- A store that fits, then a load of the same place. -/
theorem load_after_store (ra rd : RegNum) (hwf : Memory.wf s.buf = true) (hin : off + w ≤ s.plenAt b)
    (hv : (s.getX ra).toNat < 2 ^ (8 * w)) :
    ∃ t u, exec (.stb ra b off w) s = .next t ∧ exec (.ldb rd b off w) t = .next u ∧
      u.getX rd = s.getX ra ∧ u.err = false := by
  have hread : (s.memWrite b off (be (s.getX ra).toNat w)).memRead b off w = be (s.getX ra).toNat w := by
    simpa using memRead_memWrite b (be (s.getX ra).toNat w) off hwf
  refine ⟨_, _, exec_stb_fits hin hv, exec_ldb_inRange rd (by simpa using hin), ?_, rfl⟩
  rw [getX_done_settled, getX_setX_self, memRead_done_settled, hread, loadValue_be hv]

/-- A load, then a store of the same register to the same place. -/
theorem store_after_load (rd : RegNum) (hwf : Memory.wf s.buf = true) (hw : w ≤ 32) (hin : off + w ≤ s.plenAt b) :
    ∃ t u, exec (.ldb rd b off w) s = .next t ∧ exec (.stb rd b off w) t = .next u ∧ u.buf = s.buf ∧
      u.err = false := by
  have hfits : (loadValue (s.memRead b off w)).toNat < 2 ^ (8 * w) := by
    rw [loadValue_memRead_toNat s b off hw]
    exact intBE_memRead_lt s b off w
  refine ⟨_, _, exec_ldb_inRange rd hin, exec_stb_fits hin (by simpa using hfits), ?_, rfl⟩
  rw [getX_done_settled, getX_setX_self, be_loadValue_memRead s b off hw]
  have hback (v : Word) := congrArg State.buf (memWrite_memRead b (s := (s.setX rd v).done.settled) hwf w off)
  exact hback _

end

/-- Settles O34: `intBE` and `be` undo each other, and so do `MemRead` and `MemWrite`. -/
theorem storeThenLoadAndBack : Obligations.StoreThenLoadAndBack := by
  intro ra rd b off w s hwf _ hw hin
  exact ⟨load_after_store ra rd hwf hin, store_after_load rd hwf hw hin⟩

/-! ## The frame of the buffers -/

section

variable {i : Instr} {s t u : State}

/-- Of the state, the keys a command may store to depend on `PLEN` only. -/
theorem destKeys_congr (h : t.plen = s.plen) (i : Instr) : destKeys t i = destKeys s i := by
  have hlen : t.plenAt = s.plenAt := by unfold State.plenAt; rw [h]
  cases i with
  | rxf _ | recvcall => simp only [destKeys, hlen]
  | _ => rfl

/-- Only `RXF` and `RECVCALL` receive a portion's payload (43_frame.md R175, 44_ack_sequencer.md R195). -/
theorem placeOf_payload_slot {c : Slot} (hp : placeOf i .payload (.slot c) = true) : i = .rxf c ∨ i = .recvcall := by
  cases i with
  | rxf b =>
    have hbc : c = b := by simpa [placeOf, phaseOf] using hp
    exact .inl (by rw [hbc])
  | recvcall => exact .inr rfl
  | rxid => simp [placeOf, phaseOf] at hp
  | _ => cases hp

theorem mem_slots : ∀ c : Slot, c ∈ ([0, 1, 2, 3] : List Slot) := by decide

/-- A payload byte goes to a place the command names. -/
theorem payload_key_mem {c : Slot} {j : Nat} (hp : placeOf i .payload (.slot c) = true) (hj : j < s.plenAt c) :
    bufKey c j ∈ destKeys s i := by
  have hmem : bufKey c j ∈ (List.range (s.plenAt c)).map (bufKey c) := List.mem_map_of_mem (List.mem_range.2 hj)
  rcases placeOf_payload_slot hp with rfl | rfl
  · exact hmem
  · exact List.mem_flatten_of_mem (List.mem_map_of_mem (mem_slots c)) hmem

/-- From `s` to `t`, the command `i` stores to its own bytes only; `PLEN`, which names them, stays. -/
structure StoresOwn (i : Instr) (s t : State) : Prop where
  plen : t.plen = s.plen
  read : ∀ k, k ∉ destKeys s i → Memory.read t.buf k = Memory.read s.buf k

theorem StoresOwn.trans (h : StoresOwn i s t) (k : StoresOwn i t u) : StoresOwn i s u where
  plen := k.plen.trans h.plen
  read a ha := (k.read a (destKeys_congr h.plen i ▸ ha)).trans (h.read a ha)

theorem storesOwn_of_eq (hp : t.plen = s.plen) (hb : t.buf = s.buf) : StoresOwn i s t := ⟨hp, fun _ _ => by rw [hb]⟩

theorem storesOwn_failed (c : Cause) (s : State) : StoresOwn i s (s.failed c).settled := storesOwn_of_eq rfl rfl

/-- The bytes of a number of `w` bytes go to the `w` places that `STB` names. -/
theorem storesOwn_memWrite (ra : RegNum) (b : Slot) (off w v : Nat) (s : State) :
    StoresOwn (.stb ra b off w) s (s.memWrite b off (be v w)) where
  plen := by rw [memWrite_eq_buf]
  read k hk := memWrite_other b k (be v w) off s fun j hj hkey => by
    rw [be_length] at hj
    exact hk (hkey ▸ List.mem_map_of_mem (List.mem_range.2 hj))

theorem exec_stb_storesOwn {ra : RegNum} {b : Slot} {off w : Nat} (h : exec (.stb ra b off w) s = .next t) :
    StoresOwn (.stb ra b off w) s t := by
  rcases Nat.lt_or_ge (s.plenAt b) (off + w) with hout | hin
  · rw [exec_stb_outOfRange ra hout] at h
    cases h; exact storesOwn_failed _ s
  · rcases Nat.lt_or_ge (s.getX ra).toNat (2 ^ (8 * w)) with hv | hv
    · rw [exec_stb_fits hin hv] at h
      cases h
      exact (storesOwn_memWrite ra b off w _ s).trans (storesOwn_of_eq rfl rfl)
    · rw [exec_stb_tooLarge hin hv] at h
      cases h; exact storesOwn_failed _ s

/-- Of the commands that use no channel, only `STB` stores. -/
theorem Direct.storesOwn (h : Direct i s t) (hi : ∀ ra b off w, i ≠ .stb ra b off w) : StoresOwn i s t := by
  cases h with
  | done u hu ht =>
    subst ht
    cases hu with
    | reg _ _ _ _ | point _ _ _ _ | test _ _ _ | equal _ _ _ | sinit => exact storesOwn_of_eq rfl rfl
    | store ra b off w _ _ => exact absurd rfl (hi ra b off w)
  | failed c ht => subst ht; exact storesOwn_failed c s

theorem exec_direct_storesOwn (hi : isChannel i = false) (h : exec i s = .next t) : StoresOwn i s t := by
  cases i with
  | stb ra b off w => exact exec_stb_storesOwn h
  | _ => exact (exec_direct hi h).storesOwn nofun

theorem Came.storesOwn (h : Came s t) : StoresOwn i s t := by
  cases h with
  | raised _ _ ht | finished ht | stays _ _ _ _ ht | enters _ _ _ _ _ ht _ =>
    subst ht; exact storesOwn_of_eq rfl rfl

/-- A payload byte of a portion is stored while `CNT` is below `PLEN`. -/
theorem Took.storesOwn (h : Took s u) (hl : Live i s) : StoresOwn i s u := by
  have hplace := hl.place
  have hcnt := hl.cnt
  cases h with
  | nothing hu | read _ _ hu | wrote _ _ _ hu => subst hu; exact storesOwn_of_eq rfl rfl
  | stored hp r b hu =>
    rw [cntBound_eq hp] at hcnt
    rw [hp] at hplace
    subst hu
    cases hit : s.fsm.item with
    | ident => exact storesOwn_of_eq rfl rfl
    | slot c =>
      rw [hit] at hplace hcnt
      have hkey : bufKey c s.cnt.toNat ∈ destKeys s i := payload_key_mem hplace hcnt
      refine ⟨rfl, fun k hk => Memory.read_write_other b ?_ s.buf⟩
      rintro rfl
      exact hk hkey

/-- What each event keeps while the command `i` is in flight, a whole turn of the block keeps. -/
theorem Live.resume_keeps {P : State → Prop} (took : ∀ s u, Live i s → P s → Took s u → P u)
    (came : ∀ s t, P s → Came s t → P t) (hl : Live i s) (hs : P s) : P (resume s) := by
  suffices h : ((resume s).busy = false ∨ Live i (resume s)) ∧ P (resume s) from h.2
  refine Machine.resume_keeps (P := fun t => (t.busy = false ∨ Live i t) ∧ P t) ?_ ?_ s ⟨.inr hl, hs⟩
  · rintro t u hb ⟨hidle | hl, ht⟩ hu
    · exact absurd hb (by simp [hidle])
    · exact ⟨.inr (hl.took hu), took t u hl ht hu⟩
  · rintro t u hb ⟨hidle | hl, ht⟩ hu
    · exact absurd hb (by simp [hidle])
    · exact ⟨hl.came hu, came t u ht hu⟩

theorem exec_channel_storesOwn (hi : isChannel i = true) (h : exec i s = .next t) : StoresOwn i s t := by
  rcases exec_channel_cases hi h with ⟨_, rfl⟩ | ⟨hl, rfl⟩
  · exact storesOwn_failed _ s
  · have hentry : StoresOwn i s (entry i (accept i s)) := by
      rw [entry_same]; exact storesOwn_of_eq rfl rfl
    exact (live_entry hi hl).resume_keeps (fun _ _ hl hs hu => hs.trans (hu.storesOwn hl))
      (fun _ _ hs ht => hs.trans ht.storesOwn) hentry

end

/-- Settles O55: a command that uses no channel stores by `STB` or not at all; a channel command stores a payload byte
at a time, each to a place of its own. -/
theorem memoryFrame : Obligations.MemoryFrame := by
  intro i s t k h hk
  cases hi : isChannel i with
  | false => exact (exec_direct_storesOwn hi h).read k hk
  | true => exact (exec_channel_storesOwn hi h).read k hk

end Sys2Proof.Machine
end

section
/-! Proofs of 43_frame.md: the link gate (R179, O36), the hold (R181, O13), and the transmission of one frame (R170 to
R172, O37, O38), which is followed byte by byte from its place in the frame. -/

namespace Sys2Proof.Machine

open Sys2Proof

/-! ## The words of the unit's commands (30_encoding.md R92, R93) -/

/-- A word of one slot field. -/
theorem word_of_slot (op : Nat) (b : Slot) : BitVec.ofNat 32 (pack op 0 0 0 b) = at32 op 24 ||| at32 b 0 := by
  have hb : b.val < 2 ^ 12 := b.isLt.trans (by decide)
  simpa using pack_eq_or (op := op) (a := 0) (b := 0) (c := 0) (by decide) (by decide) (by decide) hb

theorem word_of_txf (b : Slot) : encode (.txf b) = 0x40000000 ||| at32 b 0 := word_of_slot 0x40 b

theorem word_of_rxf (b : Slot) : encode (.rxf b) = 0x42000000 ||| at32 b 0 := word_of_slot 0x42 b

/-! ## The link gate (R179) -/

section

variable {i : Instr} {s : State}

theorem exec_channel_failed (hi : isChannel i = true) (h : s.link = .failed) :
    exec i s = .next (s.failed .linkDown).settled := by
  rw [exec_channel s hi, channelCommand_failed i _ h]

theorem exec_channel_opened (hi : isChannel i = true) (h : s.link = .opened) :
    exec i s = .next (resume (entry i (accept i s))) := by
  rw [exec_channel s hi, channelCommand_opened i _ h]

/-- What the gate leaves visible. -/
theorem exec_channel_linkDown (hi : isChannel i = true) (h : s.link = .failed) :
    ∃ t, exec i s = .next t ∧ t.shown = (s.failed .linkDown).shown :=
  ⟨_, exec_channel_failed hi h, settled_shown _⟩

end

/-- Settles O36: the gate comes before the first attempt of each of the eight. -/
theorem linkGate : Obligations.LinkGate := fun _ _ hi hl => exec_channel_linkDown hi hl

/-! ## One attempt, by the answer in store (20_memory.md R69, R70) -/

section

variable {s : State}

theorem receiveByte_byte {b : Byte} {r : List RxAnswer} (c : Cause) (k : Byte → State → State)
    (h : s.rx = .byte b :: r) : receiveByte c k s = .went (k b { s with rx := r }) := by
  rw [receiveByte, chanRead_cons h]

theorem receiveByte_nil (c : Cause) (k : Byte → State → State) (h : s.rx = []) : receiveByte c k s = .holds s := by
  rw [receiveByte, chanRead_nil h]

theorem receiveByte_wouldBlock {r : List RxAnswer} (c : Cause) (k : Byte → State → State)
    (h : s.rx = .wouldBlock :: r) : receiveByte c k s = .holds { s with rx := r } := by
  rw [receiveByte, chanRead_cons h]

/-- The error mapping of a reception (R178). -/
theorem receiveByte_fails {a : RxAnswer} {r : List RxAnswer} (k : Byte → State → State) (ha : a.fails)
    (h : s.rx = a :: r) : receiveByte .framingError k s = .went (raise (frameError a) { s with rx := r }) := by
  rcases ha with rfl | rfl
  · rw [receiveByte, chanRead_cons h]; rfl
  · rw [receiveByte, chanRead_cons h]; rfl

theorem sendByte_accepted {r : List TxAnswer} (b : Byte) (k : State → State) (h : s.tx = .accepted :: r) :
    sendByte b k s = .went (k { s with tx := r, sent := s.sent ++ [b] }) := by
  rw [sendByte, chanWrite_accepted h]

theorem sendByte_nil (b : Byte) (k : State → State) (h : s.tx = []) : sendByte b k s = .holds s := by
  rw [sendByte, chanWrite_nil b h]

theorem sendByte_wouldBlock {r : List TxAnswer} (b : Byte) (k : State → State) (h : s.tx = .wouldBlock :: r) :
    sendByte b k s = .holds { s with tx := r } := by
  rw [sendByte, chanWrite_refused h nofun]

theorem sendByte_fails {a : TxAnswer} {r : List TxAnswer} (b : Byte) (k : State → State) (ha : a.fails)
    (h : s.tx = a :: r) : sendByte b k s = .went (raise .transportError { s with tx := r }) := by
  rcases ha with rfl | rfl
  · rw [sendByte, chanWrite_refused h nofun]
  · rw [sendByte, chanWrite_refused h nofun]

/-! ## The hold (R181) -/

theorem blockEvent_of_receiving (h : s.fsm.phase ∈ receiving) : ∃ c k, blockEvent s = receiveByte c k s := by
  cases hp : s.fsm.phase with
  | hunt | payload | stop | ackRx => exact ⟨_, _, by rw [blockEvent, hp]⟩
  | idle | txStart | txPayload | txStop | ackTx | pace => rw [hp] at h; exact absurd h (by decide)

theorem blockEvent_of_sending (h : s.fsm.phase ∈ sending) : ∃ b k, blockEvent s = sendByte b k s := by
  cases hp : s.fsm.phase with
  | txStart | txPayload | txStop | ackTx => exact ⟨_, _, by rw [blockEvent, hp]⟩
  | idle | hunt | payload | stop | ackRx | pace => rw [hp] at h; exact absurd h (by decide)

/-- A host with nothing to do leaves the turn to the block. -/
theorem step_of_host_nil (h : s.host = []) : step s = .next (resume s) := by
  rw [step, h]

/-- A step of a waiting block that is answered by a hold. -/
theorem step_of_holds {t : State} (hh : s.host = []) (hb : s.busy = true) (he : blockEvent s = .holds t) :
    step s = .next t := by
  rw [step_of_host_nil hh, resume_holds hb he]

end

/-- Settles O13: an attempt that is answered by a hold does nothing else. -/
theorem holdChangesNothing : Obligations.HoldChangesNothing := by
  intro s hh hb
  refine ⟨fun hp hr => ?_, fun hp r hr => ?_, fun hp hr => ?_, fun hp r hr => ?_⟩
  · obtain ⟨c, k, he⟩ := blockEvent_of_receiving hp
    exact step_of_holds hh hb (he.trans (receiveByte_nil c k hr))
  · obtain ⟨c, k, he⟩ := blockEvent_of_receiving hp
    exact step_of_holds hh hb (he.trans (receiveByte_wouldBlock c k hr))
  · obtain ⟨b, k, he⟩ := blockEvent_of_sending hp
    exact step_of_holds hh hb (he.trans (sendByte_nil b k hr))
  · obtain ⟨b, k, he⟩ := blockEvent_of_sending hp
    exact step_of_holds hh hb (he.trans (sendByte_wouldBlock b k hr))

/-! ## The transmission of a frame (R170) -/

/-- The payload of an item's frame. -/
def State.itemBytes (s : State) (it : Item) : List Byte := (List.range (s.itemLen it)).map (s.itemByte it)

@[simp] theorem itemBytes_length (s : State) (it : Item) : (s.itemBytes it).length = s.itemLen it := by
  simp [State.itemBytes]

@[simp] theorem itemBytes_slot (s : State) (b : Slot) : s.itemBytes (.slot b) = s.portion b := by
  simp [State.itemBytes, State.portion, State.memRead, State.itemLen, State.itemByte]

@[simp] theorem itemBytes_ident (s : State) : s.itemBytes .ident = s.identBytes := by
  rw [identBytes_eq]; rfl

theorem itemLen_le (s : State) (it : Item) : s.itemLen it ≤ 255 := by
  cases it with
  | ident => show 4 ≤ 255; decide
  | slot b => exact plenAt_le s b

@[simp] theorem frame_length (p : List Byte) : (frame p).length = p.length + 8 := by
  simp [frame]

/-- The phase that sends byte `n` of a frame with `len` payload bytes, and the bytes of that phase done before it. -/
def sendPlace (len n : Nat) : Phase × Nat :=
  if n < 4 then (.txStart, n) else if n < 4 + len then (.txPayload, n - 4) else (.txStop, n - 4 - len)

/-- Byte `n` of the frame of an item is the next to send. -/
def State.sendingAt (s : State) (it : Item) (n : Nat) : State :=
  { s with fsm := ⟨(sendPlace (s.itemLen it) n).1, it⟩, cnt := BitVec.ofNat 9 (sendPlace (s.itemLen it) n).2 }

section

variable {s : State} {it : Item} {n : Nat}

theorem enterSend_eq_sendingAt (it : Item) (s : State) : enterSend it s = s.sendingAt it 0 := rfl

theorem frame_at_start (p : List Byte) (h : n < 4) : (frame p)[n]? = some Config.startByte := by
  match n, h with
  | 0, _ | 1, _ | 2, _ | 3, _ => rfl

theorem frame_at_payload (p : List Byte) (h : 4 ≤ n) (h' : n < 4 + p.length) : (frame p)[n]? = p[n - 4]? := by
  have h1 : [0x55, 0x55, 0x55, (0x55 : Byte)].length ≤ n := h
  rw [frame, List.append_assoc, List.getElem?_append_right h1, List.getElem?_append_left (by simp; omega)]
  rfl

theorem frame_at_stop (p : List Byte) (h : 4 + p.length ≤ n) (h' : n < p.length + 8) :
    (frame p)[n]? = some Config.stopByte := by
  rw [frame, List.getElem?_append_right (by simp; omega)]
  have hlt : n - ([0x55, 0x55, 0x55, (0x55 : Byte)] ++ p).length < 4 := by simp; omega
  match n - ([0x55, 0x55, 0x55, (0x55 : Byte)] ++ p).length, hlt with
  | 0, _ | 1, _ | 2, _ | 3, _ => rfl

theorem sendPlace_start (len : Nat) (h : n < 4) : sendPlace len n = (.txStart, n) := if_pos h

theorem sendPlace_payload {len : Nat} (h : 4 ≤ n) (h' : n < 4 + len) : sendPlace len n = (.txPayload, n - 4) :=
  (if_neg (by omega)).trans (if_pos h')

theorem sendPlace_stop {len : Nat} (h : 4 + len ≤ n) : sendPlace len n = (.txStop, n - 4 - len) :=
  (if_neg (by omega)).trans (if_neg (by omega))

theorem sendingAt_of_place {p : Phase} {c : Nat} (h : sendPlace (s.itemLen it) n = (p, c)) :
    s.sendingAt it n = { s with fsm := ⟨p, it⟩, cnt := BitVec.ofNat 9 c } := by
  rw [State.sendingAt, h]

/-- `CNT` counts up to the end of a marker or of the longest payload without wrapping around. -/
theorem countByte_of_cnt {c len : Nat} (f : State → State) (hc : s.cnt = BitVec.ofNat 9 c) (hlt : c < 256) :
    countByte len f s = if len ≤ c + 1 then f s else { s with cnt := BitVec.ofNat 9 (c + 1) } := by
  have hnat : s.cnt.toNat = c := by rw [hc, BitVec.toNat_ofNat]; omega
  have hsucc : s.cnt + 1 = BitVec.ofNat 9 (c + 1) := by rw [hc, BitVec.ofNat_add]; rfl
  rw [countByte, hnat, hsucc]

theorem startByte_sent (it : Item) (s : State) (h : n < 4) :
    countByte Config.markerLen enterTxPayload (s.sendingAt it n) = s.sendingAt it (n + 1) := by
  rw [sendingAt_of_place (sendPlace_start _ h), countByte_of_cnt _ rfl (by omega)]
  split
  next hlast =>
    have h4 : n + 1 = 4 := by simp only [Config.markerLen] at hlast; omega
    unfold enterTxPayload
    split
    next h0 =>
      have h0 : s.itemLen it = 0 := h0
      rw [sendingAt_of_place (sendPlace_stop (by omega)), h4, h0]; rfl
    next hpos =>
      have hpos : ¬ s.itemLen it = 0 := hpos
      rw [sendingAt_of_place (sendPlace_payload (by omega) (by omega)), h4]; rfl
  next hmore =>
    have h4 : n + 1 < 4 := by simp only [Config.markerLen] at hmore; omega
    rw [sendingAt_of_place (sendPlace_start _ h4)]

theorem payloadByte_sent (h : 4 ≤ n) (h' : n < 4 + s.itemLen it) :
    countByte (s.itemLen it) enterTxStop (s.sendingAt it n) = s.sendingAt it (n + 1) := by
  have hle := itemLen_le s it
  rw [sendingAt_of_place (sendPlace_payload h h'), countByte_of_cnt _ rfl (by omega)]
  split
  next hlast =>
    rw [sendingAt_of_place (sendPlace_stop (by omega)), show n + 1 - 4 - s.itemLen it = 0 by omega]; rfl
  next hmore =>
    rw [sendingAt_of_place (sendPlace_payload (by omega) (by omega)), show n + 1 - 4 = n - 4 + 1 by omega]

theorem stopByte_sent (h : 4 + s.itemLen it ≤ n) (h' : n < s.itemLen it + 8) :
    countByte Config.markerLen afterFrameSent (s.sendingAt it n) =
      if n + 1 < s.itemLen it + 8 then s.sendingAt it (n + 1) else afterFrameSent (s.sendingAt it (n + 1)) := by
  rw [sendingAt_of_place (sendPlace_stop h), sendingAt_of_place (sendPlace_stop (n := n + 1) (by omega)),
    countByte_of_cnt _ rfl (by omega), show n + 1 - 4 - s.itemLen it = n - 4 - s.itemLen it + 1 by omega]
  by_cases hmore : n + 1 < s.itemLen it + 8
  · rw [if_pos hmore, if_neg (by simp only [Config.markerLen]; omega)]
  · rw [if_neg hmore, if_pos (by simp only [Config.markerLen]; omega)]
    rfl

/-- The attempt at byte `n` of a frame: the byte offered, and the place after it. -/
theorem blockEvent_sendingAt (it : Item) (s : State) (h : n < s.itemLen it + 8) :
    ∃ b k, blockEvent (s.sendingAt it n) = sendByte b k (s.sendingAt it n) ∧
      (frame (s.itemBytes it))[n]? = some b ∧
      ∀ t : State, t.itemLen it = s.itemLen it → k (t.sendingAt it n) =
        if n + 1 < s.itemLen it + 8 then t.sendingAt it (n + 1) else afterFrameSent (t.sendingAt it (n + 1)) := by
  rcases Nat.lt_or_ge n 4 with h4 | h4
  · refine ⟨_, countByte Config.markerLen enterTxPayload, ?_, frame_at_start _ h4, fun t _ => ?_⟩
    · rw [sendingAt_of_place (sendPlace_start _ h4)]; rfl
    · rw [startByte_sent it t h4, if_pos (by omega)]
  · rcases Nat.lt_or_ge n (4 + s.itemLen it) with hp | hp
    · have hle := itemLen_le s it
      refine ⟨s.itemByte it (n - 4), countByte (s.itemLen it) enterTxStop, ?_, ?_, fun t ht => ?_⟩
      · have hcnt : (BitVec.ofNat 9 (n - 4)).toNat = n - 4 := by rw [BitVec.toNat_ofNat]; omega
        rw [sendingAt_of_place (sendPlace_payload h4 hp)]
        exact congrArg (fun m => sendByte (s.itemByte it m) (countByte (s.itemLen it) enterTxStop) _) hcnt
      · rw [frame_at_payload _ h4 (by simpa using hp), State.itemBytes, List.getElem?_map,
          List.getElem?_range (by omega)]
        rfl
      · rw [← ht, payloadByte_sent h4 (by omega), if_pos (by omega)]
    · refine ⟨_, countByte Config.markerLen afterFrameSent, ?_, frame_at_stop _ (by simpa using hp) (by simpa using h),
        fun t ht => ?_⟩
      · rw [sendingAt_of_place (sendPlace_stop hp)]; rfl
      · rw [← ht, stopByte_sent (by omega) (by omega)]

/-- The port has accepted the bytes `w`, with the answers `r` left in store. -/
def State.wrote (s : State) (w : List Byte) (r : List TxAnswer) : State := { s with tx := r, sent := s.sent ++ w }

theorem wrote_nil {r : List TxAnswer} (h : s.tx = r) : s.wrote [] r = s := by
  rw [State.wrote, List.append_nil, ← h]

theorem wrote_wrote (s : State) (v w : List Byte) (q r : List TxAnswer) :
    (s.wrote v q).wrote w r = s.wrote (v ++ w) r := by
  simp only [State.wrote, List.append_assoc]

/-- An attempt to send that is accepted leaves the rest of the turn to what follows. -/
theorem resume_accepted {b : Byte} {k : State → State} {r : List TxAnswer} (hb : s.busy = true)
    (he : blockEvent s = sendByte b k s) (htx : s.tx = .accepted :: r) : resume s = resume (k (s.wrote [b] r)) :=
  resume_went hb (he.trans (sendByte_accepted b k htx))

/-- An attempt to send that fails ends the command. -/
theorem resume_refused {b : Byte} {k : State → State} {a : TxAnswer} {r : List TxAnswer} (hb : s.busy = true)
    (he : blockEvent s = sendByte b k s) (ha : a.fails) (htx : s.tx = a :: r) :
    resume s = raise .transportError { s with tx := r } :=
  (resume_went hb (he.trans (sendByte_fails b k ha htx))).trans (resume_idle rfl)

/-- Byte `n` of a frame is accepted. -/
theorem resume_sendingAt_accepted {r : List TxAnswer} (it : Item) (hb : s.busy = true) (hn : n < s.itemLen it + 8)
    (htx : s.tx = .accepted :: r) :
    ∃ b, (frame (s.itemBytes it))[n]? = some b ∧
      resume (s.sendingAt it n) = resume
        (if n + 1 < s.itemLen it + 8 then (s.wrote [b] r).sendingAt it (n + 1)
          else afterFrameSent ((s.wrote [b] r).sendingAt it (n + 1))) := by
  obtain ⟨b, k, he, hbyte, hk⟩ := blockEvent_sendingAt it s hn
  exact ⟨b, hbyte, (resume_accepted (s := s.sendingAt it n) hb he htx).trans
    (congrArg resume (hk (s.wrote [b] r) rfl))⟩

theorem accepts_succ_append (n : Nat) (r : List TxAnswer) : accepts (n + 1) ++ r = accepts n ++ .accepted :: r := by
  rw [accepts, List.replicate_succ', List.append_assoc]; rfl

/-- The bytes of a frame that the channel accepts go out in order (R170). -/
theorem resume_sends (it : Item) (hb : s.busy = true) :
    ∀ (n : Nat) (r : List TxAnswer), n < s.itemLen it + 8 → s.tx = accepts n ++ r →
      resume (enterSend it s) = resume ((s.wrote ((frame (s.itemBytes it)).take n) r).sendingAt it n)
  | 0, r, _, htx => by
    rw [List.take_zero, wrote_nil (r := r) htx, enterSend_eq_sendingAt]
  | n + 1, r, hn, htx => by
    obtain ⟨b, hbyte, h⟩ := resume_sendingAt_accepted (r := r)
      (s := s.wrote ((frame (s.itemBytes it)).take n) (.accepted :: r)) it hb (Nat.lt_of_succ_lt hn) rfl
    have hbyte : (frame (s.itemBytes it))[n]? = some b := hbyte
    rw [resume_sends it hb n _ (by omega) (htx.trans (accepts_succ_append n r)), h, List.take_add_one, hbyte,
      wrote_wrote]
    exact congrArg resume (if_pos hn)

/-- The whole frame is accepted: what comes after it. -/
theorem resume_sends_all {r : List TxAnswer} (it : Item) (hb : s.busy = true)
    (htx : s.tx = accepts (s.itemLen it + 8) ++ r) :
    resume (enterSend it s) = resume (afterFrameSent
      ((s.wrote (frame (s.itemBytes it)) r).sendingAt it (s.itemLen it + 8))) := by
  obtain ⟨b, hbyte, h⟩ := resume_sendingAt_accepted (r := r) (n := s.itemLen it + 7)
    (s := s.wrote ((frame (s.itemBytes it)).take (s.itemLen it + 7)) (.accepted :: r)) it hb (Nat.lt_succ_self _) rfl
  have hbyte : (frame (s.itemBytes it))[s.itemLen it + 7]? = some b := hbyte
  have hwhole : (frame (s.itemBytes it)).take (s.itemLen it + 7) ++ [b] = frame (s.itemBytes it) := by
    have hsucc := List.take_add_one (l := frame (s.itemBytes it)) (i := s.itemLen it + 7)
    rw [hbyte, List.take_of_length_le (by simp)] at hsucc
    exact hsucc.symm
  rw [resume_sends it hb (s.itemLen it + 7) _ (by omega) (htx.trans (accepts_succ_append _ r)), h, wrote_wrote, hwhole]
  exact congrArg resume (if_neg (Nat.lt_irrefl _))

/-- The attempt after `n` accepted bytes fails. -/
theorem resume_sends_cut {a : TxAnswer} {r : List TxAnswer} (it : Item) (hb : s.busy = true)
    (hn : n < s.itemLen it + 8) (ha : a.fails) (htx : s.tx = accepts n ++ a :: r) :
    resume (enterSend it s) =
      raise .transportError ((s.wrote ((frame (s.itemBytes it)).take n) r).sendingAt it n) := by
  obtain ⟨b, k, he, -, -⟩ := blockEvent_sendingAt it (s.wrote ((frame (s.itemBytes it)).take n) (a :: r)) hn
  rw [resume_sends it hb n _ hn htx]
  exact resume_refused hb he ha rfl

end

/-! ## The two commands that send one frame (R171, R172) -/

/-- The command sends one frame, of the item's payload. -/
inductive SendsFrame : Instr → Item → Prop
  | txf (b : Slot) : SendsFrame (.txf b) (.slot b)
  | txid : SendsFrame .txid .ident

section

variable {i : Instr} {it : Item} {s : State}

theorem SendsFrame.channel (h : SendsFrame i it) : isChannel i = true := by cases h <;> rfl

theorem exec_of_sendsFrame (h : SendsFrame i it) (hl : s.link = .opened) :
    exec i s = .next (resume (enterSend it (accept i s))) := by
  rw [exec_channel_opened h.channel hl]
  cases h <;> rfl

theorem afterFrameSent_of_sendsFrame (h : SendsFrame i it) (hs : s.inflight = some i) :
    afterFrameSent s = finish s := by
  have hne : s.inflight ≠ some .sendcall := by rw [hs]; cases h <;> nofun
  exact if_neg hne

theorem exec_sends_all {r : List TxAnswer} (h : SendsFrame i it) (hl : s.link = .opened)
    (htx : s.tx = accepts (s.itemLen it + 8) ++ r) :
    exec i s = .next (s.wrote (frame (s.itemBytes it)) r).done.settled := by
  rw [exec_of_sendsFrame h hl, resume_sends_all (s := accept i s) it rfl htx, afterFrameSent_of_sendsFrame h rfl,
    resume_idle rfl]
  rfl

theorem exec_sends_cut {n : Nat} {a : TxAnswer} {r : List TxAnswer} (h : SendsFrame i it) (hl : s.link = .opened)
    (hn : n < s.itemLen it + 8) (ha : a.fails) (htx : s.tx = accepts n ++ a :: r) :
    exec i s = .next ((s.wrote ((frame (s.itemBytes it)).take n) r).failed .transportError).settled := by
  rw [exec_of_sendsFrame h hl, resume_sends_cut (s := accept i s) it rfl hn ha htx]
  rfl

end

/-- Settles O37: both outcomes are those of sending one frame, whose payload is the portion. -/
theorem txfSendsThePortion : Obligations.TxfSendsThePortion := by
  intro b s
  refine ⟨word_of_txf b, exec_channel_linkDown rfl, fun hl r htx => ⟨_, exec_sends_all (.txf b) hl htx, ?_⟩,
    fun hl n a r hn ha htx => ⟨_, exec_sends_cut (.txf b) hl hn ha htx, ?_⟩⟩
  · rw [settled_shown, itemBytes_slot]; rfl
  · rw [settled_shown, itemBytes_slot]; rfl

/-- Settles O38: the same of the identifier. -/
theorem txidSendsTheIdentifier : Obligations.TxidSendsTheIdentifier := by
  intro s
  refine ⟨rfl, exec_channel_linkDown rfl, fun hl r htx => ⟨_, exec_sends_all .txid hl htx, ?_⟩,
    fun hl n a r hn ha htx => ⟨_, exec_sends_cut .txid hl hn ha htx, ?_⟩⟩
  · rw [settled_shown, itemBytes_ident]; rfl
  · rw [settled_shown, itemBytes_ident]; rfl

end Sys2Proof.Machine
end

section
/-! Proofs of 43_frame.md: the reception of one frame (R173 to R178, O40, O41), the stray bytes before it (R174, O43),
and the round trip (R180, O48). A reception is followed from what has come of it: the bytes of the hunt are what `WIN`
has seen, and after them the bytes of the payload and of the stop marker are counted from the end of the hunt. -/

namespace Sys2Proof.Machine

open Sys2Proof

/-! ## The hunt (R173, R174) -/

/-- The start marker (30_encoding.md R100). -/
def startMarker : List Byte := [0x55, 0x55, 0x55, 0x55]

/-- `WIN`, empty at the start, holds the start marker exactly if the bytes so far end in it. -/
theorem window_eq_marker_iff (h : List Byte) : shiftAll 0 h = 0x55555555 ↔ startMarker <:+ h := by
  have hshort : ∀ q : List Byte, q.length < 4 → ¬ startMarker <:+ q := fun q hq hm =>
    absurd hm.length_le (Nat.not_le.2 hq)
  have hzero : ∀ a b c : Byte, shiftAll 0 [0, a, b, c] ≠ 0x55555555 := fun a b c he => by
    have := (window_is_marker 0 0 a b c).1 he
    simp at this
  rcases Nat.lt_or_ge h.length 4 with hlt | hge
  · refine iff_of_false ?_ (hshort h hlt)
    match h, hlt with
    | [], _ => exact hzero 0 0 0
    | [a], _ => exact hzero 0 0 a
    | [a, b], _ => exact hzero 0 a b
    | [a, b, c], _ => exact hzero a b c
  · obtain ⟨p, q, rfl, hq⟩ : ∃ p q, h = p ++ q ∧ q.length = 4 :=
      ⟨_, _, (List.take_append_drop (h.length - 4) h).symm, by rw [List.length_drop]; omega⟩
    match q, hq with
    | [a, b, c, d], _ =>
      rw [shiftAll_append, window_is_marker]
      constructor
      · intro he; rw [he]; exact List.suffix_append p _
      · intro hm
        exact ((List.suffix_iff_eq_drop.1 hm).trans (by simp [startMarker])).symm

/-- A reception whose hunt has taken the bytes `h`. -/
def State.hunting (s : State) (it : Item) (h : List Byte) : State :=
  { enterReceive it s with win := shiftAll 0 h }

/-- No beginning of these bytes ends the hunt. -/
def HuntGoesOn (h : List Byte) : Prop := ∀ p, p <+: h → ¬ startMarker <:+ p

theorem HuntGoesOn.shorter {p h : List Byte} (hp : p <+: h) (hh : HuntGoesOn h) : HuntGoesOn p :=
  fun _ hq => hh _ (hq.trans hp)

theorem huntGoesOn_of_not_infix {h : List Byte} (hn : ¬ startMarker <:+: h) : HuntGoesOn h :=
  fun _ hp hm => hn (hm.isInfix.trans hp.isInfix)

/-- All but the last of the bytes that end a hunt. -/
theorem endsHunt_dest {h : List Byte} (hh : endsHunt h) :
    ∃ q b, h = q ++ [b] ∧ HuntGoesOn q ∧ startMarker <:+ q ++ [b] := by
  obtain ⟨hm, hfirst⟩ := hh
  rcases List.eq_nil_or_concat' h with rfl | ⟨q, b, rfl⟩
  · exact absurd hm (by decide)
  · refine ⟨q, b, rfl, fun p hp hpm => ?_, hm⟩
    have hlen := congrArg List.length (hfirst p (hp.trans (List.prefix_append q [b])) hpm)
    have hle := hp.length_le
    rw [List.length_append, List.length_singleton] at hlen
    omega

section

variable {s : State} {it : Item}

theorem arrives_append (p q : List Byte) : arrives (p ++ q) = arrives p ++ arrives q := List.map_append

theorem arrives_snoc_append (p : List Byte) (b : Byte) (r : List RxAnswer) :
    arrives (p ++ [b]) ++ r = arrives p ++ .byte b :: r := by
  rw [arrives_append, List.append_assoc]; rfl

/-- An attempt to receive that gets a byte leaves the rest of the turn to what follows. -/
theorem resume_byte {c : Cause} {k : Byte → State → State} {b : Byte} {r : List RxAnswer} (hb : s.busy = true)
    (he : blockEvent s = receiveByte c k s) (hrx : s.rx = .byte b :: r) : resume s = resume (k b { s with rx := r }) :=
  resume_went hb (he.trans (receiveByte_byte c k hrx))

/-- An attempt of a reception that fails ends the command (R178). -/
theorem resume_receive_fails {k : Byte → State → State} {a : RxAnswer} {r : List RxAnswer} (hb : s.busy = true)
    (he : blockEvent s = receiveByte .framingError k s) (ha : a.fails) (hrx : s.rx = a :: r) :
    resume s = raise (frameError a) { s with rx := r } :=
  (resume_went hb (he.trans (receiveByte_fails k ha hrx))).trans (resume_idle rfl)

theorem blockEvent_hunting (s : State) (it : Item) (h : List Byte) :
    blockEvent (s.hunting it h) = receiveByte .framingError huntByte (s.hunting it h) := rfl

theorem huntByte_hunting (s : State) (it : Item) (h : List Byte) (b : Byte) : huntByte b (s.hunting it h) =
    if startMarker <:+ h ++ [b] then enterPayload (s.hunting it (h ++ [b])) else s.hunting it (h ++ [b]) := by
  have hwin : shiftIn (shiftAll 0 h) b = shiftAll 0 (h ++ [b]) := (shiftAll_append 0 h [b]).symm
  have ht : { s.hunting it h with win := shiftIn (s.hunting it h).win b } = s.hunting it (h ++ [b]) := by
    rw [State.hunting, State.hunting, ← hwin]
  unfold huntByte
  simp only [ht]
  exact if_congr ((iff_of_eq (congrArg (· = (0x55555555 : Word32)) hwin)).trans (window_eq_marker_iff _)) rfl rfl

/-- Bytes that do not end the hunt are skipped. -/
theorem resume_hunts (it : Item) (hb : s.busy = true) (h : List Byte) :
    ∀ r : List RxAnswer, HuntGoesOn h → s.rx = arrives h ++ r →
      resume (enterReceive it s) = resume (State.hunting { s with rx := r } it h) := by
  induction h using List.reverseRecOn with
  | nil =>
    intro r _ hrx
    have hrx : s.rx = r := hrx
    rw [← hrx]; rfl
  | append_singleton h b ih =>
    intro r hh hrx
    rw [ih (.byte b :: r) (hh.shorter (List.prefix_append h [b])) (hrx.trans (arrives_snoc_append h b r))]
    rw [resume_byte (s := State.hunting { s with rx := .byte b :: r } it h) hb (blockEvent_hunting _ _ _) rfl]
    refine congrArg resume ((huntByte_hunting { s with rx := r } it h b).trans (if_neg ?_))
    exact hh _ (List.prefix_refl _)

/-- The hunt ends. -/
theorem resume_found {r : List RxAnswer} {h : List Byte} (it : Item) (hb : s.busy = true) (hh : endsHunt h)
    (hrx : s.rx = arrives h ++ r) :
    resume (enterReceive it s) = resume (enterPayload (State.hunting { s with rx := r } it h)) := by
  obtain ⟨q, b, rfl, hq, hm⟩ := endsHunt_dest hh
  rw [resume_hunts it hb q (.byte b :: r) hq (hrx.trans (arrives_snoc_append q b r)),
    resume_byte (s := State.hunting { s with rx := .byte b :: r } it q) hb (blockEvent_hunting _ _ _) rfl]
  exact congrArg resume ((huntByte_hunting { s with rx := r } it q b).trans (if_pos hm))

/-- The channel fails in the hunt. -/
theorem resume_hunt_cut {a : RxAnswer} {r : List RxAnswer} {h : List Byte} (it : Item) (hb : s.busy = true)
    (hh : HuntGoesOn h) (ha : a.fails) (hrx : s.rx = arrives h ++ a :: r) :
    resume (enterReceive it s) = raise (frameError a) (State.hunting { s with rx := r } it h) := by
  rw [resume_hunts it hb h (a :: r) hh hrx]
  exact resume_receive_fails (s := State.hunting { s with rx := a :: r } it h) hb (blockEvent_hunting _ _ _) ha rfl

/-! ## The payload and the stop marker (R173, R176) -/

/-- Payload bytes put where they go, from byte `j` on (R175, R177). -/
def State.stored (s : State) (it : Item) : Nat → List Byte → State
  | _, [] => s
  | j, b :: bs => (s.sinkByte it j b).stored it (j + 1) bs

theorem stored_snoc (it : Item) (b : Byte) : ∀ (bs : List Byte) (j : Nat) (s : State),
    s.stored it j (bs ++ [b]) = (s.stored it j bs).sinkByte it (j + bs.length) b
  | [], _, _ => rfl
  | c :: bs, j, s => by
    rw [List.cons_append, State.stored, stored_snoc it b bs, State.stored, List.length_cons,
      show j + 1 + bs.length = j + (bs.length + 1) by omega]

theorem stored_slot (b : Slot) : ∀ (bs : List Byte) (j : Nat) (s : State),
    s.stored (.slot b) j bs = s.memWrite b j bs
  | [], _, _ => rfl
  | c :: bs, j, s => stored_slot b bs (j + 1) (s.setBufByte b j c)

/-- Storing writes `FID` or `BUF` only, and what it writes does not depend on anything else. -/
theorem stored_eq (it : Item) : ∀ (bs : List Byte) (j : Nat) {s u : State}, u.fid = s.fid → u.buf = s.buf →
    u.stored it j bs = { u with fid := (s.stored it j bs).fid, buf := (s.stored it j bs).buf }
  | [], _, s, u, hf, hm => by rw [State.stored, State.stored, ← hf, ← hm]
  | c :: bs, j, s, u, hf, hm => by
    have hsf : (u.sinkByte it j c).fid = (s.sinkByte it j c).fid := by
      cases it with
      | ident => exact congrArg (setByteOf · j c) hf
      | slot b => exact hf
    have hsm : (u.sinkByte it j c).buf = (s.sinkByte it j c).buf := by
      cases it with
      | ident => exact hm
      | slot b => exact congrArg (Memory.write · (bufKey b j) c) hm
    rw [State.stored, stored_eq it bs (j + 1) hsf hsm, State.stored]
    cases it <;> rfl

theorem stored_same (it : Item) (bs : List Byte) (j : Nat) (s : State) :
    s.stored it j bs = { s with fid := (s.stored it j bs).fid, buf := (s.stored it j bs).buf } :=
  stored_eq it bs j rfl rfl

/-- Storing leaves the answers of the channel alone. -/
theorem stored_read (it : Item) (bs : List Byte) (j : Nat) (s : State) (r : List RxAnswer) :
    State.stored { s with rx := r } it j bs = { s.stored it j bs with rx := r } := by
  rw [stored_eq it bs j (u := { s with rx := r }) (s := s) rfl rfl, stored_same it bs j s]

theorem itemLen_read (s : State) (it : Item) (r : List RxAnswer) :
    State.itemLen { s with rx := r } it = s.itemLen it := by cases it <;> rfl

theorem itemLen_stored (it jt : Item) (j : Nat) (bs : List Byte) (s : State) :
    (s.stored jt j bs).itemLen it = s.itemLen it := by
  rw [stored_same jt bs j s]; cases it <;> rfl

/-- The phase that receives byte `n` after the hunt, of `len` payload bytes and the stop marker, and the bytes of that
phase done before it. -/
def receivePlace (len n : Nat) : Phase × Nat := if n < len then (.payload, n) else (.stop, n - len)

theorem receivePlace_payload {len n : Nat} (h : n < len) : receivePlace len n = (.payload, n) := if_pos h

theorem receivePlace_stop {len n : Nat} (h : len ≤ n) : receivePlace len n = (.stop, n - len) :=
  if_neg (Nat.not_lt.2 h)

/-- A reception that has taken the bytes `w` after its hunt: those of the payload are stored, those of the stop marker
staged. -/
def State.received (s : State) (it : Item) (w : List Byte) : State :=
  { s.stored it 0 (w.take (s.itemLen it)) with
    fsm := ⟨(receivePlace (s.itemLen it) w.length).1, it⟩
    cnt := BitVec.ofNat 9 (receivePlace (s.itemLen it) w.length).2
    stg := if w.length < s.itemLen it then s.stg else shiftAll 0 (w.drop (s.itemLen it)) }

theorem received_payload {w : List Byte} (h : w.length < s.itemLen it) :
    s.received it w = { s.stored it 0 w with fsm := ⟨.payload, it⟩, cnt := BitVec.ofNat 9 w.length } := by
  have hstg : (s.stored it 0 w).stg = s.stg := by rw [stored_same]
  rw [State.received, receivePlace_payload h, if_pos h, List.take_of_length_le h.le, ← hstg]

theorem received_stop {w : List Byte} (h : s.itemLen it ≤ w.length) :
    s.received it w = { s.stored it 0 (w.take (s.itemLen it)) with
      fsm := ⟨.stop, it⟩
      cnt := BitVec.ofNat 9 (w.length - s.itemLen it)
      stg := shiftAll 0 (w.drop (s.itemLen it)) } := by
  rw [State.received, receivePlace_stop h, if_neg (Nat.not_lt.2 h)]

/-- Where the hunt ends. -/
theorem enterPayload_eq_received (h : s.fsm.item = it) : enterPayload s = s.received it [] := by
  subst h
  unfold enterPayload
  split
  next h0 => rw [received_stop (by simp [h0]), List.take_nil, List.drop_nil]; simp [h0]; rfl
  next hpos => rw [received_payload (by simpa using Nat.pos_of_ne_zero hpos)]; rfl

theorem enterPayload_hunting (s : State) (it : Item) (h : List Byte) :
    enterPayload (s.hunting it h) = (s.hunting it h).received it [] := enterPayload_eq_received rfl

theorem received_busy (s : State) (it : Item) (w : List Byte) : (s.received it w).busy = s.busy := by
  show (s.stored it 0 _).busy = s.busy
  rw [stored_same]

theorem received_rx (s : State) (it : Item) (w : List Byte) : (s.received it w).rx = s.rx := by
  show (s.stored it 0 _).rx = s.rx
  rw [stored_same]

theorem received_read (s : State) (it : Item) (w : List Byte) (r : List RxAnswer) :
    { s.received it w with rx := r } = State.received { s with rx := r } it w := by
  unfold State.received
  rw [itemLen_read s it r, stored_read it _ 0 s r]

/-- Storing a byte does not move the place. -/
theorem sinkByte_at (p : Phase) (c : BitVec 9) (it : Item) (j : Nat) (b : Byte) :
    State.sinkByte { s with fsm := ⟨p, it⟩, cnt := c } it j b =
      { s.sinkByte it j b with fsm := ⟨p, it⟩, cnt := c } := by
  cases it <;> rfl

theorem payloadByte_received {w : List Byte} (b : Byte) (h : w.length < s.itemLen it) :
    payloadByte b (s.received it w) = s.received it (w ++ [b]) := by
  have hle := itemLen_le s it
  have hcnt : (BitVec.ofNat 9 w.length).toNat = w.length := by rw [BitVec.toNat_ofNat]; omega
  have hlen : (w ++ [b]).length = w.length + 1 := List.length_append
  have hput : (s.stored it 0 w).sinkByte it w.length b = s.stored it 0 (w ++ [b]) := by
    rw [stored_snoc, Nat.zero_add]
  have hitem (p : Phase) (c : BitVec 9) : State.itemLen { s.stored it 0 w with fsm := ⟨p, it⟩, cnt := c } it =
      s.itemLen it := (by cases it <;> rfl : _ = (s.stored it 0 w).itemLen it).trans (itemLen_stored it it 0 w s)
  rw [received_payload h, payloadByte, hitem, hcnt, sinkByte_at, hput, countByte_of_cnt _ rfl (by omega)]
  split
  next hlast =>
    rw [received_stop (by omega), List.take_of_length_le (by omega), List.drop_of_length_le (by omega), hlen,
      show w.length + 1 - s.itemLen it = 0 by omega]
    rfl
  next hmore => rw [received_payload (by omega), hlen]

theorem stopByte_received {w : List Byte} (b : Byte) (h : s.itemLen it ≤ w.length) (h' : w.length < s.itemLen it + 4) :
    stopByte b (s.received it w) =
      if w.length + 1 < s.itemLen it + 4 then s.received it (w ++ [b]) else stopTest (s.received it (w ++ [b])) := by
  have hlen : (w ++ [b]).length = w.length + 1 := List.length_append
  have hstg : shiftAll 0 ((w ++ [b]).drop (s.itemLen it)) = shiftIn (shiftAll 0 (w.drop (s.itemLen it))) b := by
    rw [List.drop_append_of_le_length h, shiftAll_append]; rfl
  rw [received_stop h, received_stop (w := w ++ [b]) (by omega), hstg, List.take_append_of_le_length h, hlen, stopByte,
    countByte_of_cnt (c := w.length - s.itemLen it) _ rfl (by omega),
    show w.length + 1 - s.itemLen it = w.length - s.itemLen it + 1 by omega]
  by_cases hmore : w.length + 1 < s.itemLen it + 4
  · rw [if_pos hmore, if_neg (by simp only [Config.markerLen]; omega)]
  · rw [if_neg hmore, if_pos (by simp only [Config.markerLen]; omega)]
    rfl

/-- The attempt at the byte after `w`: where it is made, and what a byte does. -/
theorem blockEvent_received {w : List Byte} (h : w.length < s.itemLen it + 4) :
    ∃ k, blockEvent (s.received it w) = receiveByte .framingError k (s.received it w) ∧
      ∀ (b : Byte) (t : State), t.itemLen it = s.itemLen it → k b (t.received it w) =
        if w.length + 1 < s.itemLen it + 4 then t.received it (w ++ [b]) else stopTest (t.received it (w ++ [b])) := by
  rcases Nat.lt_or_ge w.length (s.itemLen it) with hp | hp
  · refine ⟨payloadByte, by rw [received_payload hp]; rfl, fun b t ht => ?_⟩
    rw [payloadByte_received b (by omega), if_pos (by omega)]
  · refine ⟨stopByte, by rw [received_stop hp]; rfl, fun b t ht => ?_⟩
    rw [← ht, stopByte_received b (by omega) (by omega)]

/-- One more byte after the hunt. -/
theorem resume_received_byte {w : List Byte} {b : Byte} {r : List RxAnswer} (hb : s.busy = true)
    (h : w.length < s.itemLen it + 4) (hrx : s.rx = .byte b :: r) :
    resume (s.received it w) = resume
      (if w.length + 1 < s.itemLen it + 4 then State.received { s with rx := r } it (w ++ [b])
        else stopTest (State.received { s with rx := r } it (w ++ [b]))) := by
  obtain ⟨k, he, hk⟩ := blockEvent_received h
  rw [resume_byte ((received_busy s it w).trans hb) he ((received_rx s it w).trans hrx), received_read,
    hk b { s with rx := r } (itemLen_read s it r)]

/-- The bytes after the hunt, up to the last but one of the stop marker. -/
theorem resume_receives (hb : s.busy = true) (w : List Byte) :
    ∀ r : List RxAnswer, w.length < s.itemLen it + 4 → s.rx = arrives w ++ r →
      resume (s.received it []) = resume (State.received { s with rx := r } it w) := by
  induction w using List.reverseRecOn with
  | nil =>
    intro r _ hrx
    have hrx : s.rx = r := hrx
    rw [← hrx]
  | append_singleton w b ih =>
    intro r hlt hrx
    rw [List.length_append, List.length_singleton] at hlt
    rw [ih (.byte b :: r) (by omega) (hrx.trans (arrives_snoc_append w b r))]
    exact (resume_received_byte (s := { s with rx := .byte b :: r }) hb (Nat.lt_of_succ_lt hlt) rfl).trans
      (congrArg resume (if_pos hlt))

/-- All the bytes after the hunt: the stop test. -/
theorem resume_receives_all {w : List Byte} {r : List RxAnswer} (hb : s.busy = true)
    (hw : w.length = s.itemLen it + 4) (hrx : s.rx = arrives w ++ r) :
    resume (s.received it []) = resume (stopTest (State.received { s with rx := r } it w)) := by
  rcases List.eq_nil_or_concat' w with rfl | ⟨w, b, rfl⟩
  · exact absurd hw (by simp)
  · rw [List.length_append, List.length_singleton] at hw
    rw [resume_receives hb w (.byte b :: r) (by omega) (hrx.trans (arrives_snoc_append w b r))]
    exact (resume_received_byte (s := { s with rx := .byte b :: r }) hb (Nat.lt_of_succ_le hw.le) rfl).trans
      (congrArg resume (if_neg (Nat.not_lt.2 hw.ge)))

/-- The channel fails after the bytes `w`. -/
theorem resume_receives_cut {w : List Byte} {a : RxAnswer} {r : List RxAnswer} (hb : s.busy = true)
    (hw : w.length < s.itemLen it + 4) (ha : a.fails) (hrx : s.rx = arrives w ++ a :: r) :
    resume (s.received it []) = raise (frameError a) (State.received { s with rx := r } it w) := by
  obtain ⟨k, he, -⟩ := blockEvent_received (s := { s with rx := a :: r }) (w := w) (it := it) hw
  have hcut := resume_receive_fails ((received_busy { s with rx := a :: r } it w).trans hb) he ha (received_rx _ it w)
  rw [resume_receives hb w (a :: r) hw hrx, hcut, received_read]

/-- A whole frame, from the hunt to the stop test. -/
theorem resume_receives_frame {h w : List Byte} {r : List RxAnswer} (it : Item) (hb : s.busy = true) (hh : endsHunt h)
    (hw : w.length = s.itemLen it + 4) (hrx : s.rx = arrives (h ++ w) ++ r) :
    resume (enterReceive it s) = resume (stopTest ((State.hunting { s with rx := r } it h).received it w)) := by
  rw [arrives_append, List.append_assoc] at hrx
  rw [resume_found it hb hh hrx, enterPayload_hunting]
  exact resume_receives_all (s := State.hunting { s with rx := arrives w ++ r } it h) hb hw rfl

/-- The channel fails after the hunt, behind the bytes `w`. -/
theorem resume_receives_frame_cut {h w : List Byte} {a : RxAnswer} {r : List RxAnswer} (it : Item) (hb : s.busy = true)
    (hh : endsHunt h) (hw : w.length < s.itemLen it + 4) (ha : a.fails) (hrx : s.rx = arrives (h ++ w) ++ a :: r) :
    resume (enterReceive it s) =
      raise (frameError a) ((State.hunting { s with rx := r } it h).received it w) := by
  rw [arrives_append, List.append_assoc] at hrx
  rw [resume_found it hb hh hrx, enterPayload_hunting]
  exact resume_receives_cut (s := State.hunting { s with rx := arrives w ++ a :: r } it h) hb hw ha rfl

end

/-! ## The two commands that receive one frame (R175, R177) -/

/-- The command receives one frame, of the item's payload. -/
inductive ReceivesFrame : Instr → Item → Prop
  | rxf (b : Slot) : ReceivesFrame (.rxf b) (.slot b)
  | rxid : ReceivesFrame .rxid .ident

/-- How a reception ends whose payload is stored, by the four bytes `q` of the stop test. -/
def State.tested (s : State) (q : List Byte) : State :=
  if q = [0xFF, 0xFF, 0xFF, 0xFF] then s.done else s.failed .framingError

section

variable {i : Instr} {it : Item} {s : State} {h p q : List Byte} {a : RxAnswer} {r : List RxAnswer}

theorem ReceivesFrame.channel (hi : ReceivesFrame i it) : isChannel i = true := by cases hi <;> rfl

theorem exec_of_receivesFrame (hi : ReceivesFrame i it) (hl : s.link = .opened) :
    exec i s = .next (resume (enterReceive it (accept i s))) := by
  rw [exec_channel_opened hi.channel hl]
  cases hi <;> rfl

theorem afterFrameReceived_of_receivesFrame (hi : ReceivesFrame i it) (hs : s.inflight = some i) :
    afterFrameReceived s = finish s := by
  have hne : s.inflight ≠ some .recvcall := by rw [hs]; cases hi <;> nofun
  exact if_neg hne

theorem stopTest_of_receivesFrame (hi : ReceivesFrame i it) (hs : s.inflight = some i) (hq : q.length = 4)
    (hg : s.stg = shiftAll 0 q) :
    stopTest s = if q = [0xFF, 0xFF, 0xFF, 0xFF] then finish s else raise .framingError s := by
  match q, hq with
  | [a, b, c, d], _ =>
    unfold stopTest
    rw [afterFrameReceived_of_receivesFrame hi hs]
    exact if_congr (hg ▸ staged_is_stop 0 a b c d) rfl rfl

/-- The reception of a command, after the hunt and the bytes `w`. -/
def receptionAt (i : Instr) (it : Item) (h w : List Byte) (s : State) : State :=
  ((accept i s).hunting it h).received it w

/-- Its place in the frame apart, it is the state before the command with the bytes of the payload stored. -/
theorem receptionAt_eq (i : Instr) (it : Item) (h w : List Byte) (s : State) :
    receptionAt i it h w s = { s.stored it 0 (w.take (s.itemLen it)) with
      busy := true, err := false, ecause := none, inflight := some i, win := shiftAll 0 h
      fsm := (receptionAt i it h w s).fsm, cnt := (receptionAt i it h w s).cnt
      stg := (receptionAt i it h w s).stg } := by
  have hlen : ((accept i s).hunting it h).itemLen it = s.itemLen it := by cases it <;> rfl
  unfold receptionAt State.received
  rw [hlen, stored_eq it _ 0 (u := (accept i s).hunting it h) (s := s) rfl rfl, stored_same it _ 0 s]
  rfl

theorem receptionAt_inflight (i : Instr) (it : Item) (h w : List Byte) (s : State) :
    (receptionAt i it h w s).inflight = some i := by rw [receptionAt_eq]

theorem receptionAt_stg (i : Instr) (h w : List Byte) (hw : s.itemLen it ≤ w.length) :
    (receptionAt i it h w s).stg = shiftAll 0 (w.drop (s.itemLen it)) := by
  have hlen : ((accept i s).hunting it h).itemLen it = s.itemLen it := by cases it <;> rfl
  rw [receptionAt, received_stop (by rw [hlen]; exact hw), hlen]

theorem raise_receptionAt_shown (c : Cause) (i : Instr) (it : Item) (h w : List Byte) (s : State) :
    (raise c (receptionAt i it h w s)).shown = ((s.stored it 0 (w.take (s.itemLen it))).failed c).shown := by
  rw [receptionAt_eq]
  cases c <;> rfl

theorem finish_receptionAt_shown (i : Instr) (it : Item) (h w : List Byte) (s : State) :
    (finish (receptionAt i it h w s)).shown = (s.stored it 0 (w.take (s.itemLen it))).done.shown := by
  rw [receptionAt_eq]
  rfl

/-- The payload and the stop marker have come: the command ends by the stop test. -/
theorem exec_receives_all (hi : ReceivesFrame i it) (hl : s.link = .opened) (hh : endsHunt h)
    (hp : p.length = s.itemLen it) (hq : q.length = 4) (hrx : s.rx = arrives (h ++ p ++ q) ++ r) :
    ∃ t, exec i s = .next t ∧ t.shown = ((State.stored { s with rx := r } it 0 p).tested q).shown := by
  have hlen : (p ++ q).length = s.itemLen it + 4 := by rw [List.length_append, hp, hq]
  have hend : exec i s = .next (resume (stopTest (receptionAt i it h (p ++ q) { s with rx := r }))) := by
    rw [List.append_assoc] at hrx
    rw [exec_of_receivesFrame hi hl, resume_receives_frame (s := accept i s) it rfl hh hlen hrx]
    rfl
  have hread := itemLen_read s it r
  have hfin := finish_receptionAt_shown i it h (p ++ q) { s with rx := r }
  have hraise := raise_receptionAt_shown .framingError i it h (p ++ q) { s with rx := r }
  have hstg := receptionAt_stg i h (p ++ q) (s := { s with rx := r }) (it := it) (by omega)
  rw [hread, List.take_left' hp] at hfin hraise
  rw [hread, List.drop_left' hp] at hstg
  rw [hend, stopTest_of_receivesFrame hi (receptionAt_inflight i it h _ _) hq hstg]
  unfold State.tested
  split
  · exact ⟨_, rfl, hfin⟩
  · exact ⟨_, rfl, hraise⟩

/-- The channel fails in the hunt. -/
theorem exec_hunt_cut (hi : ReceivesFrame i it) (hl : s.link = .opened) (hh : HuntGoesOn h) (ha : a.fails)
    (hrx : s.rx = arrives h ++ a :: r) :
    ∃ t, exec i s = .next t ∧ t.shown = (State.failed (frameError a) { s with rx := r }).shown := by
  refine ⟨_, exec_of_receivesFrame hi hl, ?_⟩
  rw [resume_hunt_cut (s := accept i s) it rfl hh ha hrx]
  cases frameError a <;> rfl

/-- The channel fails after the hunt, with the bytes `w` come. -/
theorem exec_receives_cut {w : List Byte} (hi : ReceivesFrame i it) (hl : s.link = .opened) (hh : endsHunt h)
    (hw : w.length < s.itemLen it + 4) (ha : a.fails) (hrx : s.rx = arrives (h ++ w) ++ a :: r) :
    ∃ t, exec i s = .next t ∧
      t.shown = ((State.stored { s with rx := r } it 0 (w.take (s.itemLen it))).failed (frameError a)).shown := by
  refine ⟨_, exec_of_receivesFrame hi hl, ?_⟩
  rw [resume_receives_frame_cut (s := accept i s) it rfl hh hw ha hrx]
  exact raise_receptionAt_shown (frameError a) i it h w { s with rx := r }

/-- What came before the channel failed: a part of the bytes of the hunt, of the payload, or of the stop marker. -/
def CutAt (len : Nat) (h p q : List Byte) : Prop :=
  (¬ startMarker <:+: h ∧ p = [] ∧ q = []) ∨ (endsHunt h ∧ p.length < len ∧ q = []) ∨
    (endsHunt h ∧ p.length = len ∧ q.length < 4)

theorem CutAt.length_le {len : Nat} (hc : CutAt len h p q) : p.length ≤ len := by
  rcases hc with ⟨_, rfl, _⟩ | ⟨_, hp, _⟩ | ⟨_, hp, _⟩
  · exact Nat.zero_le _
  · exact hp.le
  · exact hp.le

/-- The channel fails, in whichever phase: the payload bytes that came are stored (R176, R178). -/
theorem exec_cut (hi : ReceivesFrame i it) (hl : s.link = .opened) (ha : a.fails) (hc : CutAt (s.itemLen it) h p q)
    (hrx : s.rx = arrives (h ++ p ++ q) ++ a :: r) :
    ∃ t, exec i s = .next t ∧
      t.shown = ((State.stored { s with rx := r } it 0 p).failed (frameError a)).shown := by
  rcases hc with ⟨hn, rfl, rfl⟩ | ⟨hh, hp, rfl⟩ | ⟨hh, hp, hq⟩
  · rw [List.append_nil, List.append_nil] at hrx
    exact exec_hunt_cut hi hl (huntGoesOn_of_not_infix hn) ha hrx
  · rw [List.append_nil] at hrx
    have hcut := exec_receives_cut hi hl hh (by omega) ha hrx
    rwa [List.take_of_length_le hp.le] at hcut
  · rw [List.append_assoc] at hrx
    have hcut := exec_receives_cut hi hl hh (by rw [List.length_append]; omega) ha hrx
    rwa [List.take_left' hp] at hcut

end

theorem stored_slot_read (b : Slot) (p : List Byte) (s : State) (r : List RxAnswer) :
    State.stored { s with rx := r } (.slot b) 0 p = { s.memWrite b 0 p with rx := r } := by
  rw [stored_read, stored_slot]

/-- Settles O40: the outcomes of receiving one frame, whose payload goes to the portion. -/
theorem rxfReceivesIntoThePortion : Obligations.RxfReceivesIntoThePortion := by
  intro b s
  refine ⟨word_of_rxf b, exec_channel_linkDown rfl, fun hl h p r hh hp hrx => ?_,
    fun hl h p q r hh hp hq hne hrx => ?_, fun hl h p q a r ha hc hrx => ?_⟩
  · have hall := exec_receives_all (.rxf b) hl hh hp rfl hrx
    rwa [stored_slot_read, State.tested, if_pos rfl] at hall
  · have hall := exec_receives_all (.rxf b) hl hh hp hq hrx
    rwa [stored_slot_read, State.tested, if_neg hne] at hall
  · have hcut := exec_cut (.rxf b) hl ha hc hrx
    rwa [stored_slot_read] at hcut

/-! ## The bytes of the identifier (R177) -/

theorem identBytes_sinkByte (s : State) {j : Nat} (hj : j < 4) (b : Byte) :
    (s.sinkByte .ident j b).identBytes = s.identBytes.set j b := by
  have hbyte : ∀ k, k < 4 → byteOf (s.sinkByte .ident j b).fid k = if j = k then b else byteOf s.fid k :=
    fun k hk => byteOf_setByteOf s.fid b hj hk
  rw [identBytes_eq, identBytes_eq, hbyte 0 (by decide), hbyte 1 (by decide), hbyte 2 (by decide), hbyte 3 (by decide)]
  match j, hj with
  | 0, _ | 1, _ | 2, _ | 3, _ => rfl

theorem identBytes_length (s : State) : s.identBytes.length = 4 := be_length _ _

/-- Bytes of the payload replace the bytes of the identifier in their places. -/
theorem identBytes_stored : ∀ (p : List Byte) (j : Nat) (s : State), j + p.length ≤ 4 →
    (s.stored .ident j p).identBytes = s.identBytes.take j ++ p ++ s.identBytes.drop (j + p.length)
  | [], j, s, _ => by simp [State.stored]
  | b :: p, j, s, h => by
    rw [List.length_cons] at h
    have hj : j < s.identBytes.length := by rw [identBytes_length]; omega
    rw [State.stored, identBytes_stored p (j + 1) _ (by omega), identBytes_sinkByte s (by omega),
      List.drop_set_of_lt (by omega), List.take_add_one, List.take_set_of_le (Nat.le_refl j), List.getElem?_set_self hj,
      List.length_cons, show j + 1 + p.length = j + (p.length + 1) by omega]
    simp

/-- The bytes of an identifier determine it. -/
theorem fid_eq_of_identBytes {s t : State} (h : s.identBytes = t.identBytes) : s.fid = t.fid := by
  have hlt (u : State) : u.fid.toNat < 256 ^ 4 := u.fid.isLt
  exact BitVec.eq_of_toNat_eq ((intBE_be 4 _ (hlt s)).symm.trans ((congrArg intBE h).trans (intBE_be 4 _ (hlt t))))

/-- `FID` with its top bytes replaced, byte by byte. -/
theorem identBytes_identAfter {p : List Byte} (s : State) (h : p.length ≤ 4) :
    State.identBytes { s with fid := s.identAfter p } = p ++ s.identBytes.drop p.length := by
  have hlen : (p ++ s.identBytes.drop p.length).length = 4 := by
    rw [List.length_append, List.length_drop, identBytes_length]; omega
  have hlt : intBE (p ++ s.identBytes.drop p.length) < 2 ^ 32 := by
    simpa [hlen] using intBE_lt (p ++ s.identBytes.drop p.length)
  have hnat : (s.identAfter p).toNat = intBE (p ++ s.identBytes.drop p.length) := by
    rw [State.identAfter, BitVec.toNat_ofNat, Nat.mod_eq_of_lt hlt]
  have hbe := be_intBE (p ++ s.identBytes.drop p.length)
  rwa [hlen, ← hnat] at hbe

theorem stored_ident_buf : ∀ (p : List Byte) (j : Nat) (s : State), (s.stored .ident j p).buf = s.buf
  | [], _, _ => rfl
  | _ :: p, j, s => stored_ident_buf p (j + 1) (s.sinkByte .ident j _)

/-- A payload stored into the identifier. -/
theorem stored_ident {p : List Byte} (s : State) (h : p.length ≤ 4) :
    s.stored .ident 0 p = { s with fid := s.identAfter p } := by
  have hfid : (s.stored .ident 0 p).fid = s.identAfter p := by
    refine fid_eq_of_identBytes (t := { s with fid := s.identAfter p }) ?_
    rw [identBytes_identAfter s h, identBytes_stored p 0 s (by omega), List.take_zero, List.nil_append, Nat.zero_add]
  rw [stored_same, hfid, stored_ident_buf]

theorem stored_ident_read {p : List Byte} (s : State) (r : List RxAnswer) (h : p.length ≤ 4) :
    State.stored { s with rx := r } .ident 0 p = { s with fid := s.identAfter p, rx := r } :=
  stored_ident { s with rx := r } h

/-- Settles O41: the outcomes of receiving one frame, whose payload goes to `FID`. -/
theorem rxidReceivesTheIdentifier : Obligations.RxidReceivesTheIdentifier := by
  intro s
  refine ⟨rfl, exec_channel_linkDown rfl, fun hl h p r hh hp hrx => ?_,
    fun hl h p q r hh hp hq hne hrx => ?_, fun hl h p q a r ha hc hrx => ?_⟩
  · obtain ⟨t, ht, hshown⟩ := exec_receives_all .rxid hl hh hp rfl hrx
    rw [stored_ident_read s r hp.le, State.tested, if_pos rfl] at hshown
    refine ⟨t, ht, hshown, ?_⟩
    have hfid : t.fid = s.identAfter p := (congrArg State.fid hshown : t.shown.fid = _)
    have hbytes := identBytes_identAfter s hp.le
    rw [List.drop_of_length_le (by rw [identBytes_length, hp]), List.append_nil] at hbytes
    rw [hfid]
    exact hbytes
  · have hall := exec_receives_all .rxid hl hh hp hq hrx
    rwa [stored_ident_read s r hp.le, State.tested, if_neg hne] at hall
  · have hcut := exec_cut .rxid hl ha hc hrx
    rwa [stored_ident_read s r (CutAt.length_le hc)] at hcut

/-! ## Stray bytes (R174) -/

theorem startMarker_last {d c : List Byte} (h : startMarker = d ++ c) (hd : d ≠ []) : d.getLast? = some 0x55 := by
  have hall : ∀ b ∈ startMarker, b = 0x55 := by decide
  rw [List.getLast?_eq_some_getLast hd]
  exact congrArg some (hall _ (h ▸ List.mem_append_left c (List.getLast_mem hd)))

/-- The hunt over stray bytes and the marker ends with the marker exactly if the bytes are skippable (R174(a)). -/
theorem endsHunt_append_marker (g : List Byte) : endsHunt (g ++ startMarker) ↔ skippable g := by
  constructor
  · rintro ⟨-, hfirst⟩
    refine ⟨fun hlast => ?_, fun hin => ?_⟩
    · obtain ⟨f, rfl⟩ := List.getLast?_eq_some_iff.1 hlast
      have hpre : f ++ startMarker <+: f ++ [0x55] ++ startMarker := ⟨[0x55], by simp [startMarker]⟩
      have hlen := congrArg List.length (hfirst _ hpre (List.suffix_append f _))
      simp at hlen
    · obtain ⟨a, b, rfl⟩ := hin
      have hpre : a ++ startMarker <+: a ++ startMarker ++ b ++ startMarker := ⟨b ++ startMarker, by simp⟩
      have hlen := congrArg List.length (hfirst _ hpre (List.suffix_append a _))
      simp [startMarker] at hlen
  · rintro ⟨hlast, hin⟩
    refine ⟨List.suffix_append g _, ?_⟩
    rintro p ⟨b, hb⟩ ⟨a, rfl⟩
    rcases List.append_eq_append_iff.1 hb with ⟨c, hg, hc⟩ | ⟨c, hg, hc⟩
    · exact absurd ⟨a, c, hg.symm⟩ hin
    · suffices hnil : b = [] by rw [← hb, hnil, List.append_nil]
      have hlen := congrArg List.length hc
      rw [List.length_append] at hlen
      refine List.eq_nil_of_length_eq_zero ?_
      rcases List.append_eq_append_iff.1 hg with ⟨d, hd, hdc⟩ | ⟨d, -, hdc⟩
      · have hdnil : d = [] := by
          by_contra hne
          exact hlast (by rw [hd, List.getLast?_append_of_ne_nil a hne, startMarker_last hdc hne])
        have hclen : startMarker.length = (d ++ c).length := congrArg List.length hdc
        rw [hdnil, List.nil_append] at hclen
        omega
      · have hclen := congrArg List.length hdc
        rw [List.length_append] at hclen
        change c.length = d.length + startMarker.length at hclen
        omega

/-- Bytes that end in the start marker begin with bytes that end the hunt. -/
theorem exists_endsHunt {r : List Byte} (hm : startMarker <:+ r) : ∃ h, h <+: r ∧ endsHunt h := by
  induction hn : r.length using Nat.strong_induction_on generalizing r with
  | _ n ih =>
    by_cases hfirst : ∀ p, p <+: r → startMarker <:+ p → p = r
    · exact ⟨r, List.prefix_refl r, hm, hfirst⟩
    · push Not at hfirst
      obtain ⟨p, hp, hpm, hne⟩ := hfirst
      have hlt : p.length < n := hn ▸ lt_of_le_of_ne hp.length_le fun he => hne (hp.eq_of_length he)
      obtain ⟨h, hh, hend⟩ := ih _ hlt hpm rfl
      exact ⟨h, hh.trans hp, hend⟩

/-- Behind bytes that are not skippable the hunt ends before the marker does. -/
theorem exists_endsHunt_of_not_skippable {g : List Byte} (hg : ¬ skippable g) :
    ∃ h v, g ++ startMarker = h ++ v ∧ v ≠ [] ∧ endsHunt h := by
  obtain ⟨h, ⟨v, hv⟩, hend⟩ := exists_endsHunt (List.suffix_append g startMarker)
  refine ⟨h, v, hv.symm, ?_, hend⟩
  rintro rfl
  rw [List.append_nil] at hv
  exact hg ((endsHunt_append_marker g).1 (hv ▸ hend))

theorem tested_stored_rx (it : Item) (p q : List Byte) (s : State) :
    ((s.stored it 0 p).tested q).shown.rx = s.rx := by
  rw [stored_same, State.tested]
  split <;> rfl

theorem append_frame (g p : List Byte) : g ++ frame p = g ++ startMarker ++ p ++ [0xFF, 0xFF, 0xFF, 0xFF] := by
  simp only [frame, startMarker, List.append_assoc]

/-- More bytes than a payload and a stop marker. -/
theorem exists_split_after_stop {len : Nat} {w : List Byte} (h : len + 4 < w.length) :
    ∃ p q x : List Byte, w = p ++ q ++ x ∧ p.length = len ∧ q.length = 4 ∧ x ≠ [] := by
  refine ⟨w.take len, (w.drop len).take 4, (w.drop len).drop 4, ?_, ?_, ?_, ?_⟩
  · rw [List.append_assoc, List.take_append_drop, List.take_append_drop]
  · rw [List.length_take]; omega
  · rw [List.length_take, List.length_drop]; omega
  · rw [← List.length_pos_iff, List.length_drop, List.length_drop]; omega

section

variable {i : Instr} {it : Item} {s : State} {g p : List Byte} {r : List RxAnswer}

/-- Where the hunt ends before the frame's marker does, something of the frame is left on the stream (R174(b)). -/
theorem exec_behind_unskippable (hi : ReceivesFrame i it) (hl : s.link = .opened) (hp : p.length = s.itemLen it)
    (hg : ¬ skippable g) (hrx : s.rx = arrives (g ++ frame p) ++ r) :
    ∃ t x, exec i s = .next t ∧ t.rx = arrives x ++ r ∧ x ≠ [] := by
  obtain ⟨h, v, hhv, hv, hend⟩ := exists_endsHunt_of_not_skippable hg
  have hpos : 0 < v.length := List.length_pos_iff.2 hv
  have hlong : s.itemLen it + 4 < (v ++ p ++ [0xFF, 0xFF, 0xFF, 0xFF]).length := by simp [hp]; omega
  obtain ⟨p', q', x, hw, hp', hq', hx⟩ := exists_split_after_stop hlong
  have hsplit : g ++ frame p = h ++ p' ++ q' ++ x := by
    rw [append_frame, hhv, List.append_assoc, List.append_assoc, ← List.append_assoc v, hw]
    simp only [List.append_assoc]
  rw [hsplit, arrives_append, List.append_assoc] at hrx
  obtain ⟨t, ht, hshown⟩ := exec_receives_all hi hl hend hp' hq' hrx
  exact ⟨t, x, ht, (congrArg State.rx hshown).trans (tested_stored_rx it p' q' _), hx⟩

/-- A frame behind stray bytes completes, with the frame's payload and consumed up to its last byte and no further,
exactly if the stray bytes are skippable (R174(a)). -/
theorem exec_behind_stray (hi : ReceivesFrame i it) (hl : s.link = .opened) (hp : p.length = s.itemLen it)
    (hrx : s.rx = arrives (g ++ frame p) ++ r) :
    ∃ t, exec i s = .next t ∧ (t.shown = (State.stored { s with rx := r } it 0 p).done.shown ↔ skippable g) := by
  by_cases hg : skippable g
  · rw [append_frame] at hrx
    obtain ⟨t, ht, hshown⟩ := exec_receives_all hi hl ((endsHunt_append_marker g).2 hg) hp rfl hrx
    rw [State.tested, if_pos rfl] at hshown
    exact ⟨t, ht, iff_of_true hshown hg⟩
  · obtain ⟨t, x, ht, hleft, hx⟩ := exec_behind_unskippable hi hl hp hg hrx
    refine ⟨t, ht, iff_of_false (fun hdone => ?_) hg⟩
    have hnone : t.rx = r := by
      have hstored := tested_stored_rx it p [0xFF, 0xFF, 0xFF, 0xFF] { s with rx := r }
      rw [State.tested, if_pos rfl] at hstored
      exact (congrArg State.rx hdone).trans hstored
    have harr : arrives x = [] := List.append_left_eq_self.1 (hleft.symm.trans hnone)
    exact hx (List.map_eq_nil_iff.1 harr)

end

/-- Settles O43: a frame behind stray bytes is received as `exec_behind_stray` says; with one `55` more the marker is
found one byte early, and the stop test takes the payload's last byte and three of the four stop bytes. -/
theorem strayBytesAreSkippedExactlyThen : Obligations.StrayBytesAreSkippedExactlyThen := by
  refine ⟨fun b s g p r hl hp hrx => ?_, fun s g p r hl hp hrx => ?_, fun b s g p last r hl hg hp hrx => ?_,
    endsHunt_append_marker⟩
  · have hstray := exec_behind_stray (.rxf b) hl hp hrx
    rwa [stored_slot_read] at hstray
  · have hstray := exec_behind_stray .rxid hl hp hrx
    rwa [stored_ident_read s r hp.le] at hstray
  · have hsplit : arrives (g ++ [0x55] ++ frame (p ++ [last])) ++ r =
        arrives (g ++ startMarker ++ 0x55 :: p ++ [last, 0xFF, 0xFF, 0xFF]) ++ .byte 0xFF :: r := by
      simp [arrives, frame, startMarker]
    obtain ⟨t, ht, hshown⟩ := exec_receives_all (.rxf b) hl ((endsHunt_append_marker g).2 hg)
      (p := 0x55 :: p) (q := [last, 0xFF, 0xFF, 0xFF]) hp rfl (hrx.trans hsplit)
    rw [stored_slot_read] at hshown
    refine ⟨t, ht, fun hlast => ?_, fun hlast => ?_⟩
    · rwa [State.tested, if_pos (by rw [hlast])] at hshown
    · rwa [State.tested, if_neg fun he => hlast (List.cons.inj he).1] at hshown

/-! ## The round trip (R180) -/

/-- Settles O48: the frame that one block sends ends the other's hunt with its marker, and what is stored is read
back. -/
theorem frameRoundTrip : Obligations.FrameRoundTrip := by
  intro s u b c r q hsl hul hwf hlen htx
  refine ⟨_, frame (s.portion b), exec_sends_all (.txf b) hsl htx, rfl, rfl,
    congrArg (fun p => s.sent ++ frame p) (itemBytes_slot s b), fun hrx => ?_⟩
  have hp : (s.portion b).length = u.plenAt c := by rw [State.portion, memRead_length, hlen]
  have hend : endsHunt startMarker := (endsHunt_append_marker []).2 ⟨nofun, by decide⟩
  obtain ⟨v, hv, hshown⟩ := exec_receives_all (.rxf c) hul hend hp rfl hrx
  rw [stored_slot_read, State.tested, if_pos rfl] at hshown
  have hread := memRead_memWrite c (s.portion b) 0 hwf
  refine ⟨v, hv, congrArg State.busy hshown, congrArg State.err hshown, congrArg State.rx hshown, ?_⟩
  have hportion := congrArg (State.portion · c) hshown
  refine hportion.trans ?_
  show (u.memWrite c 0 (s.portion b)).memRead c 0 ((u.memWrite c 0 (s.portion b)).plenAt c) = s.portion b
  rwa [plenAt_memWrite, ← hp]

end Sys2Proof.Machine
end

section
/-! Proofs of 44_ack_sequencer.md R190 to R193: the token that `TXACK` sends (O39) and the token that `RXACK` awaits
(O42), each followed byte by byte. -/

namespace Sys2Proof.Machine

open Sys2Proof

/-! ## The transmission of a token (R190, R191) -/

/-- Byte `n` of the token is the next to send. -/
def State.tokenAt (s : State) (n : Nat) : State := { enterAckTx s with cnt := BitVec.ofNat 9 n }

section

variable {s : State} {n : Nat}

/-- The attempt at byte `n` of the token of `TXACK`: the byte offered, and the place after it. -/
theorem blockEvent_tokenAt (s : State) (h : n < 3) :
    ∃ b k, blockEvent (s.tokenAt n) = sendByte b k (s.tokenAt n) ∧ token[n]? = some b ∧
      ∀ t : State, t.inflight = some .txack →
        k (t.tokenAt n) = if n + 1 < 3 then t.tokenAt (n + 1) else finish t := by
  refine ⟨token.getD n 0, countByte 3 afterTokenSent, ?_, ?_, fun t ht => ?_⟩
  · match n, h with
    | 0, _ | 1, _ | 2, _ => rfl
  · match n, h with
    | 0, _ | 1, _ | 2, _ => rfl
  · have hend : afterTokenSent (t.tokenAt n) = finish t := if_neg (show t.inflight ≠ _ by rw [ht]; nofun)
    rw [countByte_of_cnt _ rfl (by omega), hend, ← ite_not]
    exact if_congr Nat.not_le rfl rfl

/-- Byte `n` of the token is accepted. -/
theorem resume_tokenAt_accepted {r : List TxAnswer} (hb : s.busy = true) (hi : s.inflight = some .txack) (hn : n < 3)
    (htx : s.tx = .accepted :: r) :
    ∃ b, token[n]? = some b ∧ resume (s.tokenAt n) =
      resume (if n + 1 < 3 then (s.wrote [b] r).tokenAt (n + 1) else finish (s.wrote [b] r)) := by
  obtain ⟨b, k, he, hbyte, hk⟩ := blockEvent_tokenAt s hn
  exact ⟨b, hbyte, (resume_accepted (s := s.tokenAt n) hb he htx).trans (congrArg resume (hk (s.wrote [b] r) hi))⟩

/-- The bytes of the token that the channel accepts go out in order. -/
theorem resume_token (hb : s.busy = true) (hi : s.inflight = some .txack) :
    ∀ (n : Nat) (r : List TxAnswer), n < 3 → s.tx = accepts n ++ r →
      resume (enterAckTx s) = resume ((s.wrote (token.take n) r).tokenAt n)
  | 0, r, _, htx => by
    rw [List.take_zero, wrote_nil (r := r) htx]; rfl
  | n + 1, r, hn, htx => by
    obtain ⟨b, hbyte, h⟩ := resume_tokenAt_accepted (r := r) (s := s.wrote (token.take n) (.accepted :: r)) hb hi
      (Nat.lt_of_succ_lt hn) rfl
    rw [resume_token hb hi n _ (by omega) (htx.trans (accepts_succ_append n r)), h, wrote_wrote, if_pos hn,
      List.take_add_one, hbyte, Option.toList_some]

end

theorem exec_txack_opened {s : State} (hl : s.link = .opened) :
    exec .txack s = .next (resume (enterAckTx (accept .txack s))) := exec_channel_opened rfl hl

theorem exec_txack_all {s : State} {r : List TxAnswer} (hl : s.link = .opened) (htx : s.tx = accepts 3 ++ r) :
    exec .txack s = .next (s.wrote token r).done.settled := by
  obtain ⟨b, hbyte, h⟩ := resume_tokenAt_accepted (r := r) (n := 2)
    (s := (accept .txack s).wrote (token.take 2) (.accepted :: r)) rfl rfl (by decide) rfl
  obtain rfl : 0x4B = b := Option.some.inj hbyte
  rw [exec_txack_opened hl, resume_token (s := accept .txack s) rfl rfl 2 _ (by decide)
    (htx.trans (accepts_succ_append 2 r)), h, wrote_wrote, if_neg (by decide), resume_idle rfl]
  rfl

theorem exec_txack_cut {s : State} {n : Nat} {a : TxAnswer} {r : List TxAnswer} (hl : s.link = .opened) (hn : n < 3)
    (ha : a.fails) (htx : s.tx = accepts n ++ a :: r) :
    exec .txack s = .next ((s.wrote (token.take n) r).failed .transportError).settled := by
  obtain ⟨b, k, he, -, -⟩ := blockEvent_tokenAt ((accept .txack s).wrote (token.take n) (a :: r)) hn
  rw [exec_txack_opened hl, resume_token (s := accept .txack s) rfl rfl n _ hn htx, resume_refused rfl he ha rfl]
  rfl

/-- Settles O39: both outcomes are those of sending the three bytes of the token. -/
theorem txackSendsTheToken : Obligations.TxackSendsTheToken := fun _ =>
  ⟨rfl, exec_channel_linkDown rfl, fun hl _ htx => ⟨_, exec_txack_all hl htx, settled_shown _⟩,
    fun hl _ _ _ hn ha htx => ⟨_, exec_txack_cut hl hn ha htx, settled_shown _⟩⟩

/-! ## The reception of a token (R192, R193) -/

/-- A reception of a token that has taken the bytes `q`. -/
def State.staged (s : State) (q : List Byte) : State :=
  { enterAckRx s with cnt := BitVec.ofNat 9 q.length, stg := shiftAll 0 q }

section

variable {s : State} {q : List Byte}

theorem blockEvent_staged (s : State) (q : List Byte) :
    blockEvent (s.staged q) = receiveByte .transportError tokenByte (s.staged q) := rfl

theorem stg_eq_token_iff (h : q.length = 3) : shiftAll 0 q = 0x0041434B ↔ q = token := by
  match q, h with
  | [a, b, c], _ => exact staged_is_token a b c

theorem tokenTest_of_rxack (hi : s.inflight = some .rxack) (hq : q.length = 3) (hg : s.stg = shiftAll 0 q) :
    tokenTest s = if q = token then finish s else raise .protocolError s := by
  have hend : afterTokenReceived s = finish s := if_neg (by rw [hi]; nofun)
  rw [tokenTest, hend]
  exact if_congr (hg ▸ stg_eq_token_iff hq) rfl rfl

/-- A byte of the token that `RXACK` awaits. -/
theorem tokenByte_staged (b : Byte) (hi : s.inflight = some .rxack) (hq : q.length < 3) :
    tokenByte b (s.staged q) = if q.length + 1 < 3 then s.staged (q ++ [b])
      else if q ++ [b] = token then finish s else raise .protocolError s := by
  have hlen : (q ++ [b]).length = q.length + 1 := List.length_append
  have hstg : shiftIn (shiftAll 0 q) b = shiftAll 0 (q ++ [b]) := (shiftAll_append 0 q [b]).symm
  have hnext : s.staged (q ++ [b]) =
      { s.staged q with stg := shiftIn (shiftAll 0 q) b, cnt := BitVec.ofNat 9 (q.length + 1) } := by
    rw [hstg, ← hlen]; rfl
  rw [tokenByte, countByte_of_cnt (c := q.length) _ rfl (by omega), show Config.ackToken.length = 3 from rfl, hnext]
  by_cases hmore : q.length + 1 < 3
  · rw [if_pos hmore, if_neg (Nat.not_le.2 hmore)]; rfl
  · rw [if_neg hmore, if_pos (Nat.not_lt.1 hmore)]
    exact tokenTest_of_rxack (s := { s.staged q with stg := _ }) hi (by omega) hstg

/-- The bytes of a token but the last. -/
theorem resume_staged (hb : s.busy = true) (hi : s.inflight = some .rxack) (q : List Byte) :
    ∀ r : List RxAnswer, q.length < 3 → s.rx = arrives q ++ r →
      resume (enterAckRx s) = resume (State.staged { s with rx := r } q) := by
  induction q using List.reverseRecOn with
  | nil =>
    intro r _ hrx
    have hrx : s.rx = r := hrx
    rw [← hrx]; rfl
  | append_singleton q b ih =>
    intro r hlt hrx
    rw [List.length_append, List.length_singleton] at hlt
    rw [ih (.byte b :: r) (by omega) (hrx.trans (arrives_snoc_append q b r)),
      resume_byte (s := State.staged { s with rx := .byte b :: r } q) hb (blockEvent_staged _ _) rfl]
    exact congrArg resume ((tokenByte_staged (s := { s with rx := r }) b hi (by omega)).trans (if_pos hlt))

/-- All three bytes: the token test. -/
theorem resume_staged_all {r : List RxAnswer} (hb : s.busy = true) (hi : s.inflight = some .rxack) (hq : q.length = 3)
    (hrx : s.rx = arrives q ++ r) :
    resume (enterAckRx s) =
      if q = token then finish { s with rx := r } else raise .protocolError { s with rx := r } := by
  rcases List.eq_nil_or_concat' q with rfl | ⟨q, b, rfl⟩
  · exact absurd hq (by decide)
  · rw [List.length_append, List.length_singleton] at hq
    rw [resume_staged hb hi q (.byte b :: r) (by omega) (hrx.trans (arrives_snoc_append q b r)),
      resume_byte (s := State.staged { s with rx := .byte b :: r } q) hb (blockEvent_staged _ _) rfl]
    refine (congrArg resume ((tokenByte_staged (s := { s with rx := r }) b hi (by omega)).trans
      (if_neg (by omega)))).trans (resume_idle ?_)
    split <;> rfl

end

theorem receiveByte_fails_transport {s : State} {a : RxAnswer} {r : List RxAnswer} (k : Byte → State → State)
    (ha : a.fails) (h : s.rx = a :: r) :
    receiveByte .transportError k s = .went (raise .transportError { s with rx := r }) := by
  rcases ha with rfl | rfl
  · rw [receiveByte, chanRead_cons h]
  · rw [receiveByte, chanRead_cons h]

section

variable {s : State} {q : List Byte} {r : List RxAnswer}

theorem exec_rxack_opened (hl : s.link = .opened) :
    exec .rxack s = .next (resume (enterAckRx (accept .rxack s))) := exec_channel_opened rfl hl

theorem exec_rxack_token (hl : s.link = .opened) (hrx : s.rx = arrives token ++ r) :
    exec .rxack s = .next (State.done { s with rx := r }).settled := by
  rw [exec_rxack_opened hl, resume_staged_all (s := accept .rxack s) rfl rfl rfl hrx, if_pos rfl]
  rfl

theorem exec_rxack_other (hl : s.link = .opened) (hq : q.length = 3) (hne : q ≠ token) (hrx : s.rx = arrives q ++ r) :
    exec .rxack s = .next (State.failed .protocolError { s with rx := r }).settled := by
  rw [exec_rxack_opened hl, resume_staged_all (s := accept .rxack s) rfl rfl hq hrx, if_neg hne]
  rfl

theorem exec_rxack_cut {a : RxAnswer} (hl : s.link = .opened) (ha : a.fails) (hq : q.length < 3)
    (hrx : s.rx = arrives q ++ a :: r) :
    exec .rxack s = .next (State.failed .transportError { s with rx := r }).settled := by
  rw [exec_rxack_opened hl, resume_staged (s := accept .rxack s) rfl rfl q _ hq hrx,
    resume_went rfl ((blockEvent_staged _ q).trans (receiveByte_fails_transport tokenByte ha rfl)), resume_idle rfl]
  rfl

/-- Fewer than three bytes and no answer behind them: the command holds. -/
theorem exec_rxack_short (hl : s.link = .opened) (hq : q.length < 3) (hrx : s.rx = arrives q) :
    exec .rxack s = .next (State.staged { accept .rxack s with rx := [] } q) := by
  rw [exec_rxack_opened hl, resume_staged (s := accept .rxack s) rfl rfl q [] hq (hrx.trans (List.append_nil _).symm),
    resume_holds rfl ((blockEvent_staged _ q).trans (receiveByte_nil _ _ rfl))]

end

/-- Settles O42: the outcomes by what comes: the token, three other bytes, a failure before the third, or too few. -/
theorem rxackAwaitsTheToken : Obligations.RxackAwaitsTheToken := fun _ =>
  ⟨rfl, exec_channel_linkDown rfl, fun hl _ hrx => ⟨_, exec_rxack_token hl hrx, settled_shown _⟩,
    fun hl _ _ hq hne hrx => ⟨_, exec_rxack_other hl hq hne hrx, settled_shown _⟩,
    fun hl _ _ _ ha hq hrx => ⟨_, exec_rxack_cut hl ha hq hrx, settled_shown _⟩,
    fun hl _ hq hrx => ⟨_, exec_rxack_short hl hq hrx, rfl⟩⟩

end Sys2Proof.Machine
end

section
/-! Proofs of 44_ack_sequencer.md R197: `SENDCALL` and `RECVCALL` are their steps (O46, O47). Inside an envelope command
each frame and each token takes the course it takes in the command that moves it alone, up to where that command ends
and the envelope command goes on. -/

namespace Sys2Proof.Machine

open Sys2Proof

/-! ## One part of an envelope, beside the command that moves it alone -/

/-- The same place of the pseudocode, with `i` as the command in flight. -/
def State.under (s : State) (i : Instr) : State := { s with inflight := some i }

/-- What the command `i` moves alone is a part of the envelope command `j`: the phases of the part, and how `j` goes on
where `i` ends (R194, R195). -/
inductive Part : Instr → Instr → List Phase → (State → State) → Prop
  | sends {i : Instr} {it : Item} (h : SendsFrame i it) :
    Part .sendcall i [.txStart, .txPayload, .txStop] (State.toPhase · .pace)
  | awaits : Part .sendcall .rxack [.ackRx] (nextItem enterSend)
  | receives {i : Instr} {it : Item} (h : ReceivesFrame i it) : Part .recvcall i [.hunt, .payload, .stop] enterAckTx
  | acknowledges : Part .recvcall .txack [.ackTx] (nextItem enterReceive)

/-- The envelope command `j` is in flight without error, in a part with the phases `ps`, at the item `it` of the layout
`pl`. -/
structure Within (j : Instr) (ps : List Phase) (it : Item) (pl : Word32) (s : State) : Prop where
  busy : s.busy = true
  inflight : s.inflight = some j
  err : s.err = false
  ecause : s.ecause = none
  link : s.link = .opened
  phase : s.fsm.phase ∈ ps
  item : s.fsm.item = it
  plen : s.plen = pl

/-- What an event leads to in the envelope command `j` and in the command `i`: both go on, both end with the same
error, or `i` ends and `j` goes on with `next`. -/
inductive Beside (j i : Instr) (ps : List Phase) (it : Item) (pl : Word32) (next : State → State) :
    State → State → Prop
  | goes (t : State) (h : Within j ps it pl t) : Beside j i ps it pl next t (t.under i)
  | raises (c : Cause) (t : State) : Beside j i ps it pl next (raise c t) (raise c t)
  | hands (t : State) (h : Within j ps it pl t) : Beside j i ps it pl next (next t) (finish t)

section

variable {j i : Instr} {ps : List Phase} {it : Item} {pl : Word32} {next : State → State} {s : State}

/-- What goes on at an item, in the same part or in the next one. -/
theorem Within.moved {t : State} {qs : List Phase} (h : Within j ps it pl s) (ht : t = { s with
    rx := t.rx, tx := t.tx, sent := t.sent, fid := t.fid, buf := t.buf, win := t.win, stg := t.stg, cnt := t.cnt
    fsm := t.fsm }) (hp : t.fsm.phase ∈ qs) (hi : t.fsm.item = s.fsm.item) : Within j qs it pl t := by
  obtain ⟨busy, inflight, err, ecause, link, -, item, plen⟩ := h
  have hitem := hi.trans item
  rw [ht]
  exact ⟨busy, inflight, err, ecause, link, hp, hitem, plen⟩

/-- What goes on without a change of the phase. -/
theorem Within.stays {t : State} (h : Within j ps it pl s) (ht : t = { s with
    rx := t.rx, tx := t.tx, sent := t.sent, fid := t.fid, buf := t.buf, win := t.win, stg := t.stg, cnt := t.cnt }) :
    Within j ps it pl t := by
  have hf : t.fsm = s.fsm := by rw [ht]
  exact h.moved (hf ▸ ht) (hf ▸ h.phase) (congrArg Fsm.item hf)

/-- Both commands take the same way. -/
theorem beside_ite {c : Prop} [Decidable c] {s t u v : State} (h : c → Beside j i ps it pl next s u)
    (h' : ¬ c → Beside j i ps it pl next t v) :
    Beside j i ps it pl next (if c then s else t) (if c then u else v) := by
  split
  · exact h ‹_›
  · exact h' ‹_›

theorem Within.toPhase {p : Phase} (h : Within j ps it pl s) (hp : p ∈ ps) :
    Beside j i ps it pl next (s.toPhase p) ((s.under i).toPhase p) := .goes (s.toPhase p) (h.moved rfl hp rfl)

theorem Within.enterStop (h : Within j ps it pl s) (hp : .stop ∈ ps) :
    Beside j i ps it pl next (enterStop s) (enterStop (s.under i)) := .goes (Machine.enterStop s) (h.moved rfl hp rfl)

theorem Within.countByte (n : Nat) {f : State → State} (h : Within j ps it pl s)
    (hf : Beside j i ps it pl next (f s) (f (s.under i))) :
    Beside j i ps it pl next (countByte n f s) (countByte n f (s.under i)) :=
  beside_ite (fun _ => hf) fun _ => .goes { s with cnt := s.cnt + 1 } (h.stays rfl)

/-! ### What goes on in each part -/

theorem Within.enterTxPayload (h : Within j ps it pl s) (hp : .txPayload ∈ ps) (hp' : .txStop ∈ ps) :
    Beside j i ps it pl next (enterTxPayload s) (enterTxPayload (s.under i)) :=
  beside_ite (fun _ => h.toPhase hp') fun _ => h.toPhase hp

/-- Where the frame is sent, the command that sends it alone ends. -/
theorem Within.afterFrameSent {jt : Item} (h : Within .sendcall ps it pl s) (hi : SendsFrame i jt) :
    Beside .sendcall i ps it pl (State.toPhase · .pace) (afterFrameSent s) (afterFrameSent (s.under i)) := by
  have hj : Machine.afterFrameSent s = s.toPhase .pace := if_pos h.inflight
  rw [hj, afterFrameSent_of_sendsFrame hi rfl]
  exact .hands s h

/-- Where the awaited token came, `RXACK` ends. -/
theorem Within.tokenTest (h : Within .sendcall ps it pl s) :
    Beside .sendcall .rxack ps it pl (nextItem enterSend) (tokenTest s) (tokenTest (s.under .rxack)) := by
  refine beside_ite (fun _ => ?_) fun _ => .raises .protocolError s
  have hj : afterTokenReceived s = nextItem enterSend s := if_pos h.inflight
  have hi : afterTokenReceived (s.under .rxack) = finish s := if_neg nofun
  rw [hj, hi]
  exact .hands s h

theorem Within.tokenByte (b : Byte) (h : Within .sendcall ps it pl s) :
    Beside .sendcall .rxack ps it pl (nextItem enterSend) (tokenByte b s) (tokenByte b (s.under .rxack)) := by
  have hs : Within .sendcall ps it pl { s with stg := shiftIn s.stg b } := h.stays rfl
  exact hs.countByte 3 hs.tokenTest

theorem Within.enterPayload (h : Within j ps it pl s) (hp : .payload ∈ ps) (hp' : .stop ∈ ps) :
    Beside j i ps it pl next (enterPayload s) (enterPayload (s.under i)) :=
  beside_ite (fun _ => h.enterStop hp') fun _ => h.toPhase hp

theorem Within.huntByte (b : Byte) (h : Within j ps it pl s) (hp : .payload ∈ ps) (hp' : .stop ∈ ps) :
    Beside j i ps it pl next (huntByte b s) (huntByte b (s.under i)) := by
  have hs : Within j ps it pl { s with win := shiftIn s.win b } := h.stays rfl
  exact beside_ite (fun _ => hs.enterPayload hp hp') fun _ => .goes _ hs

theorem sinkByte_under (jt : Item) (n : Nat) (b : Byte) (s : State) :
    (s.under i).sinkByte jt n b = (s.sinkByte jt n b).under i := by
  cases jt <;> rfl

theorem Within.payloadByte (b : Byte) (h : Within j ps it pl s) (hp : .stop ∈ ps) :
    Beside j i ps it pl next (payloadByte b s) (payloadByte b (s.under i)) := by
  have hs : Within j ps it pl (s.sinkByte s.fsm.item s.cnt.toNat b) := h.stays (by cases s.fsm.item <;> rfl)
  have hu : Machine.payloadByte b (s.under i) = Machine.countByte (s.itemLen s.fsm.item) Machine.enterStop
      ((s.sinkByte s.fsm.item s.cnt.toNat b).under i) :=
    congrArg (Machine.countByte (s.itemLen s.fsm.item) Machine.enterStop)
      (sinkByte_under s.fsm.item s.cnt.toNat b s)
  rw [hu]
  exact hs.countByte _ (hs.enterStop hp)

/-- Where the frame is received, the command that receives it alone ends. -/
theorem Within.stopTest {jt : Item} (h : Within .recvcall ps it pl s) (hi : ReceivesFrame i jt) :
    Beside .recvcall i ps it pl enterAckTx (stopTest s) (stopTest (s.under i)) := by
  refine beside_ite (fun _ => ?_) fun _ => .raises .framingError s
  have hj : afterFrameReceived s = enterAckTx s := if_pos h.inflight
  rw [hj, afterFrameReceived_of_receivesFrame hi rfl]
  exact .hands s h

theorem Within.stopByte {jt : Item} (b : Byte) (h : Within .recvcall ps it pl s) (hi : ReceivesFrame i jt) :
    Beside .recvcall i ps it pl enterAckTx (stopByte b s) (stopByte b (s.under i)) := by
  have hs : Within .recvcall ps it pl { s with stg := shiftIn s.stg b } := h.stays rfl
  exact hs.countByte 4 (hs.stopTest hi)

/-- Where the token is sent, `TXACK` ends. -/
theorem Within.afterTokenSent (h : Within .recvcall ps it pl s) :
    Beside .recvcall .txack ps it pl (nextItem enterReceive) (afterTokenSent s)
      (afterTokenSent (s.under .txack)) := by
  have hj : Machine.afterTokenSent s = nextItem enterReceive s := if_pos h.inflight
  have hi : Machine.afterTokenSent (s.under .txack) = finish s := if_neg nofun
  rw [hj, hi]
  exact .hands s h

/-! ### Events and turns -/

/-- The two events are of one kind; a hold leaves both commands where they were. -/
inductive BesideEvent (j i : Instr) (ps : List Phase) (it : Item) (pl : Word32) (next : State → State) :
    Event → Event → Prop
  | went {t u : State} (h : Beside j i ps it pl next t u) : BesideEvent j i ps it pl next (.went t) (.went u)
  | holds (t : State) (h : Within j ps it pl t) : BesideEvent j i ps it pl next (.holds t) (.holds (t.under i))

theorem Within.sendByte (b : Byte) {k : State → State} (h : Within j ps it pl s)
    (hk : ∀ t, Within j ps it pl t → Beside j i ps it pl next (k t) (k (t.under i))) :
    BesideEvent j i ps it pl next (sendByte b k s) (sendByte b k (s.under i)) := by
  rcases htx : s.tx with _ | ⟨a, r⟩
  · rw [sendByte_nil b k htx, sendByte_nil b k (s := s.under i) htx]
    exact .holds s h
  · cases a with
    | accepted =>
      rw [sendByte_accepted b k htx, sendByte_accepted b k (s := s.under i) htx]
      exact .went (hk { s with tx := r, sent := s.sent ++ [b] } (h.stays rfl))
    | wouldBlock =>
      rw [sendByte_wouldBlock b k htx, sendByte_wouldBlock b k (s := s.under i) htx]
      exact .holds { s with tx := r } (h.stays rfl)
    | closed =>
      rw [sendByte_fails b k (.inl rfl) htx, sendByte_fails b k (s := s.under i) (.inl rfl) htx]
      exact .went (.raises .transportError { s with tx := r })
    | hardError =>
      rw [sendByte_fails b k (.inr rfl) htx, sendByte_fails b k (s := s.under i) (.inr rfl) htx]
      exact .went (.raises .transportError { s with tx := r })

theorem Within.receiveByte (c : Cause) {k : Byte → State → State} (h : Within j ps it pl s)
    (hk : ∀ b t, Within j ps it pl t → Beside j i ps it pl next (k b t) (k b (t.under i))) :
    BesideEvent j i ps it pl next (receiveByte c k s) (receiveByte c k (s.under i)) := by
  rcases hrx : s.rx with _ | ⟨a, r⟩
  · rw [receiveByte_nil c k hrx, receiveByte_nil c k (s := s.under i) hrx]
    exact .holds s h
  · have hread : Within j ps it pl { s with rx := r } := h.stays rfl
    simp only [Machine.receiveByte, chanRead_cons hrx, chanRead_cons (s := s.under i) hrx]
    cases a with
    | byte b => exact .went (hk b _ hread)
    | wouldBlock => exact .holds _ hread
    | closed => exact .went (.raises c { s with rx := r })
    | hardError => exact .went (.raises .transportError { s with rx := r })

/-- An event of a part. -/
theorem Part.blockEvent (hpart : Part j i ps next) (h : Within j ps it pl s) :
    BesideEvent j i ps it pl next (blockEvent s) (blockEvent (s.under i)) := by
  have hu : (s.under i).fsm.phase = s.fsm.phase := rfl
  have hp := h.phase
  cases hpart with
  | sends hi =>
    simp only [List.mem_cons, List.not_mem_nil, or_false] at hp
    rcases hp with hp | hp | hp
    · simp only [Machine.blockEvent, hu, hp]
      exact h.sendByte _ fun t ht => ht.countByte _ (ht.enterTxPayload (by decide) (by decide))
    · simp only [Machine.blockEvent, hu, hp]
      exact h.sendByte _ fun t ht => ht.countByte _ (ht.toPhase (by decide))
    · simp only [Machine.blockEvent, hu, hp]
      exact h.sendByte _ fun t ht => ht.countByte _ (ht.afterFrameSent hi)
  | awaits =>
    obtain hp := List.mem_singleton.1 hp
    simp only [Machine.blockEvent, hu, hp]
    exact h.receiveByte _ fun b t ht => ht.tokenByte b
  | receives hi =>
    simp only [List.mem_cons, List.not_mem_nil, or_false] at hp
    rcases hp with hp | hp | hp
    · simp only [Machine.blockEvent, hu, hp]
      exact h.receiveByte _ fun b t ht => ht.huntByte b (by decide) (by decide)
    · simp only [Machine.blockEvent, hu, hp]
      exact h.receiveByte _ fun b t ht => ht.payloadByte b (by decide)
    · simp only [Machine.blockEvent, hu, hp]
      exact h.receiveByte _ fun b t ht => ht.stopByte b hi
  | acknowledges =>
    obtain hp := List.mem_singleton.1 hp
    simp only [Machine.blockEvent, hu, hp]
    exact h.sendByte _ fun t ht => ht.countByte _ ht.afterTokenSent

/-- How a turn that begins in a part ends: both commands stop, looking the same; or the command that moves the part
alone ends and the envelope command goes on. -/
inductive PartEnd (j i : Instr) (ps : List Phase) (it : Item) (pl : Word32) (next : State → State) :
    State → State → Prop
  | stops {t u : State} (h : t.shown = u.shown) (hs : u.err = true ∨ u.busy = true) : PartEnd j i ps it pl next t u
  | hands (t : State) (h : Within j ps it pl t) : PartEnd j i ps it pl next (resume (next t)) (finish t)

theorem Part.resume (hpart : Part j i ps next) (s : State) :
    Within j ps it pl s → PartEnd j i ps it pl next (resume s) (resume (s.under i)) := by
  refine resume_induction
    (motive := fun s t => Within j ps it pl s → PartEnd j i ps it pl next t (Machine.resume (s.under i))) ?_ ?_ ?_ s
  · intro s hidle h
    exact absurd h.busy (by simp [hidle])
  · intro s t hb he h
    have hev := hpart.blockEvent h
    rw [he] at hev
    generalize hu : Machine.blockEvent (s.under i) = e at hev
    cases hev with
    | holds _ ht =>
      rw [resume_holds (s := s.under i) hb hu]
      exact .stops rfl (.inr ht.busy)
  · intro s t hb he ih h
    have hev := hpart.blockEvent h
    rw [he] at hev
    generalize hu : Machine.blockEvent (s.under i) = e at hev
    cases hev with
    | went hbeside =>
      rw [resume_went (s := s.under i) hb hu]
      cases hbeside with
      | goes t ht => exact ih ht
      | raises c t => exact .stops rfl (.inl (by rw [resume_idle rfl]; rfl))
      | hands t ht => rw [resume_idle (s := finish t) rfl]; exact .hands t ht

end

/-! ## The steps of an envelope -/

/-- The command that sends the frame of an item alone. -/
def sendCommand : Item → Instr
  | .ident => .txid
  | .slot b => .txf b

/-- The command that receives the frame of an item alone. -/
def receiveCommand : Item → Instr
  | .ident => .rxid
  | .slot b => .rxf b

theorem sendCommand_sends (it : Item) : SendsFrame (sendCommand it) it := by
  cases it with
  | ident => exact .txid
  | slot b => exact .txf b

theorem receiveCommand_receives (it : Item) : ReceivesFrame (receiveCommand it) it := by
  cases it with
  | ident => exact .rxid
  | slot b => exact .rxf b

/-- An envelope command `j` and its steps: for each item, from `enter` on, the frame by the command `f`, then the token
by the command `k` (R194, R195). -/
inductive Envelope : Instr → (Item → Instr) → Instr → (Item → State → State) → Prop
  | sendcall : Envelope .sendcall sendCommand .rxack enterSend
  | recvcall : Envelope .recvcall receiveCommand .txack enterReceive

/-- The items of the envelope: the identifier, then the present portions (30_encoding.md R105). -/
def State.items (s : State) : List Item := .ident :: s.presentSlots.map .slot

/-- The steps for some items, by the command `f` for each frame and the command `k` for each token. -/
def itemSteps (f : Item → Instr) (k : Instr) (its : List Item) : List Instr := (its.map fun it => [f it, k]).flatten

theorem itemSteps_cons (f : Item → Instr) (k : Instr) (it : Item) (its : List Item) :
    itemSteps f k (it :: its) = f it :: k :: itemSteps f k its := rfl

theorem itemSteps_items (f : Item → Instr) (k : Instr) (s : State) : itemSteps f k s.items =
    f .ident :: k :: (s.presentSlots.map fun b => [f (.slot b), k]).flatten := by
  rw [State.items, itemSteps_cons, itemSteps, List.map_map]
  rfl

section

variable {j k i : Instr} {f : Item → Instr} {enter : Item → State → State} {it : Item} {pl : Word32} {s t u : State}

/-! ### The items of an envelope -/

/-- After a slot that comes after an item come those slots after the item that are greater. -/
theorem slotsAfter_slot {b : Slot} (h : b ∈ slotsAfter it) :
    slotsAfter (.slot b) = (slotsAfter it).filter fun c => decide (b < c) := by
  cases it with
  | ident => rfl
  | slot a =>
    have hab : a < b := of_decide_eq_true (List.mem_filter.1 h).2
    rw [slotsAfter, slotsAfter, List.filter_filter]
    refine List.filter_congr fun c _ => ?_
    simpa using fun hbc => hab.trans hbc

theorem slotsAfter_sorted (it : Item) : (slotsAfter it).Pairwise (· < ·) := by
  have hall : ([0, 1, 2, 3] : List Slot).Pairwise (· < ·) := by decide
  cases it with
  | ident => exact hall
  | slot b => exact hall.filter fun c => decide (b < c)

/-- After the first present portion come the others. -/
theorem presentAfter_slot {p : Slot → Bool} {b : Slot} {bs : List Slot} (h : (slotsAfter it).filter p = b :: bs) :
    (slotsAfter (.slot b)).filter p = bs := by
  have hb : b ∈ slotsAfter it := (List.mem_filter.1 (h ▸ List.mem_cons_self)).1
  have hsorted : (b :: bs).Pairwise (· < ·) := h ▸ (slotsAfter_sorted it).filter p
  rw [slotsAfter_slot hb, List.filter_comm, h, List.filter_cons_of_neg (by simp), List.filter_eq_self]
  exact fun c hc => decide_eq_true (List.rel_of_pairwise_cons hsorted hc)

/-- The next item is the first of the present portions that are left. -/
theorem nextPresent_eq (s : State) (it : Item) : s.nextPresent it = ((slotsAfter it).filter s.present).head? :=
  (List.head?_filter ..).symm

/-! ### Issuing commands -/

/-- What the host can see decides what it gets by issuing channel commands. -/
theorem issueAll_shown : ∀ {is : List Instr} {s u : State}, (∀ i ∈ is, isChannel i = true) → s.shown = u.shown →
    (issueAll is s).shown = (issueAll is u).shown
  | [], _, _, _, h => h
  | i :: is, s, u, hc, h => by
    have hi := hc i List.mem_cons_self
    have hs := exec_channel s hi
    have hu := exec_channel u hi
    have hstep := exec_shown h hs hu
    generalize channelCommand i (entry i) s = t at hs hstep
    generalize channelCommand i (entry i) u = v at hu hstep
    have herr : t.err = v.err := (congrArg State.err hstep : t.shown.err = v.shown.err)
    have hbusy : t.busy = v.busy := (congrArg State.busy hstep : t.shown.busy = v.shown.busy)
    simp only [issueAll, hs, hu, herr, hbusy]
    split
    · exact hstep
    · exact issueAll_shown (fun i hi => hc i (List.mem_cons_of_mem _ hi)) hstep

theorem issueAll_stops {is : List Instr} (h : exec i s = .next t) (ht : t.err = true ∨ t.busy = true) :
    issueAll (i :: is) s = t := by
  have hor : (t.err || t.busy) = true := by simpa using ht
  simp only [issueAll, h, hor, if_true]

theorem issueAll_goes {is : List Instr} (h : exec i s = .next t) (he : t.err = false) (hb : t.busy = false) :
    issueAll (i :: is) s = issueAll is t := by
  simp only [issueAll, h, he, hb, Bool.or_false, Bool.false_eq_true, if_false]

/-- A part of an envelope command, and the host's command that moves it alone and begins at the same place. -/
theorem Part.issue {ps : List Phase} {next : State → State} (hpart : Part j i ps next) (hs : Within j ps it pl s)
    (hu : exec i u = .next (Machine.resume (s.under i))) (is : List Instr) :
    (Machine.resume s).shown = (issueAll (i :: is) u).shown ∨
      ∃ t, Within j ps it pl t ∧ Machine.resume s = Machine.resume (next t) ∧
        issueAll (i :: is) u = issueAll is (finish t) := by
  have hend := hpart.resume s hs
  generalize Machine.resume s = v at hend ⊢
  generalize Machine.resume (s.under i) = w at hend hu
  cases hend with
  | stops h hstop => exact .inl (by rw [issueAll_stops hu hstop, h])
  | hands t ht => exact .inr ⟨t, ht, rfl, issueAll_goes hu ht.err rfl⟩

/-! ### The two envelope commands -/

/-- The block idle, with the hidden registers as they were inside a command. -/
def State.released (s : State) : State := { s with busy := false }

theorem Within.accept_released {ps : List Phase} (h : Within j ps it pl s) : accept i s.released = s.under i := by
  simp only [accept, State.released, State.under, h.busy, h.err, h.ecause]

/-- An envelope begins with its identifier. -/
theorem Envelope.entry_eq (he : Envelope j f k enter) : entry j = enter .ident := by cases he <;> rfl

/-- Where the frame of an item begins. -/
theorem Envelope.frame (he : Envelope j f k enter) (it : Item) (hl : s.link = .opened) :
    ∃ ps next, Part j (f it) ps next ∧ Within j ps it s.plen (enter it (accept j s)) ∧
      exec (f it) s = .next (resume ((enter it (accept j s)).under (f it))) := by
  cases he with
  | sendcall =>
    exact ⟨_, _, .sends (sendCommand_sends it), ⟨rfl, rfl, rfl, rfl, hl, List.mem_cons_self, rfl, rfl⟩,
      exec_of_sendsFrame (sendCommand_sends it) hl⟩
  | recvcall =>
    exact ⟨_, _, .receives (receiveCommand_receives it), ⟨rfl, rfl, rfl, rfl, hl, List.mem_cons_self, rfl, rfl⟩,
      exec_of_receivesFrame (receiveCommand_receives it) hl⟩

/-- Where the token of an item begins, behind its frame; the pace is passed without an attempt (R196). -/
theorem Envelope.token {ps : List Phase} {next : State → State} (he : Envelope j f k enter)
    (hpart : Part j (f it) ps next) (ht : Within j ps it pl t) :
    ∃ ps' v, Part j k ps' (nextItem enter) ∧ Within j ps' it pl v ∧ resume (next t) = resume v ∧
      exec k t.released = .next (resume (v.under k)) := by
  cases he with
  | sendcall =>
    generalize hi : sendCommand it = i at hpart
    cases hpart with
    | awaits => cases it <;> cases hi
    | sends =>
      refine ⟨_, enterAckRx t, .awaits, ht.moved rfl List.mem_cons_self rfl, resume_went ht.busy rfl, ?_⟩
      rw [exec_rxack_opened (s := t.released) ht.link, ht.accept_released]
      rfl
  | recvcall =>
    generalize hi : receiveCommand it = i at hpart
    cases hpart with
    | acknowledges => cases it <;> cases hi
    | receives =>
      refine ⟨_, enterAckTx t, .acknowledges, ht.moved rfl List.mem_cons_self rfl, rfl, ?_⟩
      rw [exec_txack_opened (s := t.released) ht.link, ht.accept_released]
      rfl

/-- The commands of the steps use the channel. -/
theorem Envelope.channel (he : Envelope j f k enter) : isChannel j = true ∧ isChannel k = true ∧
    ∀ it, isChannel (f it) = true := by
  cases he with
  | sendcall => exact ⟨rfl, rfl, fun it => (sendCommand_sends it).channel⟩
  | recvcall => exact ⟨rfl, rfl, fun it => (receiveCommand_receives it).channel⟩

theorem Envelope.channel_itemSteps (he : Envelope j f k enter) (its : List Item) :
    ∀ i ∈ itemSteps f k its, isChannel i = true := by
  obtain ⟨-, hk, hf⟩ := he.channel
  intro i hi
  obtain ⟨l, hl, hil⟩ := List.mem_flatten.1 hi
  obtain ⟨it, -, rfl⟩ := List.mem_map.1 hl
  rcases List.mem_pair.1 hil with rfl | rfl
  · exact hf it
  · exact hk

/-- From the item `it` on, an envelope command is its steps. -/
theorem Envelope.steps (he : Envelope j f k enter) : ∀ (bs : List Slot) (it : Item) (s : State), s.link = .opened →
    (slotsAfter it).filter s.present = bs →
    (resume (enter it (accept j s))).shown = (issueAll (itemSteps f k (it :: bs.map .slot)) s).shown
  | bs, it, s, hl, hbs => by
    have hchannel : ∀ i ∈ k :: itemSteps f k (bs.map .slot), isChannel i = true :=
      List.forall_mem_cons.2 ⟨he.channel.2.1, he.channel_itemSteps (bs.map .slot)⟩
    obtain ⟨ps, next, hframe, hin, hexec⟩ := he.frame it hl
    rcases hframe.issue hin hexec (k :: itemSteps f k (bs.map .slot)) with hstop | ⟨t, ht, hresume, hissue⟩
    · exact hstop
    obtain ⟨ps', v, htoken, hv, hpaced, hexec'⟩ := he.token hframe ht
    rw [itemSteps_cons, hresume, hpaced, hissue, issueAll_shown (s := finish t) (u := t.released) hchannel rfl]
    rcases htoken.issue hv hexec' (itemSteps f k (bs.map .slot)) with hstop | ⟨u, hu, hresume', hissue'⟩
    · exact hstop
    have hpresent : u.present = s.present := by unfold State.present State.plenAt; rw [hu.plen]
    rw [hresume', hissue', nextItem, hu.item, nextPresent_eq, hpresent, hbs]
    cases bs with
    | nil => exact congrArg State.shown (resume_idle rfl)
    | cons b bs =>
      have hnext : enter (.slot b) u = enter (.slot b) (accept j u.released) := by
        rw [hu.accept_released, State.under, ← hu.inflight]
      rw [issueAll_shown (s := finish u) (u := u.released) (he.channel_itemSteps _) rfl]
      exact (congrArg (fun w => (resume w).shown) hnext).trans
        (he.steps bs (.slot b) u.released hu.link (presentAfter_slot (hpresent ▸ hbs)))

/-- An envelope command is its steps. -/
theorem Envelope.exec_steps (he : Envelope j f k enter) (s : State) :
    ∃ t, exec j s = .next t ∧ t.shown = (issueAll (itemSteps f k s.items) s).shown := by
  obtain ⟨hj, -, hf⟩ := he.channel
  cases hl : s.link with
  | failed =>
    refine ⟨_, exec_channel_failed hj hl, ?_⟩
    exact congrArg State.shown (issueAll_stops (exec_channel_failed (hf .ident) hl) (.inl rfl)).symm
  | opened =>
    refine ⟨_, exec_channel_opened hj hl, ?_⟩
    rw [he.entry_eq]
    exact he.steps s.presentSlots .ident s hl rfl

end

/-- Settles O46: item by item, the frame and then the token. -/
theorem sendcallIsItsSteps : Obligations.SendcallIsItsSteps := fun s =>
  itemSteps_items sendCommand .rxack s ▸ Envelope.sendcall.exec_steps s

/-- Settles O47: item by item, the frame and then the token. -/
theorem recvcallIsItsSteps : Obligations.RecvcallIsItsSteps := fun s =>
  itemSteps_items receiveCommand .txack s ▸ Envelope.recvcall.exec_steps s

end Sys2Proof.Machine
end

section
/-! Proofs of 44_ack_sequencer.md R194, R195: what the envelope commands do on a channel that obliges (O44, O45), and
the exchange of two blocks back to back (R197, O49). By R197 it is enough to follow the steps, item by item. -/

namespace Sys2Proof.Machine

open Sys2Proof

/-! ## The wire of an envelope (30_encoding.md R101, R105) -/

/-- The frames of some items. -/
def State.frames (s : State) (its : List Item) : List Byte := (its.map fun it => frame (s.itemBytes it)).flatten

theorem items_length (s : State) : s.items.length = s.presentSlots.length + 1 := by simp [State.items]

theorem frames_cons (s : State) (it : Item) (its : List Item) :
    s.frames (it :: its) = frame (s.itemBytes it) ++ s.frames its := rfl

theorem frames_items (s : State) : s.frames s.items = s.envelope := by
  have hslots : (s.presentSlots.map Item.slot).map (fun it => frame (s.itemBytes it)) =
      s.presentSlots.map fun b => frame (s.portion b) := by simp [Function.comp_def]
  rw [State.items, frames_cons, itemBytes_ident, State.frames, hslots]
  rfl

theorem tokens_succ (n : Nat) : tokens (n + 1) = token ++ tokens n := by
  rw [tokens, List.replicate_succ, List.flatten_cons]; rfl

theorem tokens_length (n : Nat) : (tokens n).length = 3 * n := by
  simp [tokens, token, Nat.mul_comm]

theorem accepts_add (m n : Nat) : accepts (m + n) = accepts m ++ accepts n := List.replicate_add ..

/-! ## Issuing commands that complete -/

section

variable {i : Instr} {is : List Instr} {s t u : State}

/-- What the last command left in `STATUS` and `ECAUSE` does not reach past the acceptance of the next. -/
theorem issueAll_done (hi : isChannel i = true) : issueAll (i :: is) s.done = issueAll (i :: is) s := by
  have hexec : exec i s.done = exec i s := by rw [exec_channel _ hi, exec_channel _ hi]; rfl
  simp only [issueAll, hexec, exec_channel s hi]

theorem issueAll_items_done {j k : Instr} {f : Item → Instr} {enter : Item → State → State}
    (he : Envelope j f k enter) (s : State) :
    issueAll (itemSteps f k s.items) s.done = issueAll (itemSteps f k s.items) s :=
  issueAll_done (he.channel.2.2 .ident)

/-- A command that completes leaves the rest to the others. -/
theorem issueAll_completes (hc : ∀ i ∈ is, isChannel i = true) (h : exec i s = .next t)
    (ht : t.shown = u.done.shown) : (issueAll (i :: is) s).shown = (issueAll is u.done).shown := by
  have herr : t.err = false := (congrArg State.err ht : t.shown.err = u.done.shown.err)
  have hbusy : t.busy = false := (congrArg State.busy ht : t.shown.busy = u.done.shown.busy)
  rw [issueAll_goes h herr hbusy, issueAll_shown hc ht]

end

/-! ## `SENDCALL` (R194) -/

/-- The ports have answers `r` and `u` left in store, and the bytes `w` have gone out. -/
def State.ports (s : State) (r : List RxAnswer) (u : List TxAnswer) (w : List Byte) : State :=
  { s with rx := r, tx := u, sent := s.sent ++ w }

theorem ports_nil (s : State) : s.ports s.rx s.tx [] = s := by rw [State.ports, List.append_nil]

theorem ports_ports (s : State) (q r : List RxAnswer) (t u : List TxAnswer) (v w : List Byte) :
    (s.ports q t v).ports r u w = s.ports r u (v ++ w) := by
  simp only [State.ports, List.append_assoc]

section

variable {s : State} {r : List RxAnswer} {u : List TxAnswer}

/-- One item: its frame is sent and the token for it is consumed. -/
theorem issueAll_sends_item {is : List Instr} (it : Item) (hc : ∀ i ∈ is, isChannel i = true) (hl : s.link = .opened)
    (htx : s.tx = accepts (s.itemLen it + 8) ++ u) (hrx : s.rx = arrives token ++ r) :
    (issueAll (sendCommand it :: .rxack :: is) s).shown =
      (issueAll is (s.ports r u (frame (s.itemBytes it))).done).shown := by
  rw [issueAll_completes (u := s.wrote (frame (s.itemBytes it)) u) (List.forall_mem_cons.2 ⟨rfl, hc⟩)
    (exec_sends_all (sendCommand_sends it) hl htx) (settled_shown _), issueAll_done rfl]
  exact issueAll_completes hc (exec_rxack_token (s := s.wrote (frame (s.itemBytes it)) u) hl hrx) (settled_shown _)

/-- All items. -/
theorem issueAll_sends : ∀ (its : List Item) (s : State), s.link = .opened →
    s.tx = accepts (s.frames its).length ++ u → s.rx = arrives (tokens its.length) ++ r →
    (issueAll (itemSteps sendCommand .rxack its) s.done).shown = (s.ports r u (s.frames its)).done.shown
  | [], s, _, htx, hrx => by
    have htx : s.tx = u := htx
    have hrx : s.rx = r := hrx
    rw [← htx, ← hrx]
    exact congrArg (fun t : State => t.done.shown) (ports_nil s).symm
  | it :: its, s, hl, htx, hrx => by
    rw [frames_cons, List.length_append, frame_length, itemBytes_length, accepts_add, List.append_assoc] at htx
    rw [List.length_cons, tokens_succ, arrives_append, List.append_assoc] at hrx
    rw [itemSteps_cons, issueAll_done (sendCommand_sends it).channel,
      issueAll_sends_item it (Envelope.sendcall.channel_itemSteps its) hl htx hrx,
      issueAll_sends its (s.ports _ _ (frame (s.itemBytes it))) hl rfl rfl, ports_ports]
    rfl

end

/-- Settles O44: by R197 and the steps, each of which the channel lets complete. -/
theorem sendcallSendsTheEnvelope : Obligations.SendcallSendsTheEnvelope := by
  intro s r u hl htx hrx
  obtain ⟨t, ht, hshown⟩ := Envelope.sendcall.exec_steps s
  have hsteps := issueAll_sends (r := r) (u := u) s.items s hl (frames_items s ▸ htx) (items_length s ▸ hrx)
  rw [issueAll_items_done .sendcall, frames_items] at hsteps
  exact ⟨rfl, t, ht, hshown.trans hsteps⟩

/-! ## `RECVCALL` (R195) -/

/-- The payloads of some items stored, in order. -/
def State.storedAll (s : State) (p : Item → List Byte) (its : List Item) : State :=
  its.foldl (fun v it => v.stored it 0 (p it)) s

theorem itemLen_ports (s : State) (it : Item) (r : List RxAnswer) (u : List TxAnswer) (w : List Byte) :
    (s.ports r u w).itemLen it = s.itemLen it := by cases it <;> rfl

theorem stored_ports (it : Item) (bs : List Byte) (s : State) (r : List RxAnswer) (u : List TxAnswer)
    (w : List Byte) : (s.ports r u w).stored it 0 bs = (s.stored it 0 bs).ports r u w := by
  rw [stored_eq it bs 0 (u := s.ports r u w) (s := s) rfl rfl, stored_same it bs 0 s]
  rfl

theorem storedAll_ports (p : Item → List Byte) (r : List RxAnswer) (u : List TxAnswer) (w : List Byte) :
    ∀ (its : List Item) (s : State), (s.ports r u w).storedAll p its = (s.storedAll p its).ports r u w
  | [], _ => rfl
  | it :: its, s => by
    have hrest := storedAll_ports p r u w its (s.stored it 0 (p it))
    rwa [← stored_ports it] at hrest

section

variable {s : State} {r : List RxAnswer} {u : List TxAnswer}

/-- One item: its frame is received, behind stray bytes, and a token is sent for it. -/
theorem issueAll_receives_item {is : List Instr} {g p : List Byte} (it : Item) (hc : ∀ i ∈ is, isChannel i = true)
    (hl : s.link = .opened) (hg : skippable g) (hp : p.length = s.itemLen it)
    (hrx : s.rx = arrives (g ++ frame p) ++ r) (htx : s.tx = accepts 3 ++ u) :
    (issueAll (receiveCommand it :: .txack :: is) s).shown =
      (issueAll is ((s.stored it 0 p).ports r u token).done).shown := by
  obtain ⟨t, ht, hshown⟩ := exec_behind_stray (receiveCommand_receives it) hl hp hrx
  rw [issueAll_completes (List.forall_mem_cons.2 ⟨rfl, hc⟩) ht (hshown.2 hg), issueAll_done rfl, stored_read]
  have hlink : (s.stored it 0 p).link = .opened := by rw [stored_same]; exact hl
  have hstx : (s.stored it 0 p).tx = accepts 3 ++ u := by rw [stored_same]; exact htx
  exact issueAll_completes hc (exec_txack_all (s := { s.stored it 0 p with rx := r }) hlink hstx) (settled_shown _)

/-- All items. -/
theorem issueAll_receives (g p : Item → List Byte) (hg : ∀ it, skippable (g it)) : ∀ (its : List Item) (s : State),
    s.link = .opened → (∀ it, (p it).length = s.itemLen it) →
    s.rx = arrives (its.map fun it => g it ++ frame (p it)).flatten ++ r → s.tx = accepts (3 * its.length) ++ u →
    (issueAll (itemSteps receiveCommand .txack its) s.done).shown =
      ((s.storedAll p its).ports r u (tokens its.length)).done.shown
  | [], s, _, _, hrx, htx => by
    have htx : s.tx = u := htx
    have hrx : s.rx = r := hrx
    rw [← htx, ← hrx]
    exact congrArg (fun t : State => t.done.shown) (ports_nil s).symm
  | it :: its, s, hl, hp, hrx, htx => by
    rw [List.map_cons, List.flatten_cons, arrives_append, List.append_assoc] at hrx
    rw [List.length_cons, Nat.mul_succ, Nat.add_comm, accepts_add, List.append_assoc] at htx
    rw [itemSteps_cons, issueAll_done (receiveCommand_receives it).channel,
      issueAll_receives_item it (Envelope.recvcall.channel_itemSteps its) hl (hg it) (hp it) hrx htx]
    have hlink : (s.stored it 0 (p it)).link = .opened := by rw [stored_same]; exact hl
    have hlen (q : List RxAnswer) (t : List TxAnswer) (jt : Item) :
        (p jt).length = ((s.stored it 0 (p it)).ports q t token).itemLen jt := by
      rw [itemLen_ports, itemLen_stored, hp]
    rw [issueAll_receives g p hg its ((s.stored it 0 (p it)).ports _ _ token) hlink (hlen _ _) rfl rfl,
      storedAll_ports, ports_ports, List.length_cons, tokens_succ]
    rfl

end

/-- What belongs to the identifier and to each slot, by the item. -/
def byItem {α : Type} (a : α) (f : Slot → α) : Item → α
  | .ident => a
  | .slot b => f b

/-- Payloads written to some slots, in order. -/
def State.memWriteAll (s : State) (p : Slot → List Byte) (bs : List Slot) : State :=
  bs.foldl (fun v b => v.memWrite b 0 (p b)) s

theorem memWrite_fid (b : Slot) (v : Word32) : ∀ (bytes : List Byte) (o : Nat) (s : State),
    State.memWrite { s with fid := v } b o bytes = { s.memWrite b o bytes with fid := v }
  | [], _, _ => rfl
  | c :: bytes, o, s => memWrite_fid b v bytes (o + 1) (s.setBufByte b o c)

theorem memWriteAll_fid (p : Slot → List Byte) (v : Word32) : ∀ (bs : List Slot) (s : State),
    State.memWriteAll { s with fid := v } p bs = { s.memWriteAll p bs with fid := v }
  | [], _ => rfl
  | b :: bs, s => by
    have hrest := memWriteAll_fid p v bs (s.memWrite b 0 (p b))
    rwa [← memWrite_fid] at hrest

theorem memWriteAll_sent (p : Slot → List Byte) : ∀ (bs : List Slot) (s : State), (s.memWriteAll p bs).sent = s.sent
  | [], _ => rfl
  | b :: bs, s => (memWriteAll_sent p bs (s.memWrite b 0 (p b))).trans (by rw [memWrite_eq_buf])

/-- The payloads of an envelope stored: `FID` and the portions. -/
theorem storedAll_items {ident : List Byte} (p : Slot → List Byte) (s : State) (h : ident.length = 4) :
    s.storedAll (byItem ident p) s.items = { s.memWriteAll p s.presentSlots with fid := s.identAfter ident } := by
  have hslots (t : State) (bs : List Slot) :
      t.storedAll (byItem ident p) (bs.map Item.slot) = t.memWriteAll p bs := by
    simp only [State.storedAll, State.memWriteAll, List.foldl_map, byItem, stored_slot]
  have hident := hslots (s.stored .ident 0 ident) s.presentSlots
  rw [stored_ident s h.le, memWriteAll_fid, ← stored_ident s h.le] at hident
  exact hident

/-- The frames of an envelope, each behind stray bytes. -/
theorem frames_byItem (g0 ident : List Byte) (g p : Slot → List Byte) (s : State) :
    (s.items.map fun it => byItem g0 g it ++ frame (byItem ident p it)).flatten =
      g0 ++ frame ident ++ (s.presentSlots.map fun b => g b ++ frame (p b)).flatten := by
  simp [State.items, byItem, Function.comp_def]

/-- Settles O45: by R197 and the steps, each of which the channel lets complete. -/
theorem recvcallReceivesTheEnvelope : Obligations.RecvcallReceivesTheEnvelope := by
  intro s r u g0 ident g p hl hg0 hident hg hp hrx htx
  obtain ⟨t, ht, hshown⟩ := Envelope.recvcall.exec_steps s
  have hskip (it : Item) : skippable (byItem g0 g it) := by
    cases it with
    | ident => exact hg0
    | slot b => exact hg b
  have hlen (it : Item) : (byItem ident p it).length = s.itemLen it := by
    cases it with
    | ident => exact hident
    | slot b => exact hp b
  have hsteps := issueAll_receives (byItem g0 g) (byItem ident p) hskip s.items s hl hlen
    (frames_byItem g0 ident g p s ▸ hrx) (items_length s ▸ htx)
  rw [issueAll_items_done .recvcall, storedAll_items p s hident, items_length, State.ports, memWriteAll_sent] at hsteps
  exact ⟨rfl, t, ht, hshown.trans hsteps⟩

/-! ## Two blocks back to back (R197) -/

theorem plenAt_memWriteAll (p : Slot → List Byte) (c : Slot) : ∀ (bs : List Slot) (s : State),
    (s.memWriteAll p bs).plenAt c = s.plenAt c
  | [], _ => rfl
  | b :: bs, s => (plenAt_memWriteAll p c bs (s.memWrite b 0 (p b))).trans (plenAt_memWrite b c 0 (p b) s)

theorem memWriteAll_snoc (p : Slot → List Byte) (bs : List Slot) (b : Slot) (s : State) :
    s.memWriteAll p (bs ++ [b]) = (s.memWriteAll p bs).memWrite b 0 (p b) := List.foldl_concat ..

theorem memWriteAll_wf (p : Slot → List Byte) : ∀ (bs : List Slot) (s : State), Memory.wf s.buf = true →
    Memory.wf (s.memWriteAll p bs).buf = true
  | [], _, h => h
  | b :: bs, s, h => memWriteAll_wf p bs (s.memWrite b 0 (p b)) (memWrite_wf b (p b) 0 s h)

/-- A portion that was written is the payload written to it. -/
theorem portion_memWriteAll {s : State} {p : Slot → List Byte} {b : Slot} (hwf : Memory.wf s.buf = true)
    (hp : ∀ c, (p c).length = s.plenAt c) (bs : List Slot) : b ∈ bs → (s.memWriteAll p bs).portion b = p b := by
  induction bs using List.reverseRecOn with
  | nil => exact fun h => absurd h List.not_mem_nil
  | append_singleton bs c ih =>
    intro hb
    have hlen := plenAt_memWriteAll p b bs s
    rw [memWriteAll_snoc, State.portion, plenAt_memWrite, hlen, ← hp b]
    by_cases hbc : b = c
    · rw [hbc]
      exact memRead_memWrite c (p c) 0 (memWriteAll_wf p bs s hwf)
    · have hother : b ∈ bs := (List.mem_append.1 hb).resolve_right (by simpa using hbc)
      refine Eq.trans ?_ (ih hother)
      rw [State.portion, hlen, ← hp b]
      refine List.map_congr_left fun i hi => ?_
      have hle := plenAt_le s b
      have hi := List.mem_range.1 hi
      exact bufByte_memWrite_other (by rw [Nat.zero_add, hp, plenAt_memWriteAll]) (by rw [hp] at hi; omega) (.inl hbc)

/-- The layout says which portions are present. -/
theorem presentSlots_of_plen {s u : State} (h : u.plen = s.plen) : u.presentSlots = s.presentSlots := by
  unfold State.presentSlots State.present State.plenAt
  rw [h]

/-- Settles O49: each block finds on its channel what O44 and O45 ask for. -/
theorem envelopeRoundTrip : Obligations.EnvelopeRoundTrip := by
  intro s u toSender toReceiver hsl hul hwf hplen hstx hsrx hutx hurx hr hs
  have hpresent := presentSlots_of_plen hplen
  have hempty : skippable [] := ⟨nofun, by decide⟩
  have hportion (b : Slot) : (s.portion b).length = u.plenAt b := by
    rw [State.portion, memRead_length, State.plenAt, State.plenAt, hplen]
  have hwire : toReceiver = [] ++ frame s.identBytes ++
      (u.presentSlots.map fun b => [] ++ frame (s.portion b)).flatten := by rw [hr, hpresent]; rfl
  have htokens : toSender.length = 3 * (u.presentSlots.length + 1) := by rw [hs, tokens_length, hpresent]
  obtain ⟨-, t, ht, htshown⟩ := sendcallSendsTheEnvelope s [] [] hsl (by rw [hstx, hr, List.append_nil])
    (by rw [hsrx, hs, List.append_nil])
  obtain ⟨-, v, hv, hvshown⟩ := recvcallReceivesTheEnvelope u [] [] [] s.identBytes (fun _ => []) s.portion hul hempty
    (identBytes_length s) (fun _ => hempty) hportion (by rw [hurx, hwire, List.append_nil])
    (by rw [hutx, htokens, List.append_nil])
  refine ⟨t, v, ht, hv, congrArg State.busy htshown, congrArg State.err htshown, congrArg State.busy hvshown,
    congrArg State.err hvshown, ?_, ?_, congrArg State.rx htshown, congrArg State.rx hvshown, ?_, fun b hb => ?_⟩
  · rw [hr]; exact congrArg State.sent htshown
  · rw [hs, ← hpresent]; exact congrArg State.sent hvshown
  · have hfid := identBytes_identAfter u (identBytes_length s).le
    rw [List.drop_of_length_le (by rw [identBytes_length, identBytes_length]), List.append_nil] at hfid
    exact (congrArg State.fid hvshown).trans
      (fid_eq_of_identBytes (s := { u with fid := u.identAfter s.identBytes }) hfid)
  · exact (congrArg (State.portion · b) hvshown).trans (portion_memWriteAll hwf hportion u.presentSlots (hpresent ▸ hb))

end Sys2Proof.Machine
end

section
/-! Proofs of 45_system.md: `SINIT` (R210, O35), the command port (R211, O5; R217, O6) and the host port (R212, R213,
O7; R214, O8; R215, O9; R216). An action of the host other than waiting for `BUSY = 0` is one call of `hostTurn`, and a
data transaction is one call of `gated`. -/

namespace Sys2Proof.Machine

open Sys2Proof

/-! ## R210 -/

/-- The whole effect of `SINIT`, hidden registers included. -/
theorem exec_sinit (s : State) :
    exec .sinit s = .next { s with link := .opened, esticky := 0, win := 0 }.done.settled := rfl

/-- Settles O35: `SINIT` ends at once, and the end of a command clears the hidden registers other than `WIN`. -/
theorem sinitBeginsASession : Obligations.SinitBeginsASession :=
  fun s => ⟨rfl, _, exec_sinit s, settled_shown _, rfl, rfl, rfl⟩

/-! ## The turn of the host -/

section

variable {s : State}

/-- The host's next action is taken from its list and carried out. -/
theorem step_of_host_cons {a : HostAction} {rest : List HostAction} (hh : s.host = a :: rest) (ha : a ≠ .awaitIdle) :
    step s = hostTurn a { s with host := rest } := by
  unfold step
  split
  next h => rw [hh] at h; cases h
  next h => rw [hh] at h; cases h; exact absurd rfl ha
  next h => rw [hh] at h; cases h; rfl

theorem step_host_cons {a : HostAction} (ha : a ≠ .awaitIdle) (rest : List HostAction) (s : State) :
    step { s with host := a :: rest } = hostTurn a { s with host := rest } :=
  step_of_host_cons rfl ha

/-! ## The command port (R211, R217) -/

theorem present_of_busy (c : Word32) (hb : s.busy = true) : present c s = .next (s.answered .notTaken) := by
  rw [present, if_pos hb]

theorem present_of_legal {c : Word32} {i : Instr} (hb : s.busy = false) (hc : decode c = .ok i) :
    present c s = exec i (s.answered .taken) := by
  rw [present, if_neg (Bool.eq_false_iff.1 hb), hc]

theorem present_of_illegal {c : Word32} {e : Illegal} (hb : s.busy = false) (hc : decode c = .error e) :
    present c s = .next (illegalWord (s.answered .taken)) := by
  rw [present, if_neg (Bool.eq_false_iff.1 hb), hc]

/-- A fetched word is the next word that the host presents. -/
theorem withFetchWord_host (s : State) (c : Word32) : (s.withFetchWord 32 c.toNat).host = .command c :: s.host := by
  rw [State.withFetchWord, BitVec.ofNat_toNat, BitVec.setWidth_eq]

end

/-- Settles O5: the turn of the host presents the word, and `present` goes by `BUSY` and then by the decoder. -/
theorem stepRunsPresentedCommand : Obligations.StepRunsPresentedCommand := by
  refine ⟨fun s rest c i hh hb hc _ => ?_, fun s rest c hh hb => ?_, fun s i hb hc => ?_⟩
  · rw [step_of_host_cons hh nofun]
    exact present_of_legal hb hc
  · rw [step_of_host_cons hh nofun]
    exact present_of_busy c hb
  · rw [step_of_host_cons (withFetchWord_host s (encode i)) nofun]
    exact present_of_legal hb hc

/-- Settles O6: an illegal word is a command that ends at once with IllegalCommand, and that cause leaves `LINK` as it
is; the block was idle, so that `BUSY` stays 0. -/
theorem illegalWordConsumed : Obligations.IllegalWordConsumed := by
  intro s rest c e hh hb hc
  have hstep : step s = .next (illegalWord ({ s with host := rest }.answered .taken)) :=
    (step_of_host_cons hh nofun).trans (present_of_illegal hb hc)
  refine ⟨.taken, _, hstep, ?_⟩
  rw [illegalWord_eq, settled_shown, State.failed, State.shown, State.shown, hb]
  rfl

/-! ## The guarded transactions (R216) -/

section

variable {s : State}

theorem gated_of_idle (f : State → State) (hb : s.busy = false) : gated true f s = f s := by
  simp [gated, hb]

theorem gated_of_busy (ok : Bool) (f : State → State) (hb : s.busy = true) : gated ok f s = s.answered .refused := by
  simp [gated, hb]

theorem gated_outOfRange (f : State → State) : gated false f s = s.answered .refused := by
  simp [gated]

end

/-! ## The register port (R212, R213) -/

section

variable {s : State}

theorem hostReadX_of_idle (i : RegNum) (hb : s.busy = false) : hostReadX i s = s.answered (.word (s.getX i)) :=
  gated_of_idle _ hb

theorem hostWriteX_of_idle (i : RegNum) (v : Word) (hb : s.busy = false) :
    hostWriteX i v s = (s.setX i v).answered .done :=
  gated_of_idle _ hb

theorem hostReadX_of_busy (i : RegNum) (hb : s.busy = true) : hostReadX i s = s.answered .refused :=
  gated_of_busy _ _ hb

theorem hostWriteX_of_busy (i : RegNum) (v : Word) (hb : s.busy = true) : hostWriteX i v s = s.answered .refused :=
  gated_of_busy _ _ hb

end

/-- Settles O7: both transactions are guarded by `BUSY` alone, and the write is `setX`. -/
theorem hostRegisterPort : Obligations.HostRegisterPort := by
  intro s rest i v
  have hread : step { s with host := .readX i :: rest } = .next (hostReadX i { s with host := rest }) :=
    step_host_cons (a := .readX i) nofun rest s
  have hwrite : step { s with host := .writeX i v :: rest } = .next (hostWriteX i v { s with host := rest }) :=
    step_host_cons (a := .writeX i v) nofun rest s
  rw [hread, hwrite]
  refine ⟨fun hb => ⟨?_, ?_⟩, fun hb => ⟨?_, ?_⟩⟩
  · exact congrArg _ (hostReadX_of_idle i hb)
  · exact ⟨_, congrArg _ (hostWriteX_of_idle i v hb), getX_setX_self s i v,
      fun j hj => (getX_setX s i j v).trans (if_neg hj.symm), rfl⟩
  · exact congrArg _ (hostReadX_of_busy i hb)
  · exact congrArg _ (hostWriteX_of_busy i v hb)

/-! ## The buffer port (R214) -/

section

variable {s : State} {b : Slot} {o : Byte}

theorem gated_byte_inRange (f : State → State) (hb : s.busy = false) (ho : o.toNat < s.plenAt b) :
    gated (s.inRange b o.toNat 1) f s = f s := by
  rw [inRange_iff.2 ho, gated_of_idle f hb]

theorem gated_byte_refused (f : State → State) (h : s.busy = true ∨ s.plenAt b ≤ o.toNat) :
    gated (s.inRange b o.toNat 1) f s = s.answered .refused := by
  rcases h with hb | ho
  · exact gated_of_busy _ f hb
  · rw [inRange_false_iff.2 (Nat.lt_succ_of_le ho), gated_outOfRange]

theorem hostReadBuf_inRange (hb : s.busy = false) (ho : o.toNat < s.plenAt b) :
    hostReadBuf b o s = s.answered (.byte (s.bufByte b o.toNat)) :=
  gated_byte_inRange _ hb ho

theorem hostWriteBuf_inRange (v : Byte) (hb : s.busy = false) (ho : o.toNat < s.plenAt b) :
    hostWriteBuf b o v s = (s.setBufByte b o.toNat v).answered .done :=
  gated_byte_inRange _ hb ho

theorem hostReadBuf_refused (h : s.busy = true ∨ s.plenAt b ≤ o.toNat) : hostReadBuf b o s = s.answered .refused :=
  gated_byte_refused _ h

theorem hostWriteBuf_refused (v : Byte) (h : s.busy = true ∨ s.plenAt b ≤ o.toNat) :
    hostWriteBuf b o v s = s.answered .refused :=
  gated_byte_refused _ h

end

/-- Settles O8: both transactions are guarded by `BUSY` and the range of the one byte, and the write is `setBufByte`. -/
theorem hostBufferPort : Obligations.HostBufferPort := by
  intro s rest b o v
  have hread : step { s with host := .readBuf b o :: rest } = .next (hostReadBuf b o { s with host := rest }) :=
    step_host_cons (a := .readBuf b o) nofun rest s
  have hwrite : step { s with host := .writeBuf b o v :: rest } = .next (hostWriteBuf b o v { s with host := rest }) :=
    step_host_cons (a := .writeBuf b o v) nofun rest s
  rw [hread, hwrite]
  refine ⟨fun hb ho => ⟨?_, ?_⟩, fun h => ⟨?_, ?_⟩⟩
  · exact congrArg _ (hostReadBuf_inRange hb ho)
  · exact ⟨_, congrArg _ (hostWriteBuf_inRange v hb ho), rfl,
      fun hwf => ⟨Memory.write_wf _ _ _ hwf, Memory.read_write_same _ _ _ hwf⟩,
      fun _ hk => Memory.read_write_other v hk s.buf⟩
  · exact congrArg _ (hostReadBuf_refused h)
  · exact congrArg _ (hostWriteBuf_refused v h)

/-! ## The layout of `STATUS` and `ECAUSE` (10_state.md R33, R34) -/

/-- A flag is the one bit of its word. -/
theorem flagBit_getLsbD (v : Bool) {n : Nat} (hn : n < 32) (k : Nat) :
    (flagBit v n).getLsbD k = (v && decide (n = k)) := by
  cases v with
  | false => simp [flagBit]
  | true => rw [flagBit, if_pos rfl, ← BitVec.twoPow_eq, BitVec.getLsbD_twoPow]; simp [hn]

theorem flagBit_toNat_lt (v : Bool) {n : Nat} (hn : n < 5) : (flagBit v n).toNat < 2 ^ 5 := by
  revert n v
  decide

/-- The five flags by the number of their bit. -/
theorem statusWord_getLsbD (s : State) (k : Nat) : s.statusWord.getLsbD k =
    (s.busy && decide (0 = k) || s.err && decide (1 = k) || s.flagT && decide (2 = k) || s.flagEq && decide (3 = k) ||
      decide (s.link = .failed) && decide (4 = k)) := by
  simp (disch := decide) only [State.statusWord, BitVec.getLsbD_or, flagBit_getLsbD]

/-- Bits 31:5 of `STATUS` are 0. -/
theorem statusWord_toNat_lt (s : State) : s.statusWord.toNat < 2 ^ 5 := by
  simp only [State.statusWord, BitVec.toNat_or]
  refine Nat.or_lt_two_pow (Nat.or_lt_two_pow (Nat.or_lt_two_pow (Nat.or_lt_two_pow ?_ ?_) ?_) ?_) ?_ <;>
    exact flagBit_toNat_lt _ (by decide)

/-- `STATUS` bit by bit (10_state.md R33). -/
theorem statusWord_layout (s : State) :
    s.statusWord.getLsbD 0 = s.busy ∧ s.statusWord.getLsbD 1 = s.err ∧ s.statusWord.getLsbD 2 = s.flagT ∧
      s.statusWord.getLsbD 3 = s.flagEq ∧ (s.statusWord.getLsbD 4 = true ↔ s.link = .failed) ∧
      s.statusWord.toNat < 32 := by
  refine ⟨?_, ?_, ?_, ?_, ?_, statusWord_toNat_lt s⟩ <;> rw [statusWord_getLsbD] <;> simp

/-- `ECAUSE` by the cause: 0, or its number in 60_exceptions.md R251. -/
theorem ecauseWord_of_ecause {s : State} {r : Option Cause} (h : s.ecause = r) :
    s.ecauseWord = BitVec.ofNat 32 (r.elim 0 Cause.code) := by
  subst h
  unfold State.ecauseWord
  cases s.ecause <;> rfl

/-! ## The control port (R215)

The access rights are those of 10_state.md R38. -/

section

variable {s : State}

/-- `FID` and `PLEN` are read and written while the block is idle. -/
theorem hostCtl_of_idle (v : Word32) (hb : s.busy = false) :
    hostReadCtl 3 s = s.answered (.ctl s.fid) ∧ hostReadCtl 4 s = s.answered (.ctl s.plen) ∧
      hostWriteCtl 3 v s = { s with fid := v }.answered .done ∧
      hostWriteCtl 4 v s = { s with plen := v }.answered .done := by
  simp only [hostReadCtl, hostWriteCtl, gated_of_idle _ hb, and_self]

/-- `FID` and `PLEN` are neither read nor written while a command is in flight. -/
theorem hostCtl_of_busy {n : Nat} (hn : n = 3 ∨ n = 4) (v : Word32) (hb : s.busy = true) :
    hostReadCtl n s = s.answered .refused ∧ hostWriteCtl n v s = s.answered .refused := by
  rcases hn with rfl | rfl <;> simp only [hostReadCtl, hostWriteCtl, gated_of_busy _ _ hb, and_self]

/-- `STATUS`, `ECAUSE` and `ESTICKY` are read only. -/
theorem hostWriteCtl_readOnly {n : Nat} (hn : n ≤ 2) (v : Word32) : hostWriteCtl n v s = s.answered .refused := by
  interval_cases n <;> rfl

/-- There are five control registers. -/
theorem hostCtl_unassigned {n : Nat} (hn : 5 ≤ n) (v : Word32) :
    hostReadCtl n s = s.answered .refused ∧ hostWriteCtl n v s = s.answered .refused := by
  obtain ⟨k, rfl⟩ := Nat.exists_eq_add_of_le' hn
  exact ⟨rfl, rfl⟩

end

/-- Settles O9: the reads of the first three registers are not guarded, those of `FID` and `PLEN` and their writes are
guarded by `BUSY`, and every other access is refused. -/
theorem hostControlPort : Obligations.HostControlPort := by
  intro s rest v
  have hread (n : Nat) : step { s with host := .readCtl n :: rest } = .next (hostReadCtl n { s with host := rest }) :=
    step_host_cons (a := .readCtl n) nofun rest s
  have hwrite (n : Nat) :
      step { s with host := .writeCtl n v :: rest } = .next (hostWriteCtl n v { s with host := rest }) :=
    step_host_cons (a := .writeCtl n v) nofun rest s
  simp only [hread, hwrite]
  refine ⟨⟨s.statusWord, rfl, statusWord_layout s⟩, ⟨s.ecauseWord, rfl, ?_⟩, rfl, fun hb => ?_, fun hb n hn => ?_,
    fun n hn => ?_, fun n hn => ?_⟩
  · refine ⟨?_, ?_, ?_, ?_, ?_, ?_, ?_, ?_, ?_⟩ <;> exact ecauseWord_of_ecause
  · obtain ⟨hr3, hr4, hw3, hw4⟩ := hostCtl_of_idle (s := { s with host := rest }) v hb
    exact ⟨congrArg _ hr3, congrArg _ hr4, congrArg _ hw3, congrArg _ hw4⟩
  · obtain ⟨hr, hw⟩ := hostCtl_of_busy (s := { s with host := rest }) hn v hb
    exact ⟨congrArg _ hr, congrArg _ hw⟩
  · exact congrArg _ (hostWriteCtl_readOnly hn v)
  · exact (hostCtl_unassigned hn v).imp (congrArg _) (congrArg _)

end Sys2Proof.Machine
end

section
/-! Proofs of 60_exceptions.md: the entry sequence of an error (R254, O14), and that neither an error nor a wait stops
the machine (R254, R265, O12). `Fault` has no constructor, but `Refusal` has one (log 22), so O12 needs every arm of
`exec` and every turn of the host. -/

namespace Sys2Proof.Machine

open Sys2Proof

/-! ## The entry sequence (R254) -/

/-- The causes that abort the session are the codes 1, 2 and 3 (R254, R260). -/
theorem Cause.aborts_iff_code (c : Cause) : c.aborts = true ↔ c.code ∈ [1, 2, 3] := by
  cases c <;> decide

theorem raise_link_of_aborting {c : Cause} (s : State) (h : c.code ∈ [1, 2, 3]) : (raise c s).link = .failed := by
  rw [raise_link, if_pos (c.aborts_iff_code.2 h)]

theorem raise_link_of_not_aborting {c : Cause} (s : State) (h : c.code ∉ [1, 2, 3]) : (raise c s).link = s.link := by
  rw [raise_link, if_neg (mt c.aborts_iff_code.1 h)]

/-- Settles O14: each part is the law of `raise` for its field; that of `LINK` goes by the cause. -/
theorem raiseEntry : Obligations.RaiseEntry := fun c s =>
  ⟨raise_ecause s c, raise_esticky s c, raise_err s c, raise_busy s c, raise_link_of_aborting s,
    raise_link_of_not_aborting s, raise_acc s c, raise_biti s c, raise_stg s c, raise_cnt s c, raise_x s c,
    raise_flagT s c, raise_flagEq s c, raise_buf s c, raise_fid s c, raise_plen s c, raise_rx s c, raise_tx s c,
    raise_sent s c⟩

/-! ## Every command answers a next state (R254, R265) -/

theorem exec_ldb_next (rd : RegNum) (b : Slot) (off w : Nat) (s : State) :
    ∃ t, exec (.ldb rd b off w) s = .next t := by
  rcases Nat.lt_or_ge (s.plenAt b) (off + w) with hout | hin
  · exact ⟨_, exec_ldb_outOfRange rd hout⟩
  · exact ⟨_, exec_ldb_inRange rd hin⟩

theorem exec_stb_next (ra : RegNum) (b : Slot) (off w : Nat) (s : State) :
    ∃ t, exec (.stb ra b off w) s = .next t := by
  rcases Nat.lt_or_ge (s.plenAt b) (off + w) with hout | hin
  · exact ⟨_, exec_stb_outOfRange ra hout⟩
  · rcases Nat.lt_or_ge (s.getX ra).toNat (2 ^ (8 * w)) with hfits | hlarge
    · exact ⟨_, exec_stb_fits hin hfits⟩
    · exact ⟨_, exec_stb_tooLarge hin hlarge⟩

/-- The arms that branch before they answer are `PMUL`, `LDB` and `STB`; a channel command answers also when it has to
wait. -/
theorem exec_next (i : Instr) (s : State) : ∃ t, exec i s = .next t := by
  cases i with
  | fadd | fsub | fmul | fred | finv | btst | padd | peq | sinit => exact ⟨_, rfl⟩
  | pmul qd rk qa => exact ⟨_, execPmul_eq qd rk qa s⟩
  | ldb rd b off w => exact exec_ldb_next rd b off w s
  | stb ra b off w => exact exec_stb_next ra b off w s
  | txf | txid | rxf | rxid | txack | rxack | sendcall | recvcall => exact ⟨_, exec_channel s rfl⟩

/-! ## Every step answers a next state (R254, R265) -/

/-- A word on the command port is not taken, consumed as illegal, or executed. -/
theorem present_next (c : Word32) (s : State) : ∃ t, present c s = .next t := by
  cases hb : s.busy with
  | true => exact ⟨_, present_of_busy c hb⟩
  | false =>
    cases hc : decode c with
    | error e => exact ⟨_, present_of_illegal hb hc⟩
    | ok i => rw [present_of_legal hb hc]; exact exec_next i _

theorem hostTurn_next (a : HostAction) (s : State) : ∃ t, hostTurn a s = .next t := by
  cases a with
  | command c => exact present_next c s
  | readX | writeX | readBuf | writeBuf | readCtl | writeCtl | reset | wait | awaitIdle => exact ⟨_, rfl⟩

theorem step_next (s : State) : ∃ t, step s = .next t := by
  unfold step
  split
  next hnil => exact ⟨_, rfl⟩
  next rest hawait =>
    split
    next hbusy => exact ⟨_, rfl⟩
    next hdone => exact ⟨_, rfl⟩
  next a rest _ hacts => exact hostTurn_next a { s with host := rest }

/-- Settles O12: no arm of `exec` refuses its command, and a step is a turn of the block, which answers always, or one
turn of the host. -/
theorem nothingStopsTheMachine : Obligations.NothingStopsTheMachine := ⟨step_next, exec_next⟩

end Sys2Proof.Machine
end

section
/-! Settles the obligation about the reset input, O11 (R280): the values of R50 are those of `State.reset` (O10), and the
reset input takes every field they speak of from there and the channel's three fields from the state it meets. -/

namespace Sys2Proof.Machine

open Sys2Proof

/-- None of R50's values is read from the channel, the host or the answer, which are all that the reset input keeps. -/
theorem resetInput_resetValues (s : State) : (resetInput s).resetValues :=
  show State.reset.resetValues from resetState

/-- The reset input does not act on the channel (70_reset_and_hazards.md R280). -/
theorem resetInput_frame (s : State) :
    (resetInput s).rx = s.rx ∧ (resetInput s).tx = s.tx ∧ (resetInput s).sent = s.sent ∧
      (resetInput s).host = s.host :=
  ⟨rfl, rfl, rfl, rfl⟩

/-- The reset input is not guarded: whatever is in flight, the step is the reset. -/
theorem step_of_host_reset {s : State} {rest : List HostAction} (hh : s.host = .reset :: rest) :
    step s = .next (resetInput { s with host := rest }) :=
  step_of_host_cons hh nofun

/-- Settles O11: the step is the reset input, which gives the values of O10 and keeps the channel. (The name
`resetInput` is the model's own operation.) -/
theorem resetInput_resets : Obligations.ResetInput := fun s rest hh =>
  have hvalues := resetInput_resetValues { s with host := rest }
  have hframe := resetInput_frame { s with host := rest }
  ⟨_, step_of_host_reset hh, hvalues, hframe⟩

end Sys2Proof.Machine
end
